-- ==== Sys2Proof/Word.lean ====
section
/-! DEFINITION. The word types of P256V: what the spec treats as bits. Operands of the arithmetic are
natural numbers (00_scope.md section 5: "Numbers are unsigned mathematical integers"). -/

namespace Sys2Proof

/-- A byte of a buffer (R22, R24). -/
abbrev Byte := BitVec 8

/-- A bus word, a command word, a control register (R63, R90, R28). -/
abbrev Word := BitVec 32

/-- The contents of a general register (R20). -/
abbrev Word256 := BitVec 256

/-- A byte offset in the block's window: the port paddr (R61, R62). -/
abbrev Offset := BitVec 12

end Sys2Proof
end

