-- ==== Sys2Proof/Config.lean ====
section
/-! DEFINITION. What is fixed for the machine: the curve constants of 00_scope.md (rules R3 to R7), the
implementation parameters of its section 4, and the OPEN parameter BASE. -/

namespace Sys2Proof.Config

/-- The field prime p (R3). -/
def p : Nat := 0xFFFFFFFF_00000001_00000000_00000000_00000000_FFFFFFFF_FFFFFFFF_FFFFFFFF

/-- The group order n (R7). -/
def n : Nat := 0xFFFFFFFF_00000000_FFFFFFFF_FFFFFFFF_BCE6FAAD_A7179E84_F3B9CAC2_FC632551

/-- The curve coefficient a = p - 3 (R4). -/
def a : Nat := 0xFFFFFFFF_00000001_00000000_00000000_00000000_FFFFFFFF_FFFFFFFF_FFFFFFFC

/-- The curve coefficient b (R5). -/
def b : Nat := 0x5AC635D8_AA3A93E7_B3EBBD55_769886BC_651D06B0_CC53B0F6_3BCE3C3E_27D2604B

/-- The x coordinate of the base point G (R6). -/
def gx : Nat := 0x6B17D1F2_E12C4247_F8BCE6E5_63A440F2_77037D81_2DEB33A0_F4A13945_D898C296

/-- The y coordinate of the base point G (R6). -/
def gy : Nat := 0x4FE342E2_FE1A7F9B_8EE7EB4A_7C0F9E16_2BCE3357_6B315ECE_CBB64068_37BF51F5

/-- 2^512 mod p, row R2P of the constant store (R27). -/
def r2p : Nat := 0x00000004_FFFFFFFD_FFFFFFFF_FFFFFFFE_FFFFFFFB_FFFFFFFF_00000000_00000003

/-- 2^512 mod n, row R2N of the constant store (R27). -/
def r2n : Nat := 0x66E12D94_F3D95620_2845B239_2B6BEC59_4699799C_49BD6FA6_83244C95_BE79EEA2

/-- The Montgomery radix 2^256 (00_scope.md section 4, R130). -/
def radix : Nat := 2 ^ 256

/-- The value of the ID register, ASCII "P256" (R26). -/
def idValue : Word := 0x50323536#32

/-- The window offset of InBuf[0] (R66, R68). -/
def inBase : Nat := 0x200

/-- The number of bytes of IN_BUF (R22). -/
def inSize : Nat := 160

/-- The window offset of OutBuf[0] (R66, R68). -/
def outBase : Nat := 0x300

/-- The number of bytes of OUT_BUF (R24). -/
def outSize : Nat := 128

/-- BASE (R62): where the platform places the window. An OPEN parameter of the spec, so a constant with no
value that a proof can see. The block sees only the 12-bit offset. -/
opaque base : Nat

/-- The address on the host's bus of an offset in the window: `BASE + off` (R63). -/
def hostAddress (off : Offset) : Nat := base + off.toNat

end Sys2Proof.Config
end

