-- ==== Sys2Proof/Syntax.lean ====
section
/-! DEFINITION. The 17 commands of 30_encoding.md rule R100 as one inductive, with the operand forms of rules R93
to R97. -/

namespace Sys2Proof

/-- A register field: R0 to R7 (R93). The first register of a pair (R94) is written the same way; WellFormed refuses a
pair whose first register is R7. -/
abbrev Reg := Fin 8

/-- The modulus the M bit selects (R95). -/
inductive Modulus where
  /-- M = 0: FieldElement arithmetic, suffix `.P`. -/
  | p
  /-- M = 1: Scalar arithmetic, suffix `.N`. -/
  | n
  deriving DecidableEq, Repr

/-- The inversion method the V bit selects (R96). -/
inductive InvMethod where
  /-- V = 0, suffix `.F`. -/
  | fermat
  /-- V = 1, suffix `.E`. -/
  | euclid
  deriving DecidableEq, Repr

/-- The rows of the constant store, K = 0 to 7 in this order (R27, R97). -/
inductive ConstName where
  | p | n | a | b | gx | gy | r2p | r2n
  deriving DecidableEq, Repr

/-- The commands (R100), operands in the order RD, RS1, RS2, M, V of rule R104. Arguments named `prd`, `prs1`, `prs2`
are pairs (R94). -/
inductive Instr where
  /-- OP 0x01 (R122). -/
  | madd (rd rs1 rs2 : Reg) (m : Modulus)
  /-- OP 0x02 (R123). -/
  | msub (rd rs1 rs2 : Reg) (m : Modulus)
  /-- OP 0x03 (R124). -/
  | mmul (rd rs1 rs2 : Reg) (m : Modulus)
  /-- OP 0x04 (R130). -/
  | montmul (rd rs1 rs2 : Reg) (m : Modulus)
  /-- OP 0x05 (R140). -/
  | minv (rd rs1 : Reg) (m : Modulus) (v : InvMethod)
  /-- OP 0x06 (R150). -/
  | mred (rd rs1 : Reg) (m : Modulus)
  /-- OP 0x07 (R160). -/
  | ldc (rd : Reg) (k : ConstName)
  /-- OP 0x10 (R205). -/
  | pvalid (rd prs1 : Reg)
  /-- OP 0x11 (R206). -/
  | padd (prd prs1 prs2 : Reg)
  /-- OP 0x12 (R207). -/
  | pdbl (prd prs1 : Reg)
  /-- OP 0x13 (R208). -/
  | pmul (prd prs1 rs2 : Reg)
  /-- OP 0x14 (R220). -/
  | decomp (prd : Reg)
  /-- OP 0x15 (R222). -/
  | compress (prs1 : Reg)
  /-- OP 0x20 (R175). -/
  | derint (rs1 : Reg)
  /-- OP 0x21 (R185). -/
  | dersig (rs1 rs2 : Reg)
  /-- OP 0x30 (R255). -/
  | verify (rd : Reg)
  /-- OP 0x31 (R260). -/
  | verifyabi (rd : Reg)
  deriving DecidableEq, Repr

end Sys2Proof
end

