-- ==== Sys2Proof/WellFormed.lean ====
section
/-! DEFINITION. Which terms of Instr are commands: no pair operand names R7 (30_encoding.md rule R94). Every other
operand value is legal (R93, R97). -/

namespace Sys2Proof

/-- The pair operands of a command, by their first registers (the fields of usage `pr` in R100). -/
def Instr.pairs : Instr → List Reg
  | .madd _ _ _ _ => []
  | .msub _ _ _ _ => []
  | .mmul _ _ _ _ => []
  | .montmul _ _ _ _ => []
  | .minv _ _ _ _ => []
  | .mred _ _ _ => []
  | .ldc _ _ => []
  | .pvalid _ prs1 => [prs1]
  | .padd prd prs1 prs2 => [prd, prs1, prs2]
  | .pdbl prd prs1 => [prd, prs1]
  | .pmul prd prs1 _ => [prd, prs1]
  | .decomp prd => [prd]
  | .compress prs1 => [prs1]
  | .derint _ => []
  | .dersig _ _ => []
  | .verify _ => []
  | .verifyabi _ => []

/-- The first register of a pair may be R0 to R6: "Value 7 is illegal (it would need R8)" (R94). -/
def Reg.pairLegal (r : Reg) : Bool := r != 7

/-- A command is well formed when every pair operand it names exists (R94). -/
def Instr.wf (i : Instr) : Bool := i.pairs.all Reg.pairLegal

end Sys2Proof
end

