-- ==== Sys2Proof/Decode.lean ====
section
/-! DEFINITION. The decoder of 30_encoding.md (R91, R92, R99, R100, R102), total on every 32-bit word and rejecting
by name, and after it the encoder, written from the same tables. -/

namespace Sys2Proof

/-- The five operand fields of a command word, in the order R102 checks them. -/
inductive Field where
  | rd | rs1 | rs2 | m | v
  deriving DecidableEq, Repr

/-- How an opcode uses a field (R99). -/
inductive Usage where
  /-- `r`: a register (R93). -/
  | r
  /-- `pr`: a pair (R94). -/
  | pr
  /-- `K`: a constant index (R97). -/
  | k
  /-- `m`: the modulus (R95). -/
  | m
  /-- `v`: the method (R96). -/
  | v
  /-- `0`: must hold 0 (R99). -/
  | zero
  deriving DecidableEq, Repr

/-- Why a word encodes no command: the checks of R102, one name each (R291). -/
inductive Illegal where
  /-- `w[31:19] ≠ 0` (R98). -/
  | reservedBits
  /-- An opcode outside the table of R100 (R101). -/
  | unknownOpcode
  /-- A field of usage `0` holds a non-zero value (R99). -/
  | nonZeroField (f : Field)
  /-- A pair field holds 7 (R94). -/
  | pairSeven (f : Field)
  deriving DecidableEq, Repr

/-- What the decoder answers. -/
inductive Decoded where
  | command (i : Instr)
  | illegal (why : Illegal)
  deriving DecidableEq, Repr

/-- The opcodes of R100, one name each. -/
inductive Opcode where
  | madd | msub | mmul | montmul | minv | mred | ldc | pvalid | padd | pdbl | pmul | decomp | compress
  | derint | dersig | verify | verifyabi
  deriving DecidableEq, Repr

/-- The OP value of an opcode (R100). -/
def Opcode.value : Opcode → Nat
  | .madd => 0x01
  | .msub => 0x02
  | .mmul => 0x03
  | .montmul => 0x04
  | .minv => 0x05
  | .mred => 0x06
  | .ldc => 0x07
  | .pvalid => 0x10
  | .padd => 0x11
  | .pdbl => 0x12
  | .pmul => 0x13
  | .decomp => 0x14
  | .compress => 0x15
  | .derint => 0x20
  | .dersig => 0x21
  | .verify => 0x30
  | .verifyabi => 0x31

/-- The opcodes in the order of R100's table. -/
def allOpcodes : List Opcode :=
  [.madd, .msub, .mmul, .montmul, .minv, .mred, .ldc, .pvalid, .padd, .pdbl, .pmul, .decomp, .compress,
   .derint, .dersig, .verify, .verifyabi]

/-- The opcode of an OP value, none outside the table (R101). -/
def opcodeOfValue (op : Nat) : Option Opcode := allOpcodes.find? fun o => o.value == op

/-- The field usages of the table of R100: RD, RS1, RS2, M, V of each row. -/
def Opcode.usage : Opcode → Field → Usage
  | .madd, .rd => .r | .madd, .rs1 => .r | .madd, .rs2 => .r | .madd, .m => .m | .madd, .v => .zero
  | .msub, .rd => .r | .msub, .rs1 => .r | .msub, .rs2 => .r | .msub, .m => .m | .msub, .v => .zero
  | .mmul, .rd => .r | .mmul, .rs1 => .r | .mmul, .rs2 => .r | .mmul, .m => .m | .mmul, .v => .zero
  | .montmul, .rd => .r | .montmul, .rs1 => .r | .montmul, .rs2 => .r | .montmul, .m => .m | .montmul, .v => .zero
  | .minv, .rd => .r | .minv, .rs1 => .r | .minv, .rs2 => .zero | .minv, .m => .m | .minv, .v => .v
  | .mred, .rd => .r | .mred, .rs1 => .r | .mred, .rs2 => .zero | .mred, .m => .m | .mred, .v => .zero
  | .ldc, .rd => .r | .ldc, .rs1 => .k | .ldc, .rs2 => .zero | .ldc, .m => .zero | .ldc, .v => .zero
  | .pvalid, .rd => .r | .pvalid, .rs1 => .pr | .pvalid, .rs2 => .zero | .pvalid, .m => .zero | .pvalid, .v => .zero
  | .padd, .rd => .pr | .padd, .rs1 => .pr | .padd, .rs2 => .pr | .padd, .m => .zero | .padd, .v => .zero
  | .pdbl, .rd => .pr | .pdbl, .rs1 => .pr | .pdbl, .rs2 => .zero | .pdbl, .m => .zero | .pdbl, .v => .zero
  | .pmul, .rd => .pr | .pmul, .rs1 => .pr | .pmul, .rs2 => .r | .pmul, .m => .zero | .pmul, .v => .zero
  | .decomp, .rd => .pr | .decomp, .rs1 => .zero | .decomp, .rs2 => .zero | .decomp, .m => .zero | .decomp, .v => .zero
  | .compress, .rd => .zero | .compress, .rs1 => .pr | .compress, .rs2 => .zero | .compress, .m => .zero
  | .compress, .v => .zero
  | .derint, .rd => .zero | .derint, .rs1 => .r | .derint, .rs2 => .zero | .derint, .m => .zero | .derint, .v => .zero
  | .dersig, .rd => .zero | .dersig, .rs1 => .r | .dersig, .rs2 => .r | .dersig, .m => .zero | .dersig, .v => .zero
  | .verify, .rd => .r | .verify, .rs1 => .zero | .verify, .rs2 => .zero | .verify, .m => .zero | .verify, .v => .zero
  | .verifyabi, .rd => .r | .verifyabi, .rs1 => .zero | .verifyabi, .rs2 => .zero | .verifyabi, .m => .zero
  | .verifyabi, .v => .zero

/-- The operand fields of a word, read straight from its bits (R92). -/
structure Fields where
  rd : Reg
  rs1 : Reg
  rs2 : Reg
  m : Bool
  v : Bool
  deriving DecidableEq, Repr

/-- Bits `hi` down to `lo` of `w` as an unsigned number: `w[hi:lo]` of 00_scope.md section 5. -/
def bitField (w : Word) (hi lo : Nat) : Nat := w.toNat / 2 ^ lo % 2 ^ (hi - lo + 1)

/-- RD = w[10:8], RS1 = w[13:11], RS2 = w[16:14], M = w[17], V = w[18] (R92). -/
def fieldsOf (w : Word) : Fields where
  rd := Fin.ofNat 8 (bitField w 10 8)
  rs1 := Fin.ofNat 8 (bitField w 13 11)
  rs2 := Fin.ofNat 8 (bitField w 16 14)
  m := bitField w 17 17 == 1
  v := bitField w 18 18 == 1

/-- The value of one field. -/
def Fields.value (f : Fields) : Field → Nat
  | .rd => f.rd.val
  | .rs1 => f.rs1.val
  | .rs2 => f.rs2.val
  | .m => f.m.toNat
  | .v => f.v.toNat

/-- The check of one field in R102: none when the field passes. -/
def checkField (o : Opcode) (fs : Fields) (f : Field) : Option Illegal :=
  if o.usage f = .zero ∧ fs.value f ≠ 0 then some (.nonZeroField f)
  else if o.usage f = .pr ∧ fs.value f = 7 then some (.pairSeven f)
  else none

/-- The first field that fails, in the order RD, RS1, RS2, M, V (R102). -/
def checkFields (o : Opcode) (fs : Fields) : Option Illegal :=
  [Field.rd, .rs1, .rs2, .m, .v].findSome? (checkField o fs)

/-- The modulus of the M bit (R95). -/
def modulusOfBit (m : Bool) : Modulus := if m then .n else .p

/-- The method of the V bit (R96). -/
def methodOfBit (v : Bool) : InvMethod := if v then .euclid else .fermat

/-- The constant of index K (R27, R97). -/
def constOfIndex : Reg → ConstName
  | 0 => .p
  | 1 => .n
  | 2 => .a
  | 3 => .b
  | 4 => .gx
  | 5 => .gy
  | 6 => .r2p
  | 7 => .r2n

/-- The command of an opcode with its fields (R100); fields of usage `0` are dropped. -/
def Opcode.build (fs : Fields) : Opcode → Instr
  | .madd => .madd fs.rd fs.rs1 fs.rs2 (modulusOfBit fs.m)
  | .msub => .msub fs.rd fs.rs1 fs.rs2 (modulusOfBit fs.m)
  | .mmul => .mmul fs.rd fs.rs1 fs.rs2 (modulusOfBit fs.m)
  | .montmul => .montmul fs.rd fs.rs1 fs.rs2 (modulusOfBit fs.m)
  | .minv => .minv fs.rd fs.rs1 (modulusOfBit fs.m) (methodOfBit fs.v)
  | .mred => .mred fs.rd fs.rs1 (modulusOfBit fs.m)
  | .ldc => .ldc fs.rd (constOfIndex fs.rs1)
  | .pvalid => .pvalid fs.rd fs.rs1
  | .padd => .padd fs.rd fs.rs1 fs.rs2
  | .pdbl => .pdbl fs.rd fs.rs1
  | .pmul => .pmul fs.rd fs.rs1 fs.rs2
  | .decomp => .decomp fs.rd
  | .compress => .compress fs.rs1
  | .derint => .derint fs.rs1
  | .dersig => .dersig fs.rs1 fs.rs2
  | .verify => .verify fs.rd
  | .verifyabi => .verifyabi fs.rd

/-- `decode(w)` of R102, in its order: the reserved bits, the opcode, the fields. -/
def decode (w : Word) : Decoded :=
  if bitField w 31 19 ≠ 0 then .illegal .reservedBits
  else
    match opcodeOfValue (bitField w 7 0) with
    | none => .illegal .unknownOpcode
    | some o =>
      match checkFields o (fieldsOf w) with
      | some why => .illegal why
      | none => .command (o.build (fieldsOf w))

/-! ## The encoder -/

/-- The opcode of a command. -/
def Instr.opcode : Instr → Opcode
  | .madd _ _ _ _ => .madd
  | .msub _ _ _ _ => .msub
  | .mmul _ _ _ _ => .mmul
  | .montmul _ _ _ _ => .montmul
  | .minv _ _ _ _ => .minv
  | .mred _ _ _ => .mred
  | .ldc _ _ => .ldc
  | .pvalid _ _ => .pvalid
  | .padd _ _ _ => .padd
  | .pdbl _ _ => .pdbl
  | .pmul _ _ _ => .pmul
  | .decomp _ => .decomp
  | .compress _ => .compress
  | .derint _ => .derint
  | .dersig _ _ => .dersig
  | .verify _ => .verify
  | .verifyabi _ => .verifyabi

/-- The M bit of a modulus (R95). -/
def Modulus.bit : Modulus → Bool
  | .p => false
  | .n => true

/-- The V bit of a method (R96). -/
def InvMethod.bit : InvMethod → Bool
  | .fermat => false
  | .euclid => true

/-- The index K of a constant (R27). -/
def ConstName.index : ConstName → Reg
  | .p => 0
  | .n => 1
  | .a => 2
  | .b => 3
  | .gx => 4
  | .gy => 5
  | .r2p => 6
  | .r2n => 7

/-- The operand fields of a command, 0 in a field of usage `0` (R99, R100). -/
def Instr.fields : Instr → Fields
  | .madd rd rs1 rs2 m => ⟨rd, rs1, rs2, m.bit, false⟩
  | .msub rd rs1 rs2 m => ⟨rd, rs1, rs2, m.bit, false⟩
  | .mmul rd rs1 rs2 m => ⟨rd, rs1, rs2, m.bit, false⟩
  | .montmul rd rs1 rs2 m => ⟨rd, rs1, rs2, m.bit, false⟩
  | .minv rd rs1 m v => ⟨rd, rs1, 0, m.bit, v.bit⟩
  | .mred rd rs1 m => ⟨rd, rs1, 0, m.bit, false⟩
  | .ldc rd k => ⟨rd, k.index, 0, false, false⟩
  | .pvalid rd prs1 => ⟨rd, prs1, 0, false, false⟩
  | .padd prd prs1 prs2 => ⟨prd, prs1, prs2, false, false⟩
  | .pdbl prd prs1 => ⟨prd, prs1, 0, false, false⟩
  | .pmul prd prs1 rs2 => ⟨prd, prs1, rs2, false, false⟩
  | .decomp prd => ⟨prd, 0, 0, false, false⟩
  | .compress prs1 => ⟨0, prs1, 0, false, false⟩
  | .derint rs1 => ⟨0, rs1, 0, false, false⟩
  | .dersig rs1 rs2 => ⟨0, rs1, rs2, false, false⟩
  | .verify rd => ⟨rd, 0, 0, false, false⟩
  | .verifyabi rd => ⟨rd, 0, 0, false, false⟩

/-- The word with an opcode and fields, RES = 0: the layout of R91. -/
def packWord (op : Nat) (fs : Fields) : Word :=
  BitVec.ofNat 32 (op + fs.rd.val * 2 ^ 8 + fs.rs1.val * 2 ^ 11 + fs.rs2.val * 2 ^ 14 + fs.m.toNat * 2 ^ 17
    + fs.v.toNat * 2 ^ 18)

/-- The command word of a command (`enc` of R106). Every command is one word (R90). -/
def encode (i : Instr) : Word := packWord i.opcode.value i.fields

/-! ## The opcode table -/

/-- A row of the opcode table: the word's bits under `mask` are `value` (R100, opcode_table.json). -/
structure TableRow where
  mask : Nat
  value : Nat
  deriving DecidableEq, Repr

/-- The rows of opcode_table.json, its masks and matches as they stand there. The ban on a pair field of 7 "cannot be
written as a mask" (R100). -/
def Opcode.row : Opcode → TableRow
  | .madd => ⟨0xFFFC_00FF, 0x0000_0001⟩
  | .msub => ⟨0xFFFC_00FF, 0x0000_0002⟩
  | .mmul => ⟨0xFFFC_00FF, 0x0000_0003⟩
  | .montmul => ⟨0xFFFC_00FF, 0x0000_0004⟩
  | .minv => ⟨0xFFF9_C0FF, 0x0000_0005⟩
  | .mred => ⟨0xFFFD_C0FF, 0x0000_0006⟩
  | .ldc => ⟨0xFFFF_C0FF, 0x0000_0007⟩
  | .pvalid => ⟨0xFFFF_C0FF, 0x0000_0010⟩
  | .padd => ⟨0xFFFE_00FF, 0x0000_0011⟩
  | .pdbl => ⟨0xFFFF_C0FF, 0x0000_0012⟩
  | .pmul => ⟨0xFFFE_00FF, 0x0000_0013⟩
  | .decomp => ⟨0xFFFF_F8FF, 0x0000_0014⟩
  | .compress => ⟨0xFFFF_C7FF, 0x0000_0015⟩
  | .derint => ⟨0xFFFF_C7FF, 0x0000_0020⟩
  | .dersig => ⟨0xFFFE_07FF, 0x0000_0021⟩
  | .verify => ⟨0xFFFF_F8FF, 0x0000_0030⟩
  | .verifyabi => ⟨0xFFFF_F8FF, 0x0000_0031⟩

/-- A word has the bits of a row. -/
def TableRow.fits (r : TableRow) (w : Word) : Bool := w.toNat &&& r.mask == r.value

/-! ## The host's view of the decoder -/

/-- The bus word of an instruction numbered as the opcode table numbers it: one 32-bit word, bit 0 the least
significant (R90, R91); bits at `nbits` and above are 0. -/
def tableWord (nbits w : Nat) : Word := BitVec.ofNat 32 (w % 2 ^ nbits)

/-- The command the decoder reads from a word of the opcode table, none where it rejects the word. -/
def decodeTableWord (nbits w : Nat) : Option Instr :=
  match decode (tableWord nbits w) with
  | .command i => some i
  | .illegal _ => none

end Sys2Proof
end

