-- ==== Sys2Proof/Machine/State.lean ====
section
/-! DEFINITION. The state of P256V: every piece of state of 10_state.md section 6, the reset input and the bus outputs
of 20_memory.md rule R61, and the environment's coming events (the model's own field). -/

namespace Sys2Proof.Machine

/-- The error codes that STATUS.ERR can hold (R290). Codes 6 and 8 to 15 are "reserved, never produced"; code 7 is
`Fault.errInternal`, never a result (R296). -/
inductive ErrCode where
  /-- Code 0, no error (R301). -/
  | ok
  /-- Code 1, the word encodes no command (R291). -/
  | illegal
  /-- Code 2, an operand is not below the modulus (R292). -/
  | range
  /-- Code 3, the inverse of 0 (R293). -/
  | invZero
  /-- Code 4, a point operand is neither O nor on the curve (R294). -/
  | point
  /-- Code 5, an invalid compressed public key (R295). -/
  | pubkey
  deriving DecidableEq, Repr

/-- What happens next to the block from outside, and where a completion falls among it (R350). -/
inductive HostEvent where
  /-- A host read transfer of the word at an offset: `MemRead(off, 4)` (R63). -/
  | read (off : Offset)
  /-- A host write transfer of a word: `MemWrite(off, 4, v)` (R63). -/
  | write (off : Offset) (v : Word)
  /-- The command in flight completes here (R74, R350). With none in flight nothing happens. -/
  | complete
  /-- The input rst_n goes low (R330). -/
  | rstLow
  /-- The input rst_n goes high (R333). -/
  | rstHigh
  deriving DecidableEq, Repr

/-- The bytes of the window that are memory: IN_BUF and OUT_BUF, keyed by window offset (R66, R68), addresses rising,
no byte 0x00 listed: an unlisted byte reads 0x00, the reset content (R22, R24). -/
abbrev Memory := List Host.Cell

/-- The state of the block. -/
@[ext]
structure State where
  /-- R0 to R7 (R20). -/
  regs : Vector Word256 8
  /-- IN_BUF and OUT_BUF (R22, R24). -/
  mem : Memory
  /-- IN_LEN (R23). -/
  inLen : BitVec 8
  /-- OUT_LEN (R25). -/
  outLen : BitVec 8
  /-- CTRL.IE (R28). -/
  ie : Bool
  /-- STATUS.BUSY (R30). -/
  busy : Bool
  /-- STATUS.DONE (R31). -/
  done : Bool
  /-- STATUS.RESULT (R32). -/
  result : Bool
  /-- STATUS.WERR (R33). -/
  werr : Bool
  /-- STATUS.ERR (R34). -/
  err : ErrCode
  /-- CMD, the last accepted word; while BUSY = 1 the command in flight (R35, R36). -/
  cmd : Word
  /-- The level of the input rst_n (R61, R330). -/
  rstN : Bool
  /-- prdata as the last completed read transfer left it (R61, R64). -/
  prdata : Word
  /-- pslverr as the last transfer left it (R61, R64). -/
  pslverr : Bool
  /-- The model's own field: what happens next, oldest first (R73, R350). -/
  inputs : List HostEvent
  deriving DecidableEq, Repr

/-- The reasons the block could stop. -/
inductive Fault where
  /-- ERR_INTERNAL, code 7: "A model that must represent a faulty block treats code 7 as a fault, never as a result"
  (R296). Nobody raises it: this model is of a correct block, which never produces it (R264, R296). Safe. -/
  | errInternal
  deriving DecidableEq, Repr

/-- The reasons the model could refuse a step. -/
inductive Refusal where
  /-- A command with no meaning yet, by its mnemonic: raised only by a refused arm of exec, and there is none. Safe. -/
  | notModelled (mnemonic : String)
  deriving DecidableEq, Repr

/-- The block right after a reset, rst_n released: "R0 to R7 = 0; every IN_BUF and OUT_BUF byte = 0x00; IN_LEN =
OUT_LEN = 0; CTRL = 0; STATUS = 0; CMD = 0; no command in flight" (R330, R333). DESIGN CHOICE (assumptions 1, 4 and 5):
rst_n high, the bus outputs 0, no coming events. -/
def State.reset : State where
  regs := Vector.replicate 8 0
  mem := []
  inLen := 0
  outLen := 0
  ie := false
  busy := false
  done := false
  result := false
  werr := false
  err := .ok
  cmd := 0
  rstN := true
  prdata := 0
  pslverr := false
  inputs := []

end Sys2Proof.Machine
end

