-- ==== Sys2Proof/Machine/Flags.lean ====
section
/-! DEFINITION. STATUS, CTRL and the interrupt line (10_state.md rules R28 to R34, 60_exceptions.md rules R290, R310):
the words the host reads, and every computation of a STATUS bit. -/

namespace Sys2Proof.Machine

/-- The code of an error (R290). -/
def ErrCode.code : ErrCode → Nat
  | .ok => 0
  | .illegal => 1
  | .range => 2
  | .invZero => 3
  | .point => 4
  | .pubkey => 5

/-- The word a read of STATUS returns: BUSY[0], DONE[1], RESULT[2], WERR[3], ERR[11:8], the rest 0 (R29). -/
def State.statusWord (s : State) : Word :=
  BitVec.ofNat 32 (s.busy.toNat + s.done.toNat * 2 + s.result.toNat * 4 + s.werr.toNat * 8 + s.err.code * 256)

/-- The word a read of CTRL returns: IE[0], SRST reads 0, the rest 0 (R28). -/
def State.ctrlWord (s : State) : Word := BitVec.ofNat 32 s.ie.toNat

/-- `irq = CTRL.IE AND STATUS.DONE` (R310). -/
def State.irq (s : State) : Bool := s.ie && s.done

/-- STATUS and CMD at the acceptance of a word: `CMD <- w; BUSY <- 1; DONE <- 0; ERR <- 0; RESULT <- 0` (R35). -/
def State.accept (s : State) (w : Word) : State :=
  { s with cmd := w, busy := true, done := false, err := .ok, result := false }

/-- STATUS at the completion of a command: `BUSY <- 0; DONE <- 1; ERR <- code; RESULT <- res` (R300, R301). -/
def State.finish (s : State) (code : ErrCode) (res : Bool) : State :=
  { s with busy := false, done := true, err := code, result := res }

/-- A host write to STATUS: "clears DONE if bit 1 of the written word is 1, and clears WERR if bit 3 is 1" (R29). -/
def State.clearStatus (s : State) (w : Word) : State :=
  { s with done := s.done && !w.getLsbD 1, werr := s.werr && !w.getLsbD 3 }

/-- A host write dropped under BUSY sets WERR (R33). -/
def State.dropWrite (s : State) : State := { s with werr := true }

/-- A host write to CTRL with SRST = 0 sets IE (R28). -/
def State.setIe (s : State) (on : Bool) : State := { s with ie := on }

end Sys2Proof.Machine
end

