-- ==== Sys2Proof/Machine/ModArith.lean ====
section
/-! DEFINITION. The modular-arithmetic unit (40_modular.md): exact arithmetic on natural numbers and integers, then
reduction. `m` is the modulus. -/

namespace Sys2Proof.Machine

/-- The modulus of a command: `m = p` when M = 0 and `m = n` when M = 1 (R95). -/
def modulus : Modulus → Nat
  | .p => Config.p
  | .n => Config.n

/-- The constant store `CONST[K]` (R27). -/
def constStore : ConstName → Nat
  | .p => Config.p
  | .n => Config.n
  | .a => Config.a
  | .b => Config.b
  | .gx => Config.gx
  | .gy => Config.gy
  | .r2p => Config.r2p
  | .r2n => Config.r2n

/-- `(x + y) mod m` (R122). -/
def addMod (m x y : Nat) : Nat := (x + y) % m

/-- `(x - y) mod m`, the least non-negative residue of the exact difference (R123, 00_scope.md section 5). -/
def subMod (m x y : Nat) : Nat := (((x : Int) - y) % m).toNat

/-- `(x * y) mod m`, the exact product reduced (R124). -/
def mulMod (m x y : Nat) : Nat := x * y % m

/-- `x ^ e mod m` over the `bits` low bits of e, square-and-multiply from the top bit down (R142). -/
def powModBits (m x : Nat) : Nat → Nat → Nat
  | 0, _ => 1 % m
  | bits + 1, e =>
    let half := powModBits m x bits (e / 2)
    if e % 2 = 1 then mulMod m (mulMod m half half) x else mulMod m half half

/-- `x ^ e mod m` for an exponent of 256 bits (R142, R220). -/
def powMod (m x e : Nat) : Nat := powModBits m x 256 e

/-- Method V = 0: `x ^ (m - 2) mod m` (R142). -/
def invFermat (m x : Nat) : Nat := powMod m x (m - 2)

/-- The extended Euclidean algorithm: `a` and `b` are successive remainders, `t` and `u` their coefficients of x. It ends
with the coefficient of the greatest common divisor (R143). -/
def euclidLoop : Nat → Nat → Nat → Int → Int → Int
  | 0, _, _, t, _ => t
  | fuel + 1, a, b, t, u => if b = 0 then t else euclidLoop fuel b (a % b) u (t - (a / b : Nat) * u)

/-- Steps enough for 256-bit operands: two steps at least halve the smaller remainder. -/
def euclidFuel : Nat := 512

/-- Method V = 1: "the Bézout coefficient of x, reduced into [1, m)" (R143). -/
def invEuclid (m x : Nat) : Nat := (euclidLoop euclidFuel m x 0 1 % m).toNat

/-- The method of the V bit (R96). Both compute `inv_m(x)` (R141). -/
def invBy (v : InvMethod) (m x : Nat) : Nat :=
  match v with
  | .fermat => invFermat m x
  | .euclid => invEuclid m x

/-- `inv_m(x)` wherever a rule takes an inverse and names no method (00_scope.md section 5, R130, R203, R250). The
method is not architectural (R141, R143). -/
def invMod (m x : Nat) : Nat := invEuclid m x

/-- `MontMul_m(x, y) = x * y * inv_m(2^256 mod m) mod m` (R130). -/
def montMul (m x y : Nat) : Nat := x * y * invMod m (Config.radix % m) % m

/-- The value `mp` with `m * mp ≡ -1 (mod 2^256)` of R130's reference procedure, for odd m. -/
def montNegInv (m : Nat) : Nat := Config.radix - invMod Config.radix (m % Config.radix)

/-- R130's reference procedure: `T = x*y; q = (T * mp) mod 2^256; t = (T + q*m) / 2^256; if t >= m: t = t - m`. -/
def montMulReference (m x y : Nat) : Nat :=
  let T := x * y
  let q := T * montNegInv m % Config.radix
  let t := (T + q * m) / Config.radix
  if m ≤ t then t - m else t

end Sys2Proof.Machine
end

