-- ==== Sys2Proof/Machine/Curve.lean ====
section
/-! DEFINITION. CurvePoint and the verification predicate as functions on numbers (42_point.md, 43_verify.md): the
curve test, the group law, scalar multiplication, decompression, Verify. No state is read here. -/

namespace Sys2Proof.Machine

open Sys2Proof.Config (p n a b gx gy)

/-- A point of E: the point at infinity O, or affine coordinates (R8, R200). -/
inductive CurvePoint where
  | infinity
  | affine (x y : Nat)
  deriving DecidableEq, Repr

/-- The base point G (R6). -/
def basePoint : CurvePoint := .affine gx gy

/-- The point a register pair holds: (0, 0) is O (R200). -/
def pointOfPair (xy : Nat × Nat) : CurvePoint := if xy = (0, 0) then .infinity else .affine xy.1 xy.2

/-- The pair that holds a point: "The point at infinity O is held as (0, 0)" (R200). -/
def pairOfPoint : CurvePoint → Nat × Nat
  | .infinity => (0, 0)
  | .affine x y => (x, y)

/-- The right side of the curve equation, `(x^3 + a*x + b) mod p` (R8). -/
def curveRhs (x : Nat) : Nat := (x * x * x + a * x + b) % p

/-- `IsOnCurve(x, y)` (R201): both coordinates below p, and the two sides of the equation congruent. -/
def isOnCurve (x y : Nat) : Bool := decide (x < p) && decide (y < p) && y * y % p == curveRhs x

/-- `ValidPt(x, y)` (R202). -/
def validPt (xy : Nat × Nat) : Bool := xy == (0, 0) || isOnCurve xy.1 xy.2

/-- The third point of the chord or tangent of slope `lam`: the last three lines of R203. -/
def chordPoint (lam x1 y1 x2 : Nat) : CurvePoint :=
  let x3 := subMod p (subMod p (lam * lam) x1) x2
  .affine x3 (subMod p (lam * subMod p x1 x3) y1)

/-- The slope of the tangent at (x1, y1): `(3*x1*x1 + a) * inv_p(2*y1 mod p) mod p` (R203). -/
def tangentSlope (x1 y1 : Nat) : Nat := mulMod p (3 * x1 * x1 + a) (invMod p (2 * y1 % p))

/-- The slope of the chord: `(y2 - y1) * inv_p((x2 - x1) mod p) mod p` (R203). -/
def chordSlope (x1 y1 x2 y2 : Nat) : Nat := mulMod p (subMod p y2 y1) (invMod p (subMod p x2 x1))

/-- The group law `Add(P, Q)` (R203). -/
def addPoint : CurvePoint → CurvePoint → CurvePoint
  | .infinity, q => q
  | .affine x1 y1, .infinity => .affine x1 y1
  | .affine x1 y1, .affine x2 y2 =>
    if x1 = x2 ∧ (y1 + y2) % p = 0 then .infinity
    else if x1 = x2 then chordPoint (tangentSlope x1 y1) x1 y1 x2
    else chordPoint (chordSlope x1 y1 x2 y2) x1 y1 x2

/-- `Dbl(P) = Add(P, P)` (R203). -/
def dblPoint (q : CurvePoint) : CurvePoint := addPoint q q

/-- `Neg(P)` (R203). -/
def negPoint : CurvePoint → CurvePoint
  | .infinity => .infinity
  | .affine x y => .affine x ((p - y) % p)

/-- `Mul(k, P)` as R204 defines it: `Mul(0, P) = O`, `Mul(k + 1, P) = Add(Mul(k, P), P)`. This is the rule's own
recursion, k additions; the machine runs `mulPoint`. -/
def mulByAdding : Nat → CurvePoint → CurvePoint
  | 0, _ => .infinity
  | k + 1, q => addPoint (mulByAdding k q) q

/-- Double-and-add over the `bits` low bits of k, from the top bit down. "The method (double-and-add, windows, ladders)
is not architectural" (R204). -/
def mulPointBits (q : CurvePoint) : Nat → Nat → CurvePoint
  | 0, _ => .infinity
  | bits + 1, k =>
    let twice := dblPoint (mulPointBits q bits (k / 2))
    if k % 2 = 1 then addPoint twice q else twice

/-- `Mul(k, P)` for every 256-bit k (R204, R208). -/
def mulPoint (k : Nat) (q : CurvePoint) : CurvePoint := mulPointBits q 256 k

/-- The square root candidate `v ^ ((p+1)/4) mod p` (R220). -/
def sqrtCandidate (v : Nat) : Nat := powMod p v ((p + 1) / 4)

/-- The root of the wanted parity: `y0 if (y0 mod 2) == (pre mod 2) else (p - y0) mod p` (R220). -/
def rootOfParity (pre y0 : Nat) : Nat := if y0 % 2 = pre % 2 then y0 else (p - y0) % p

/-- Decompression of a prefix byte and an x coordinate, its checks in the order of R220; none is ERR_PUBKEY. The parity
check and the last check are kept "because the source requires the checks", though P-256 cannot reach them (C4). -/
def decompress (pre x : Nat) : Option (Nat × Nat) :=
  if pre ≠ 2 ∧ pre ≠ 3 then none
  else if p ≤ x then none
  else if mulMod p (sqrtCandidate (curveRhs x)) (sqrtCandidate (curveRhs x)) ≠ curveRhs x then none
  else if rootOfParity pre (sqrtCandidate (curveRhs x)) % 2 ≠ pre % 2 then none
  else if isOnCurve x (rootOfParity pre (sqrtCandidate (curveRhs x))) = false then none
  else some (x, rootOfParity pre (sqrtCandidate (curveRhs x)))

/-- Step 4 of R250: `Rp = Add(Mul(u1, G), Mul(u2, Q))` for w = inv_n(s). -/
def verifyPoint (H r s Qx Qy : Nat) : CurvePoint :=
  let w := invMod n s
  addPoint (mulPoint (mulMod n (H % n) w) basePoint) (mulPoint (mulMod n r w) (.affine Qx Qy))

/-- `Verify(H, r, s, Qx, Qy)` (R250): the preconditions, then the six steps. -/
def verifySig (H r s Qx Qy : Nat) : Bool :=
  if ¬(1 ≤ r ∧ r ≤ n - 1) then false
  else if ¬(1 ≤ s ∧ s ≤ n - 1) then false
  else if isOnCurve Qx Qy = false then false
  else
    match verifyPoint H r s Qx Qy with
    | .infinity => false
    | .affine x _ => x % n == r

end Sys2Proof.Machine
end

