-- ==== Sys2Proof/Machine/DerCodec.lean ====
section
/-! DEFINITION. BigIntCodec (41_der.md section 1) and the big-endian byte strings of 00_scope.md section 5, as functions
on numbers and byte lists. -/

namespace Sys2Proof.Machine

/-- `BE(bytes)`: the number a byte string spells, first byte most significant (00_scope.md section 5, R69). -/
def beValue (bytes : List Byte) : Nat := bytes.foldl (fun acc b => acc * 256 + b.toNat) 0

/-- The `len`-byte big-endian string of v, high bytes dropped when v is too large. -/
def beFixed : Nat → Nat → List Byte
  | 0, _ => []
  | len + 1, v => beFixed len (v / 256) ++ [BitVec.ofNat 8 v]

/-- `BE32(v)`: the 32-byte big-endian string of v < 2^256 (00_scope.md section 5). -/
def be32 (v : Nat) : List Byte := beFixed 32 v

/-- The shortest big-endian string, with as many division steps as `fuel` allows. -/
def beMinFuel : Nat → Nat → List Byte
  | 0, v => [BitVec.ofNat 8 v]
  | fuel + 1, v => if v < 256 then [BitVec.ofNat 8 v] else beMinFuel fuel (v / 256) ++ [BitVec.ofNat 8 v]

/-- `BEmin(v)`: "the shortest big-endian string of v with at least one byte" (00_scope.md section 5). v steps are always
enough. -/
def beMin (v : Nat) : List Byte := beMinFuel v v

/-- `DerLen(L)`: short form up to 127, else the long form of X.690, for every L (R170, C6). -/
def derLen (L : Nat) : List Byte :=
  if L ≤ 127 then [BitVec.ofNat 8 L]
  else (0x80#8 ||| BitVec.ofNat 8 (beMin L).length) :: beMin L

/-- `DerContent(v)`: the shortest string, with one sign-guard byte when its top bit is set (R171). -/
def derContent (v : Nat) : List Byte :=
  match beMin v with
  | [] => []
  | c :: cs => if c.toNat < 0x80 then c :: cs else 0x00#8 :: c :: cs

/-- `DerInt(v) = [0x02] || DerLen(len) || DerContent(v)` (R172). -/
def derInt (v : Nat) : List Byte := 0x02#8 :: (derLen (derContent v).length ++ derContent v)

/-- The content of a signature: `B = DerInt(r) || DerInt(s)` (R173). -/
def derSigBody (r s : Nat) : List Byte := derInt r ++ derInt s

/-- `DerSig(r, s) = [0x30] || DerLen(len(B)) || B` (R173). -/
def derSig (r s : Nat) : List Byte := 0x30#8 :: (derLen (derSigBody r s).length ++ derSigBody r s)

end Sys2Proof.Machine
end

