-- ==== Sys2Proof/Machine/Memory.lean ====
section
/-! DEFINITION. The operations on the byte memory: one byte read and written, a run of bytes read and written, and
the canonical form. Wider accesses are built from the byte operations alone. -/

namespace Sys2Proof.Machine

/-- The byte an unlisted address holds: the reset content 0x00 (R22, R24, R330). -/
def unlistedByte : Byte := 0

/-- The byte at an address. -/
def readByte : Memory → Nat → Byte
  | [], _ => unlistedByte
  | (a, b) :: m, addr => if a = addr then b else readByte m addr

/-- A cell in front of a memory, left out when its byte is what an unlisted address reads as. -/
def consCell (addr : Nat) (v : Byte) (m : Memory) : Memory :=
  if v = unlistedByte then m else (addr, v) :: m

/-- The memory with one byte written, in canonical form again. -/
def writeByte : Memory → Nat → Byte → Memory
  | [], addr, v => consCell addr v []
  | (a, b) :: m, addr, v =>
    if addr < a then consCell addr v ((a, b) :: m)
    else if addr = a then consCell addr v m
    else (a, b) :: writeByte m addr v

/-- The bytes at `addr`, `addr + 1`, ... (`Buf[j..k]` of 00_scope.md section 5). -/
def readBytes (m : Memory) (addr : Nat) : Nat → List Byte
  | 0 => []
  | len + 1 => readByte m addr :: readBytes m (addr + 1) len

/-- The memory with a byte string written at `addr`, `addr + 1`, ... -/
def writeBytes (m : Memory) (addr : Nat) : List Byte → Memory
  | [] => m
  | v :: vs => writeBytes (writeByte m addr v) (addr + 1) vs

/-- Addresses strictly rise from a lower bound on, and no cell lists the byte an unlisted address reads as. -/
def canonicalFrom : Nat → Memory → Bool
  | _, [] => true
  | low, (a, b) :: m => decide (low ≤ a) && b != unlistedByte && canonicalFrom (a + 1) m

/-- The canonical form of a memory: equal memories are equal lists. -/
def Memory.wf (m : Memory) : Bool := canonicalFrom 0 m

/-- An address of IN_BUF (R66). -/
def inInBuf (addr : Nat) : Bool := decide (Config.inBase ≤ addr) && decide (addr < Config.inBase + Config.inSize)

/-- An address of OUT_BUF (R66). -/
def inOutBuf (addr : Nat) : Bool := decide (Config.outBase ≤ addr) && decide (addr < Config.outBase + Config.outSize)

/-- Every listed cell lies in one of the two buffers (R66): no other offset of the window is memory. -/
def Memory.inBuffers (m : Memory) : Bool := m.all fun c => inInBuf c.1 || inOutBuf c.1

end Sys2Proof.Machine
end

