-- ==== Sys2Proof/Machine/Operands.lean ====
section
/-! DEFINITION. The operand forms of a command (30_encoding.md R93 to R97): a register, a pair, the modulus (`modulus`),
the method (`invBy`), a constant (`constStore`), and the implicit operands in IN_BUF. Operands are numbers. -/

namespace Sys2Proof.Machine

/-- `R[i]` as its 256 bits. -/
def State.reg (s : State) (i : Reg) : Word256 := s.regs[i]

/-- `R[i]` as an operand: an unsigned number in [0, 2^256) (R20, R93). -/
def State.regVal (s : State) (i : Reg) : Nat := (s.reg i).toNat

/-- The second register of a pair, R[i+1] (R94). For i = 7 there is none: no meaning reads such a pair. -/
def pairSecond (i : Reg) : Reg := i + 1

/-- `PAIR(i) = (R[i], R[i+1])`: x in the named register, y in the next (R94). -/
def State.pairVal (s : State) (i : Reg) : Nat × Nat := (s.regVal i, s.regVal (pairSecond i))

/-- `InBuf[j]` (R22). -/
def State.inByte (s : State) (j : Nat) : Byte := readByte s.mem (Config.inBase + j)

/-- `OutBuf[j]` (R24). -/
def State.outByte (s : State) (j : Nat) : Byte := readByte s.mem (Config.outBase + j)

/-- `BE(InBuf[j..j+31])`: a 32-byte big-endian field of IN_BUF (R69, R261). -/
def State.inField (s : State) (j : Nat) : Nat := beValue (readBytes s.mem (Config.inBase + j) 32)

end Sys2Proof.Machine
end

