-- ==== Sys2Proof/Machine/Ops.lean ====
section
/-! DEFINITION. The shared operations of the commands: writing a result, completing, and raising an error. The block has
no trap (R302): its one form of "taking an exception" is the completion of rule R300, `raise`, and there is no return
from it. -/

namespace Sys2Proof.Machine

/-- What a command answers. -/
abbrev CmdOutcome := Host.Outcome State Fault Refusal

/-- `R[i] <- v` (R20). -/
def State.setReg (s : State) (i : Reg) (v : Word256) : State := { s with regs := s.regs.set i v }

/-- `R[i] <- v` for a number in [0, 2^256). -/
def State.setRegVal (s : State) (i : Reg) (v : Nat) : State := s.setReg i (BitVec.ofNat 256 v)

/-- `PAIR(i) <- (x, y)`: `R[i] <- x; R[i+1] <- y` (R94). -/
def State.setPairVal (s : State) (i : Reg) (xy : Nat × Nat) : State :=
  (s.setRegVal i xy.1).setRegVal (pairSecond i) xy.2

/-- All 128 bytes of OUT_BUF for an output string: the string, then 0x00 (R24, R39). -/
def outImage (bytes : List Byte) : List Byte :=
  (bytes ++ List.replicate (Config.outSize - bytes.length) 0x00#8).take Config.outSize

/-- The output string of a command to OUT_BUF, its length to OUT_LEN (R39). -/
def State.setOut (s : State) (bytes : List Byte) : State :=
  { s with mem := writeBytes s.mem Config.outBase (outImage bytes), outLen := BitVec.ofNat 8 bytes.length }

/-- `complete(res)`: the completion without an error (R301). The results are in `s` already; it is one step (R74). -/
def complete (res : Bool) (s : State) : CmdOutcome := .next (s.finish .ok res)

/-- `raise ERR_<code>`: the completion with an error, which writes no register, no OUT_BUF byte and no OUT_LEN (R300). -/
def raise (code : ErrCode) (s : State) : CmdOutcome := .next (s.finish code false)

/-- The check of the pair operands that decoding makes before any operand is read: a pair of first register 7
completes with ERR_ILLEGAL (R94, R102). The decoder gives no such command; a term of Instr can hold one. -/
def withPairs (pairs : List Reg) (s : State) (run : CmdOutcome) : CmdOutcome :=
  if pairs.all Reg.pairLegal then run else raise .illegal s

/-- Every piece of state of 10_state.md section 6 at its reset value (R330, R334). The reset input, the bus outputs and
the coming events are not of that table. -/
def State.resetBlock (s : State) : State :=
  { State.reset with rstN := s.rstN, prdata := s.prdata, pslverr := s.pslverr, inputs := s.inputs }

end Sys2Proof.Machine
end

