-- ==== Sys2Proof/Machine/Bus.lean ====
section
/-! DEFINITION. The host interface (20_memory.md): the address map, reads and writes of one word, the soft reset. -/

namespace Sys2Proof.Machine

/-- What a word-aligned offset of the window names (R66). -/
inductive BusTarget where
  | id | ctrl | status | cmd | inLen | outLen
  /-- Word `i` of general register R[k] (R67). -/
  | regWord (k : Reg) (i : Fin 8)
  /-- Four bytes of IN_BUF, the first at a window offset (R68). -/
  | inBuf (addr : Nat)
  /-- Four bytes of OUT_BUF, the first at a window offset (R68). -/
  | outBuf (addr : Nat)
  /-- Every register not listed (R66, R71). -/
  | reserved
  deriving DecidableEq, Repr

/-- The address map of R66, by the number of a word-aligned offset. -/
def busTargetAt (a : Nat) : BusTarget :=
  if a = 0x000 then .id
  else if a = 0x004 then .ctrl
  else if a = 0x008 then .status
  else if a = 0x00C then .cmd
  else if a = 0x010 then .inLen
  else if a = 0x014 then .outLen
  else if 0x100 ≤ a ∧ a ≤ 0x1FF then .regWord (Fin.ofNat 8 ((a - 0x100) / 0x20)) (Fin.ofNat 8 ((a - 0x100) / 4))
  else if 0x200 ≤ a ∧ a ≤ 0x29F then .inBuf a
  else if 0x300 ≤ a ∧ a ≤ 0x37F then .outBuf a
  else .reserved

/-- What a word-aligned offset names (R66). -/
def busTarget (off : Offset) : BusTarget := busTargetAt off.toNat

/-- `off[1:0] = 0b00` (R64). -/
def aligned (off : Offset) : Bool := off.toNat % 4 == 0

/-- The platform's address as an offset of the window, none outside it (R62): the block is selected only inside. -/
def offsetOfAddress (addr : Nat) : Option Offset :=
  if Config.base ≤ addr ∧ addr < Config.base + 4096 then some (BitVec.ofNat 12 (addr - Config.base)) else none

/-- Bits `32*i+31` to `32*i` of a register (R67). -/
def wordOfReg (v : Word256) (i : Fin 8) : Word := v.extractLsb' (32 * i.val) 32

/-- A register with those 32 bits set to `w` and "the other 224 bits unchanged" (R67). -/
def setWordOfReg (v : Word256) (i : Fin 8) (w : Word) : Word256 :=
  (v &&& ~~~((0xFFFFFFFF#256) <<< (32 * i.val))) ||| (w.setWidth 256 <<< (32 * i.val))

/-- The word of four buffer bytes, the lowest-numbered in the least significant bits (R68). -/
def wordOfBytes (m : Memory) (addr : Nat) : Word :=
  BitVec.ofNat 32 ((readByte m addr).toNat + (readByte m (addr + 1)).toNat * 2 ^ 8
    + (readByte m (addr + 2)).toNat * 2 ^ 16 + (readByte m (addr + 3)).toNat * 2 ^ 24)

/-- The four bytes of a word: `Buf[4w+j] <- v[8j+7 : 8j]` for j = 0..3 (R68). -/
def bytesOfWord (v : Word) : List Byte :=
  [v.extractLsb' 0 8, v.extractLsb' 8 8, v.extractLsb' 16 8, v.extractLsb' 24 8]

/-- The value a read of an aligned offset returns (R66); while BUSY = 1 the general-register window, OUT_BUF and OUT_LEN
read 0 (R37). -/
def readTarget (s : State) : BusTarget → Word
  | .id => Config.idValue
  | .ctrl => s.ctrlWord
  | .status => s.statusWord
  | .cmd => s.cmd
  | .inLen => s.inLen.setWidth 32
  | .outLen => if s.busy then 0 else s.outLen.setWidth 32
  | .regWord k i => if s.busy then 0 else wordOfReg (s.reg k) i
  | .inBuf addr => wordOfBytes s.mem addr
  | .outBuf addr => if s.busy then 0 else wordOfBytes s.mem addr
  | .reserved => 0

/-- A host write to CTRL: with SRST set a soft reset, "The written value of bit 0 (IE) is ignored" (R334); else IE is
written (R28). -/
def State.writeCtrl (s : State) (v : Word) : State :=
  if v.getLsbD 1 then s.resetBlock else s.setIe (v.getLsbD 0)

/-- What a write of an aligned offset does (R66). While BUSY = 1 a write to CMD, IN_LEN, the general-register window or
IN_BUF is dropped and sets WERR (R33, R37). A write to a read-only or reserved offset is ignored (R71). -/
def writeTarget (s : State) (v : Word) : BusTarget → State
  | .id => s
  | .ctrl => s.writeCtrl v
  | .status => s.clearStatus v
  | .cmd => if s.busy then s.dropWrite else s.accept v
  | .inLen => if s.busy then s.dropWrite else { s with inLen := v.setWidth 8 }
  | .outLen => s
  | .regWord k i => if s.busy then s.dropWrite else s.setReg k (setWordOfReg (s.reg k) i v)
  | .inBuf addr => if s.busy then s.dropWrite else { s with mem := writeBytes s.mem addr (bytesOfWord v) }
  | .outBuf _ => s
  | .reserved => s

/-- What a transfer leaves on pslverr (R64). -/
def State.setSlverr (s : State) (e : Bool) : State := { s with pslverr := e }

/-- A host read transfer: `prdata` takes the value; a misaligned one gives pslverr and 0, and changes nothing (R64,
R72). -/
def State.busRead (s : State) (off : Offset) : State :=
  if aligned off then { s with prdata := readTarget s (busTarget off), pslverr := false }
  else { s with prdata := 0, pslverr := true }

/-- A host write transfer: a misaligned one gives pslverr and "changes no state (sets no STATUS bit either)" (R64).
prdata keeps what the last read left (assumption 5). -/
def State.busWrite (s : State) (off : Offset) (v : Word) : State :=
  if aligned off then (writeTarget s v (busTarget off)).setSlverr false else s.setSlverr true

/-- rst_n goes low: every piece of state takes its reset value and a command in flight is aborted (R330, R332). -/
def State.assertReset (s : State) : State := { s.resetBlock with rstN := false }

/-- rst_n goes high: the block is idle and serves transfers again (R333). -/
def State.releaseReset (s : State) : State := { s with rstN := true }

end Sys2Proof.Machine
end

