-- ==== Sys2Proof/Machine/Der.lean ====
section
/-! DEFINITION. The DER encoder commands (41_der.md section 2). -/

namespace Sys2Proof.Machine

/-- DERINT (R175). -/
def execDerint (rs1 : Reg) (s : State) : CmdOutcome := complete false (s.setOut (derInt (s.regVal rs1)))

/-- DERSIG (R185): r and s are not range-checked. -/
def execDersig (rs1 rs2 : Reg) (s : State) : CmdOutcome :=
  complete false (s.setOut (derSig (s.regVal rs1) (s.regVal rs2)))

end Sys2Proof.Machine
end

