-- ==== Sys2Proof/Machine/Modular.lean ====
section
/-! DEFINITION. The modular arithmetic commands (40_modular.md). -/

namespace Sys2Proof.Machine

/-- The shape of MADD, MSUB, MMUL and MONTMUL: both operands residues, else ERR_RANGE (R120, R292); then
`R[rd] <- f m x y`. The operands are read before the result is written (R121). -/
def binaryModular (f : Nat → Nat → Nat → Nat) (rd rs1 rs2 : Reg) (m : Modulus) (s : State) : CmdOutcome :=
  if modulus m ≤ s.regVal rs1 ∨ modulus m ≤ s.regVal rs2 then raise .range s
  else complete false (s.setRegVal rd (f (modulus m) (s.regVal rs1) (s.regVal rs2)))

/-- MADD (R122). -/
def execMadd (rd rs1 rs2 : Reg) (m : Modulus) (s : State) : CmdOutcome := binaryModular addMod rd rs1 rs2 m s

/-- MSUB (R123). -/
def execMsub (rd rs1 rs2 : Reg) (m : Modulus) (s : State) : CmdOutcome := binaryModular subMod rd rs1 rs2 m s

/-- MMUL (R124). -/
def execMmul (rd rs1 rs2 : Reg) (m : Modulus) (s : State) : CmdOutcome := binaryModular mulMod rd rs1 rs2 m s

/-- MONTMUL (R130). -/
def execMontmul (rd rs1 rs2 : Reg) (m : Modulus) (s : State) : CmdOutcome := binaryModular montMul rd rs1 rs2 m s

/-- MINV (R140): ERR_RANGE first, then ERR_INV_ZERO for both methods (R293, R298). -/
def execMinv (rd rs1 : Reg) (m : Modulus) (v : InvMethod) (s : State) : CmdOutcome :=
  if modulus m ≤ s.regVal rs1 then raise .range s
  else if s.regVal rs1 = 0 then raise .invZero s
  else complete false (s.setRegVal rd (invBy v (modulus m) (s.regVal rs1)))

/-- MRED (R150): any 256-bit operand. -/
def execMred (rd rs1 : Reg) (m : Modulus) (s : State) : CmdOutcome :=
  complete false (s.setRegVal rd (s.regVal rs1 % modulus m))

/-- LDC (R160). -/
def execLdc (rd : Reg) (k : ConstName) (s : State) : CmdOutcome := complete false (s.setRegVal rd (constStore k))

end Sys2Proof.Machine
end

