-- ==== Sys2Proof/Machine/Point.lean ====
section
/-! DEFINITION. The point commands (42_point.md). -/

namespace Sys2Proof.Machine

/-- PVALID (R205): the answer to R[rd] and STATUS.RESULT. -/
def execPvalid (rd prs1 : Reg) (s : State) : CmdOutcome :=
  withPairs [prs1] s (
    complete (isOnCurve (s.pairVal prs1).1 (s.pairVal prs1).2)
      (s.setRegVal rd (isOnCurve (s.pairVal prs1).1 (s.pairVal prs1).2).toNat))

/-- PADD (R206): rs1 then rs2 checked, both ERR_POINT (R298). -/
def execPadd (prd prs1 prs2 : Reg) (s : State) : CmdOutcome :=
  withPairs [prd, prs1, prs2] s (
    if validPt (s.pairVal prs1) = false then raise .point s
    else if validPt (s.pairVal prs2) = false then raise .point s
    else complete false (s.setPairVal prd
      (pairOfPoint (addPoint (pointOfPair (s.pairVal prs1)) (pointOfPair (s.pairVal prs2))))))

/-- PDBL (R207). -/
def execPdbl (prd prs1 : Reg) (s : State) : CmdOutcome :=
  withPairs [prd, prs1] s (
    if validPt (s.pairVal prs1) = false then raise .point s
    else complete false (s.setPairVal prd (pairOfPoint (dblPoint (pointOfPair (s.pairVal prs1))))))

/-- PMUL (R208): any 256-bit k. -/
def execPmul (prd prs1 rs2 : Reg) (s : State) : CmdOutcome :=
  withPairs [prd, prs1] s (
    if validPt (s.pairVal prs1) = false then raise .point s
    else complete false (s.setPairVal prd
      (pairOfPoint (mulPoint (s.regVal rs2) (pointOfPair (s.pairVal prs1))))))

/-- `0x04 || BE32(x) || BE32(y)`, 65 bytes (R221). -/
def uncompressedKey (xy : Nat × Nat) : List Byte := 0x04#8 :: (be32 xy.1 ++ be32 xy.2)

/-- `[0x02 + (y mod 2)] || BE32(x)`, 33 bytes (R222). -/
def compressedKey (xy : Nat × Nat) : List Byte := BitVec.ofNat 8 (0x02 + xy.2 % 2) :: be32 xy.1

/-- DECOMP (R220): IN_LEN = 33, prefix in InBuf[0], x in InBuf[1..32]. -/
def execDecomp (prd : Reg) (s : State) : CmdOutcome :=
  withPairs [prd] s (
    if s.inLen.toNat ≠ 33 then raise .pubkey s
    else
      match decompress (s.inByte 0).toNat (s.inField 1) with
      | none => raise .pubkey s
      | some xy => complete false ((s.setPairVal prd xy).setOut (uncompressedKey xy)))

/-- COMPRESS (R222): no validation, no register written. -/
def execCompress (prs1 : Reg) (s : State) : CmdOutcome :=
  withPairs [prs1] s (complete false (s.setOut (compressedKey (s.pairVal prs1))))

end Sys2Proof.Machine
end

