-- ==== Sys2Proof/Machine/Verify.lean ====
section
/-! DEFINITION. The verification commands (43_verify.md section 2). -/

namespace Sys2Proof.Machine

/-- The result of a verification: `R[rd] <- res; complete(res)` (R255, R260). -/
def completeVerify (rd : Reg) (res : Bool) (s : State) : CmdOutcome := complete res (s.setRegVal rd res.toNat)

/-- The answer of VERIFY: `Verify(R[0], R[1], R[2], R[3], R[4])` (R255). -/
def State.verifyRegs (s : State) : Bool :=
  verifySig (s.regVal 0) (s.regVal 1) (s.regVal 2) (s.regVal 3) (s.regVal 4)

/-- The answer of VERIFYABI: 0 when IN_LEN is not 160 (R262), else Verify of the five big-endian fields hash, r, s, x, y
(R260, R261). -/
def State.verifyBlob (s : State) : Bool :=
  if s.inLen.toNat ≠ 160 then false
  else verifySig (s.inField 0) (s.inField 32) (s.inField 64) (s.inField 96) (s.inField 128)

/-- VERIFY (R255). -/
def execVerify (rd : Reg) (s : State) : CmdOutcome := completeVerify rd s.verifyRegs s

/-- VERIFYABI (R260). -/
def execVerifyabi (rd : Reg) (s : State) : CmdOutcome := completeVerify rd s.verifyBlob s

end Sys2Proof.Machine
end

