-- ==== Sys2Proof/Machine/Dispatch.lean ====
section
/-! DEFINITION. The meaning of every command (30_encoding.md rule R100). -/

namespace Sys2Proof.Machine

def exec (i : Instr) (s : State) : Host.Outcome State Fault Refusal :=
  match i with
  -- modular arithmetic (40_modular.md)
  | .madd rd rs1 rs2 m => Sys2Proof.Machine.execMadd rd rs1 rs2 m s
  | .msub rd rs1 rs2 m => Sys2Proof.Machine.execMsub rd rs1 rs2 m s
  | .mmul rd rs1 rs2 m => Sys2Proof.Machine.execMmul rd rs1 rs2 m s
  | .montmul rd rs1 rs2 m => Sys2Proof.Machine.execMontmul rd rs1 rs2 m s
  | .minv rd rs1 m v => Sys2Proof.Machine.execMinv rd rs1 m v s
  | .mred rd rs1 m => Sys2Proof.Machine.execMred rd rs1 m s
  | .ldc rd k => Sys2Proof.Machine.execLdc rd k s
  -- points (42_point.md)
  | .pvalid rd prs1 => Sys2Proof.Machine.execPvalid rd prs1 s
  | .padd prd prs1 prs2 => Sys2Proof.Machine.execPadd prd prs1 prs2 s
  | .pdbl prd prs1 => Sys2Proof.Machine.execPdbl prd prs1 s
  | .pmul prd prs1 rs2 => Sys2Proof.Machine.execPmul prd prs1 rs2 s
  | .decomp prd => Sys2Proof.Machine.execDecomp prd s
  | .compress prs1 => Sys2Proof.Machine.execCompress prs1 s
  -- DER (41_der.md)
  | .derint rs1 => Sys2Proof.Machine.execDerint rs1 s
  | .dersig rs1 rs2 => Sys2Proof.Machine.execDersig rs1 rs2 s
  -- verification (43_verify.md)
  | .verify rd => Sys2Proof.Machine.execVerify rd s
  | .verifyabi rd => Sys2Proof.Machine.execVerifyabi rd s

end Sys2Proof.Machine
end

