-- ==== Sys2Proof/Machine/Sequencer.lean ====
section
/-! DEFINITION. How the block goes on (10_state.md R35, 20_memory.md R73, R74, 70_reset_and_hazards.md R350): one event
of the environment or one completion, in the order `inputs` gives. Step.lean only calls this file. -/

namespace Sys2Proof.Machine

/-- The completion of the command in flight: the word in CMD is decoded (R102) and the command runs (R35, R74); a word
that encodes no command completes with ERR_ILLEGAL (R101, R291). -/
def completeInFlight (s : State) : CmdOutcome :=
  match decode s.cmd with
  | .command i => exec i s
  | .illegal _ => raise .illegal s

/-- Whether a command is in flight: BUSY = 1 and no reset held (R30, R332). -/
def State.inFlight (s : State) : Bool := s.busy && s.rstN

/-- The place of a completion: it does nothing when no command is in flight (R332). -/
def completionStep (s : State) : CmdOutcome := if s.inFlight then completeInFlight s else .next s

/-- A transfer is served only while rst_n is high: "The block serves no bus transfer while rst_n is low" (R330). -/
def serve (s after : State) : CmdOutcome := .next (if s.rstN then after else s)

/-- One event. -/
def eventStep (e : HostEvent) (s : State) : CmdOutcome :=
  match e with
  | .read off => serve s (s.busRead off)
  | .write off v => serve s (s.busWrite off v)
  | .complete => completionStep s
  | .rstLow => .next s.assertReset
  | .rstHigh => .next s.releaseReset

/-- The state with the coming events replaced: an event taken off the front (R73). -/
def State.setInputs (s : State) (evs : List HostEvent) : State := { s with inputs := evs }

/-- One step: the oldest coming event; when none is left, the command in flight completes (it is never delayed forever,
R351), and an idle block stays as it is (R324). -/
def advance (s : State) : CmdOutcome :=
  match s.inputs with
  | [] => completionStep s
  | e :: rest => eventStep e (s.setInputs rest)

/-- The state in which a word has just been accepted and its completion comes next: the acceptance of R35, with rst_n
high, and the completion as the next event. -/
def State.placeCommand (s : State) (w : Word) : State :=
  { s.accept w with rstN := true, inputs := .complete :: s.inputs }

end Sys2Proof.Machine
end

