-- ==== Sys2Proof/Machine/Step.lean ====
section
/-! DEFINITION. The step of the block, and where a step finds its next command. -/

namespace Sys2Proof.Machine

/-- One step of the block: one transfer, one reset edge or one completion (R73, R74, R350). -/
def step (s : State) : Host.Outcome State Fault Refusal := advance s

/-- `s` with a command word placed so that the very next step runs it: the block fetches nothing (R21), so the word
is accepted as a host write to CMD accepts it (R35) and its completion is the next event (assumption 2). -/
def State.withFetchWord (s : State) (nbits w : Nat) : State := s.placeCommand (tableWord nbits w)

end Sys2Proof.Machine
end

