-- ==== Sys2Proof/Machine/HostProgram.lean ====
section
/-! DEFINITION. Host programs as bus transfers (30_encoding.md R105, R106) and the assembler form of a command (R104).
The block executes neither: the host's own program sequences commands (R21). These functions say which coming events a
host statement stands for. -/

namespace Sys2Proof.Machine

/-- The host statements of R106. -/
inductive HostStatement where
  /-- `WR off, v`. -/
  | wr (off : Offset) (v : Word)
  /-- `RD off -> t`. -/
  | rd (off : Offset)
  /-- `LD256 rk, V`. -/
  | ld256 (k : Reg) (v : Nat)
  /-- `LDBUF j, bytes`; j a multiple of 4. -/
  | ldbuf (j : Nat) (bytes : List Byte)
  /-- `EXEC cmd`: the command word to CMD, then WAIT. -/
  | exec (i : Instr)
  /-- `WAIT`: poll STATUS until BUSY = 0. -/
  | wait
  /-- `CHECK`: read STATUS; the host stops if ERR is not 0. -/
  | check
  /-- `ST256 rk -> V`. -/
  | st256 (k : Reg)
  deriving DecidableEq, Repr

/-- The offset of word `i` of register R[k] (R67). -/
def regOffset (k : Reg) (i : Nat) : Offset := BitVec.ofNat 12 (0x100 + 0x20 * k.val + 4 * i)

/-- Word `i` of a 256-bit value, `V[32i+31:32i]` (R67, R106). -/
def wordOfNat (v i : Nat) : Word := BitVec.ofNat 32 (v / 2 ^ (32 * i))

/-- The writes of `LD256`: "WR 0x100+0x20k+4i, V[32i+31:32i] for i = 0..7" (R106). -/
def ld256Events (k : Reg) (v : Nat) : List HostEvent :=
  [.write (regOffset k 0) (wordOfNat v 0), .write (regOffset k 1) (wordOfNat v 1),
   .write (regOffset k 2) (wordOfNat v 2), .write (regOffset k 3) (wordOfNat v 3),
   .write (regOffset k 4) (wordOfNat v 4), .write (regOffset k 5) (wordOfNat v 5),
   .write (regOffset k 6) (wordOfNat v 6), .write (regOffset k 7) (wordOfNat v 7)]

/-- The reads of `ST256`: "eight RDs that assemble V" (R106). -/
def st256Events (k : Reg) : List HostEvent :=
  [.read (regOffset k 0), .read (regOffset k 1), .read (regOffset k 2), .read (regOffset k 3),
   .read (regOffset k 4), .read (regOffset k 5), .read (regOffset k 6), .read (regOffset k 7)]

/-- The bus word of up to four buffer bytes, missing ones 0: "the last word zero-padded" (R68, R106). -/
def packBytes (b0 b1 b2 b3 : Byte) : Word :=
  BitVec.ofNat 32 (b0.toNat + b1.toNat * 2 ^ 8 + b2.toNat * 2 ^ 16 + b3.toNat * 2 ^ 24)

/-- The writes of `LDBUF` from a window offset on (R106). -/
def ldbufEvents (off : Nat) : List Byte → List HostEvent
  | [] => []
  | [b0] => [.write (BitVec.ofNat 12 off) (packBytes b0 0 0 0)]
  | [b0, b1] => [.write (BitVec.ofNat 12 off) (packBytes b0 b1 0 0)]
  | [b0, b1, b2] => [.write (BitVec.ofNat 12 off) (packBytes b0 b1 b2 0)]
  | b0 :: b1 :: b2 :: b3 :: rest => .write (BitVec.ofNat 12 off) (packBytes b0 b1 b2 b3) :: ldbufEvents (off + 4) rest

/-- The offset of CMD (R66). -/
def cmdOffset : Offset := 0x00C#12

/-- The offset of STATUS (R66). -/
def statusOffset : Offset := 0x008#12

/-- WAIT ends after the completion, with a read of STATUS that shows BUSY = 0 (R106, R340). The polls before it have no
side effect (R72) and are left out. -/
def waitEvents : List HostEvent := [.complete, .read statusOffset]

/-- The coming events of a host statement (R106). -/
def HostStatement.events : HostStatement → List HostEvent
  | .wr off v => [.write off v]
  | .rd off => [.read off]
  | .ld256 k v => ld256Events k v
  | .ldbuf j bytes => ldbufEvents (Config.inBase + j) bytes
  | .exec i => .write cmdOffset (encode i) :: waitEvents
  | .wait => waitEvents
  | .check => [.read statusOffset]
  | .st256 k => st256Events k

/-- The coming events of a host program, statement after statement (R73). -/
def programEvents (prog : List HostStatement) : List HostEvent := prog.flatMap HostStatement.events

/-- The pseudo-instructions of R105. PNEG has no expansion there and none here. -/
inductive Pseudo where
  | msqr (m : Modulus) (rd rs : Reg)
  | mmov (m : Modulus) (rd rs : Reg)
  | mdiv (m : Modulus) (rd rs1 rs2 : Reg)
  | tomont (m : Modulus) (rd rs rt : Reg)
  | frommont (m : Modulus) (rd rs rt : Reg)
  deriving DecidableEq, Repr

/-- The Montgomery conversion constant of a modulus, `R2P/R2N` (R27, R105). -/
def montConst : Modulus → ConstName
  | .p => .r2p
  | .n => .r2n

/-- The expansion of a pseudo-instruction, none where the condition of R105 fails. "A pseudo-instruction of two commands is
not atomic": each command is waited out. -/
def Pseudo.expand : Pseudo → Option (List HostStatement)
  | .msqr m rd rs => some [.exec (.mmul rd rs rs m)]
  | .mmov m rd rs => some [.exec (.mred rd rs m)]
  | .mdiv m rd rs1 rs2 =>
    if rd ≠ rs1 then some [.exec (.minv rd rs2 m .fermat), .exec (.mmul rd rs1 rd m)] else none
  | .tomont m rd rs rt =>
    if rt ≠ rs then some [.exec (.ldc rt (montConst m)), .exec (.montmul rd rs rt m)] else none
  | .frommont m rd rs rt => if rt ≠ rs then some [.ld256 rt 1, .exec (.montmul rd rs rt m)] else none

/-! ## Assembler forms -/

/-- The digit of a register number. -/
def regDigit : Reg → String
  | 0 => "0"
  | 1 => "1"
  | 2 => "2"
  | 3 => "3"
  | 4 => "4"
  | 5 => "5"
  | 6 => "6"
  | 7 => "7"

/-- A register operand, `r0` to `r7` (R104). -/
def asmReg (r : Reg) : String := "r" ++ regDigit r

/-- A pair operand, "written by its first register as p0 to p6" (R104). -/
def asmPair (r : Reg) : String := "p" ++ regDigit r

/-- The suffix `.P` or `.N` (R104). -/
def asmModulus : Modulus → String
  | .p => ".P"
  | .n => ".N"

/-- The suffix `.F` or `.E` (R104). -/
def asmMethod : InvMethod → String
  | .fermat => ".F"
  | .euclid => ".E"

/-- The name of a constant (R104). -/
def asmConst : ConstName → String
  | .p => "P"
  | .n => "N"
  | .a => "A"
  | .b => "B"
  | .gx => "GX"
  | .gy => "GY"
  | .r2p => "R2P"
  | .r2n => "R2N"

/-- A mnemonic with its suffixes, then its operands separated by commas (R104). -/
def asmLine (name : String) (operands : List String) : String := name ++ " " ++ ", ".intercalate operands

/-- The assembler form of a command (R100, R104). -/
def assemblerForm : Instr → String
  | .madd rd rs1 rs2 m => asmLine ("MADD" ++ asmModulus m) [asmReg rd, asmReg rs1, asmReg rs2]
  | .msub rd rs1 rs2 m => asmLine ("MSUB" ++ asmModulus m) [asmReg rd, asmReg rs1, asmReg rs2]
  | .mmul rd rs1 rs2 m => asmLine ("MMUL" ++ asmModulus m) [asmReg rd, asmReg rs1, asmReg rs2]
  | .montmul rd rs1 rs2 m => asmLine ("MONTMUL" ++ asmModulus m) [asmReg rd, asmReg rs1, asmReg rs2]
  | .minv rd rs1 m v => asmLine ("MINV" ++ asmModulus m ++ asmMethod v) [asmReg rd, asmReg rs1]
  | .mred rd rs1 m => asmLine ("MRED" ++ asmModulus m) [asmReg rd, asmReg rs1]
  | .ldc rd k => asmLine "LDC" [asmReg rd, asmConst k]
  | .pvalid rd prs1 => asmLine "PVALID" [asmReg rd, asmPair prs1]
  | .padd prd prs1 prs2 => asmLine "PADD" [asmPair prd, asmPair prs1, asmPair prs2]
  | .pdbl prd prs1 => asmLine "PDBL" [asmPair prd, asmPair prs1]
  | .pmul prd prs1 rs2 => asmLine "PMUL" [asmPair prd, asmPair prs1, asmReg rs2]
  | .decomp prd => asmLine "DECOMP" [asmPair prd]
  | .compress prs1 => asmLine "COMPRESS" [asmPair prs1]
  | .derint rs1 => asmLine "DERINT" [asmReg rs1]
  | .dersig rs1 rs2 => asmLine "DERSIG" [asmReg rs1, asmReg rs2]
  | .verify rd => asmLine "VERIFY" [asmReg rd]
  | .verifyabi rd => asmLine "VERIFYABI" [asmReg rd]

end Sys2Proof.Machine
end

