-- ==== Sys2Proof/Safety.lean ====
section
/-! DEFINITION. The terms in which the claims speak: what a completion changes and keeps, the invariant of the block,
and a safe run. -/

namespace Sys2Proof.Machine

/-- What no completion of a command changes: IN_LEN (R23), CTRL.IE (R28, R38), STATUS.WERR (R33), CMD (R35), the reset
input, the bus outputs and the coming events. -/
structure SameSurroundings (s t : State) : Prop where
  inLen : t.inLen = s.inLen
  ie : t.ie = s.ie
  werr : t.werr = s.werr
  cmd : t.cmd = s.cmd
  rstN : t.rstN = s.rstN
  prdata : t.prdata = s.prdata
  pslverr : t.pslverr = s.pslverr
  inputs : t.inputs = s.inputs

/-- STATUS after a completion without an error, everything around it kept (R301). -/
structure CompletedWith (s t : State) (res : Bool) : Prop where
  busy : t.busy = false
  done : t.done = true
  err : t.err = .ok
  result : t.result = res
  same : SameSurroundings s t

/-- Every general register but those named holds what it held (R20). -/
def RegsKeptBut (s t : State) (written : List Reg) : Prop := ∀ i : Reg, i ∉ written → t.reg i = s.reg i

/-- Every byte of memory but those of OUT_BUF reads as before: IN_BUF is never written by a command (R22). -/
def MemKeptOutsideOut (s t : State) : Prop :=
  ∀ addr, inOutBuf addr = false → readByte t.mem addr = readByte s.mem addr

/-- OUT_LEN and every byte of memory are as before: "A command that does not write OUT_BUF leaves OUT_BUF and OUT_LEN
unchanged" (R39). -/
def OutKept (s t : State) : Prop := t.outLen = s.outLen ∧ ∀ addr, readByte t.mem addr = readByte s.mem addr

/-- OUT_BUF holds an output string and then 0x00 up to its end, OUT_LEN its length, and no other byte of memory
changed (R39). -/
def OutWritten (s t : State) (bytes : List Byte) : Prop :=
  t.outLen.toNat = bytes.length ∧ (∀ j, j < Config.outSize → t.outByte j = bytes.getD j 0) ∧ MemKeptOutsideOut s t

/-- A register-only result: the command completes, R[rd] takes `v`, and nothing else changes but STATUS (R301). -/
def RegResult (s t : State) (rd : Reg) (v : Nat) (res : Bool) : Prop :=
  CompletedWith s t res ∧ t.regVal rd = v ∧ RegsKeptBut s t [rd] ∧ OutKept s t

/-- A pair result: the command completes, PAIR(rd) takes the point `q`, and nothing else changes but STATUS (R301). -/
def PairResult (s t : State) (prd : Reg) (q : Nat × Nat) : Prop :=
  CompletedWith s t false ∧ t.pairVal prd = q ∧ RegsKeptBut s t [prd, pairSecond prd] ∧ OutKept s t

/-- An output result: the command completes, OUT_BUF and OUT_LEN take the string, no register changes (R39, R301). -/
def OutResult (s t : State) (bytes : List Byte) : Prop :=
  CompletedWith s t false ∧ OutWritten s t bytes ∧ RegsKeptBut s t []

/-- The registers a command may write (R20, R100). -/
def destinations : Instr → List Reg
  | .madd rd _ _ _ => [rd]
  | .msub rd _ _ _ => [rd]
  | .mmul rd _ _ _ => [rd]
  | .montmul rd _ _ _ => [rd]
  | .minv rd _ _ _ => [rd]
  | .mred rd _ _ => [rd]
  | .ldc rd _ => [rd]
  | .pvalid rd _ => [rd]
  | .padd prd _ _ => [prd, pairSecond prd]
  | .pdbl prd _ => [prd, pairSecond prd]
  | .pmul prd _ _ => [prd, pairSecond prd]
  | .decomp prd => [prd, pairSecond prd]
  | .compress _ => []
  | .derint _ => []
  | .dersig _ _ => []
  | .verify rd => [rd]
  | .verifyabi rd => [rd]

/-- The commands that write OUT_BUF: "DERINT, DERSIG, COMPRESS and DECOMP" (R24). -/
def writesOut : Instr → Bool
  | .decomp _ => true
  | .compress _ => true
  | .derint _ => true
  | .dersig _ _ => true
  | _ => false

/-- The commands with a Boolean result: "PVALID, VERIFY and VERIFYABI" (R32). -/
def hasBooleanResult : Instr → Bool
  | .pvalid _ _ => true
  | .verify _ => true
  | .verifyabi _ => true
  | _ => false

/-- The invariant of the block. -/
structure State.Inv (s : State) : Prop where
  /-- The memory is in canonical form. -/
  memWf : s.mem.wf = true
  /-- Only bytes of IN_BUF and OUT_BUF are memory (R66). -/
  memInBuffers : s.mem.inBuffers = true
  /-- "While BUSY = 1, DONE = 0" (R31); ERR and RESULT are 0 from the acceptance on (R32, R34). -/
  busyCleared : s.busy = true → s.done = false ∧ s.result = false ∧ s.err = .ok
  /-- RESULT is 0 after any error (R32). -/
  resultOk : s.result = true → s.err = .ok
  /-- OUT_LEN is 0 or the length of an output: 3 to 35, 8 to 72, 33 or 65 (R25). -/
  outLenRange : s.outLen.toNat = 0 ∨ (3 ≤ s.outLen.toNat ∧ s.outLen.toNat ≤ 72)
  /-- The bytes of OUT_BUF after the output are 0x00 (R39). -/
  outZeroAfter : ∀ j, s.outLen.toNat ≤ j → j < Config.outSize → s.outByte j = 0
  /-- While rst_n is low every piece of state holds its reset value (R330). -/
  heldInReset : s.rstN = false → s.resetBlock = s

/-! ## What comes next -/

/-- The next event is a write transfer of `v` to `off`, and it is served (R63, R330). -/
def State.WritesNext (s : State) (off : Offset) (v : Word) : Prop :=
  s.rstN = true ∧ ∃ rest, s.inputs = .write off v :: rest

/-- The next event is a write to CMD while the block is idle: an acceptance (R35). -/
def State.AcceptsNext (s : State) : Prop := s.busy = false ∧ ∃ w, s.WritesNext 0x00C#12 w

/-- The command in flight completes next: at its place among the events, or when no event is left (R350, R351). -/
def State.CompletesNext (s : State) : Prop :=
  s.inFlight = true ∧ (s.inputs = [] ∨ ∃ rest, s.inputs = .complete :: rest)

/-- A reset comes next: rst_n falls (R330), or a write to CTRL with SRST set (R334). -/
def State.ResetsNext (s : State) : Prop :=
  (∃ rest, s.inputs = .rstLow :: rest) ∨ ∃ v, v.getLsbD 1 = true ∧ s.WritesNext 0x004#12 v

/-- The offsets whose writes are dropped while BUSY = 1: "CMD, IN_LEN, the general-register window (0x100 to 0x1FF) or the
IN_BUF window (0x200 to 0x29F)" (R37), word-aligned. -/
def droppedWhileBusy (off : Offset) : Prop :=
  off.toNat % 4 = 0 ∧ (off.toNat = 0x00C ∨ off.toNat = 0x010 ∨ (0x100 ≤ off.toNat ∧ off.toNat ≤ 0x1FF) ∨
    (0x200 ≤ off.toNat ∧ off.toNat ≤ 0x29F))

/-- The offsets that read 0 while BUSY = 1: the general-register window, the OUT_BUF window and OUT_LEN (R37). -/
def hiddenWhileBusy (off : Offset) : Prop :=
  off.toNat % 4 = 0 ∧ (off.toNat = 0x014 ∨ (0x100 ≤ off.toNat ∧ off.toNat ≤ 0x1FF) ∨
    (0x300 ≤ off.toNat ∧ off.toNat ≤ 0x37F))

/-- The reserved offsets of R66: 0x018 to 0x0FF, 0x2A0 to 0x2FF, 0x380 to 0xFFF. -/
def reservedOffset (off : Offset) : Prop :=
  (0x018 ≤ off.toNat ∧ off.toNat ≤ 0x0FF) ∨ (0x2A0 ≤ off.toNat ∧ off.toNat ≤ 0x2FF) ∨ 0x380 ≤ off.toNat

/-- The read-only offsets of R66: ID, OUT_LEN and the OUT_BUF window. -/
def readOnlyOffset (off : Offset) : Prop :=
  off.toNat = 0x000 ∨ off.toNat = 0x014 ∨ (0x300 ≤ off.toNat ∧ off.toNat ≤ 0x37F)

/-- A transfer that resets nothing: any read, any write but one of CTRL with SRST set. -/
def plainTransfer : HostEvent → Bool
  | .read _ => true
  | .write off v => !(off == 0x004#12 && v.getLsbD 1)
  | .complete => false
  | .rstLow => false
  | .rstHigh => false

/-- Every piece of state at the value R330 lists: "R0 to R7 = 0; every IN_BUF and OUT_BUF byte = 0x00; IN_LEN = OUT_LEN =
0; CTRL = 0; STATUS = 0; CMD = 0; no command in flight; irq = 0". -/
structure HoldsResetValues (t : State) : Prop where
  regs : ∀ i : Reg, t.regVal i = 0
  inBuf : ∀ j, j < Config.inSize → t.inByte j = 0x00#8
  outBuf : ∀ j, j < Config.outSize → t.outByte j = 0x00#8
  inLen : t.inLen = 0
  outLen : t.outLen = 0
  ctrl : t.ctrlWord = 0
  status : t.statusWord = 0
  cmd : t.cmd = 0
  idle : t.inFlight = false
  irq : t.irq = false

/-- What the encoding and ERR_ILLEGAL lines of a command's rule say: the bits of its words under the mask are the match; and a
word with the rule's opcode that does not fit the mask, or holds 7 in a pair field, completes with ERR_ILLEGAL and writes
nothing else (R99, R100, R102, R291). -/
structure WordsOf (i : Instr) (mask value : Nat) (pairFields : List (Nat × Nat)) : Prop where
  fits : (encode i).toNat &&& mask = value
  illegal : ∀ (s : State) (w : Word), bitField w 7 0 = value % 256 →
    (w.toNat &&& mask ≠ value ∨ ∃ f ∈ pairFields, bitField w f.1 f.2 = 7) →
    step (s.placeCommand w) =
      .next { s with cmd := w, rstN := true, busy := false, done := true, err := .illegal, result := false }

/-! ## The curve as a mathematical group -/

/-- E over the field of p elements: y^2 = x^3 + a*x + b (R8). -/
def curveOverField : WeierstrassCurve.Affine (ZMod Config.p) :=
  { a₁ := 0, a₂ := 0, a₃ := 0, a₄ := (Config.a : ZMod Config.p), a₆ := (Config.b : ZMod Config.p) }

/-- A point of that group in the model's form, coordinates as residues in [0, p). -/
def pointOfGroup : curveOverField.Point → CurvePoint
  | .zero => .infinity
  | .some x y _ => .affine x.val y.val

/-! ## Runs -/

/-- A run of `k` steps that neither faults nor is refused. -/
def SafeRun (k : Nat) (s : State) : Prop := ∃ t, Host.Core.run Sys2Proof.core k s = .next t

/-- A state some run reaches from reset with some coming events. -/
def Reachable (t : State) : Prop :=
  ∃ (evs : List HostEvent) (k : Nat), Host.Core.run Sys2Proof.core k { State.reset with inputs := evs } = .next t

end Sys2Proof.Machine
end

