-- ==== Sys2Proof/Certificates/Slice0/Obligations.lean ====
section
/-! DEFINITION. The statements for the provers. Each docstring names the rule it formalises. -/

open Sys2Proof Sys2Proof.Machine

/-! ## Encoding (30_encoding.md) -/

/-- The example words of R104 and the legal edge words of 95_test_vectors.md section 8, with one word more of each family,
decode to the commands they stand for. -/
def Obligations.WrittenOutWordsDecode : Prop :=
  decode 0x0003AD03#32 = .command (.mmul 5 5 6 .n) ∧
  decode 0x0000C011#32 = .command (.padd 0 0 3) ∧
  decode 0x00002007#32 = .command (.ldc 0 .gx) ∧
  decode 0x00060805#32 = .command (.minv 0 1 .n .euclid) ∧
  decode 0x0001C013#32 = .command (.pmul 0 0 7) ∧
  decode 0x00003F07#32 = .command (.ldc 7 .r2n) ∧
  decode 0x00008821#32 = .command (.dersig 1 2) ∧
  decode 0x00000214#32 = .command (.decomp 2) ∧
  decode 0x00000530#32 = .command (.verify 5) ∧
  decode 0x00000731#32 = .command (.verifyabi 7)

/-- No bit of an encoding is dropped: every well-formed command comes back from its word (R91, R92, R100). -/
def Obligations.DecodeInvertsEncode : Prop :=
  ∀ i : Instr, i.wf = true → decode (encode i) = .command i

/-- Every word the decoder accepts is the word of the command it gives, and that command is well formed: no two words
stand for one command, and no ignored bit exists (R98, R99). -/
def Obligations.EncodeInvertsDecode : Prop :=
  ∀ (w : Word) (i : Instr), decode w = .command i → i.wf = true ∧ encode i = w

/-- The decoder accepts exactly the words that fit a mask and match of the opcode table and hold no 7 in a pair field
(R100). -/
def Obligations.DecoderAcceptsExactlyTheTable : Prop :=
  ∀ w : Word, (∃ i, decode w = .command i) ↔
    ∃ o : Opcode, o.row.fits w = true ∧ ∀ f, o.usage f = .pr → (fieldsOf w).value f ≠ 7

/-- R102: the checks in their order, each with its own name; a word that passes them all is the command of R100 with its
fields. -/
def Obligations.DecodeChecksInOrder : Prop :=
  ∀ w : Word,
    (bitField w 31 19 ≠ 0 → decode w = .illegal .reservedBits) ∧
    (bitField w 31 19 = 0 → (∀ o : Opcode, o.value ≠ bitField w 7 0) → decode w = .illegal .unknownOpcode) ∧
    (bitField w 31 19 = 0 → ∀ o : Opcode, o.value = bitField w 7 0 →
      (∀ f before after, [Field.rd, .rs1, .rs2, .m, .v] = before ++ f :: after →
        (∀ g ∈ before, ¬(o.usage g = .zero ∧ (fieldsOf w).value g ≠ 0) ∧
          ¬(o.usage g = .pr ∧ (fieldsOf w).value g = 7)) →
        (o.usage f = .zero → (fieldsOf w).value f ≠ 0 → decode w = .illegal (.nonZeroField f)) ∧
        (o.usage f = .pr → (fieldsOf w).value f = 7 → decode w = .illegal (.pairSeven f))) ∧
      ((∀ f, ¬(o.usage f = .zero ∧ (fieldsOf w).value f ≠ 0) ∧ ¬(o.usage f = .pr ∧ (fieldsOf w).value f = 7)) →
        decode w = .command (o.build (fieldsOf w))))

/-- R291, with R98 and R101: an accepted word with a reserved bit set, an opcode outside the table, a non-zero unused
field or a pair field of 7 completes with ERR_ILLEGAL, and nothing else is written. -/
def Obligations.IllegalWordCompletesWithErrIllegal : Prop :=
  ∀ (s : State) (w : Word),
    (bitField w 31 19 ≠ 0 ∨
      (bitField w 7 0 = 0x00 ∨ (0x08 ≤ bitField w 7 0 ∧ bitField w 7 0 ≤ 0x0F) ∨
        (0x16 ≤ bitField w 7 0 ∧ bitField w 7 0 ≤ 0x1F) ∨ (0x22 ≤ bitField w 7 0 ∧ bitField w 7 0 ≤ 0x2F) ∨
        0x32 ≤ bitField w 7 0) ∨
      ∃ (o : Opcode) (f : Field), o.value = bitField w 7 0 ∧
        ((o.usage f = .zero ∧ (fieldsOf w).value f ≠ 0) ∨ (o.usage f = .pr ∧ (fieldsOf w).value f = 7))) →
    step (s.placeCommand w) =
      .next { s with cmd := w, rstN := true, busy := false, done := true, err := .illegal, result := false }

/-- A term of Instr whose pair operand is R7 completes with ERR_ILLEGAL, as R94 says of the word. The decoder gives no such
term: what exec answers for it is the model's choice (log entry 6). -/
def Obligations.IllFormedPairCompletesWithErrIllegal : Prop :=
  ∀ (i : Instr) (s : State), i.wf = false → exec i s = .next (s.finish .illegal false)

/-! ## The step and the resets -/

/-- A step with a command in flight, at its completion, is exec of the command CMD decodes to; and a word placed by
withFetchWord is what the very next step runs, on the state its acceptance leaves (R35). With no command in flight a
completion's place changes nothing, and a block with no coming event stays as it is (R324). -/
def Obligations.StepRunsTheDecodedCommand : Prop :=
  (∀ (s : State) (i : Instr), s.busy = true → s.rstN = true → decode s.cmd = .command i →
    (s.inputs = [] → step s = exec i s) ∧
    (∀ rest, s.inputs = .complete :: rest → step s = exec i { s with inputs := rest })) ∧
  (∀ (s : State) (nbits w : Nat) (i : Instr), decodeTableWord nbits w = some i →
    step (s.withFetchWord nbits w) =
      exec i { s with cmd := tableWord nbits w, rstN := true, busy := true, done := false, err := .ok, result := false }) ∧
  (∀ s : State, s.inFlight = false →
    (s.inputs = [] → step s = .next s) ∧
    (∀ rest, s.inputs = .complete :: rest → step s = .next { s with inputs := rest }))

/-- No input reaches a stop: from every state, with every event, the block goes on (R296, R302), for any number of steps. -/
def Obligations.EveryRunGoesOn : Prop :=
  ∀ (k : Nat) (s : State), ∃ t, Host.Core.run Sys2Proof.core k s = .next t

/-- R331: after reset every register has a defined value, 0. -/
def Obligations.ResetStateHoldsResetValues : Prop := HoldsResetValues State.reset

/-- R330: when rst_n falls every listed piece of state takes its reset value, ID and the constant store keep theirs; while
it is low no transfer is served and every step keeps the reset values. When it rises again nothing else changes (R333): with
the reset values held the block is then idle. -/
def Obligations.ResetInputForcesResetValues : Prop :=
  (∀ (s : State) (rest : List HostEvent), s.inputs = .rstLow :: rest →
    ∃ t, step s = .next t ∧ HoldsResetValues t ∧ t.rstN = false ∧ t.inputs = rest ∧
      readTarget t .id = 0x50323536#32 ∧
      ∀ rd k, ∃ u, exec (.ldc rd k) t = .next u ∧ u.regVal rd = constStore k) ∧
  (∀ (s : State) (e : HostEvent) (rest : List HostEvent), s.rstN = false → s.inputs = e :: rest →
    ((∃ off, e = .read off) ∨ ∃ off v, e = .write off v) → step s = .next { s with inputs := rest }) ∧
  (∀ s t : State, s.rstN = false → HoldsResetValues s → step s = .next t → HoldsResetValues t) ∧
  (∀ (s : State) (rest : List HostEvent), s.inputs = .rstHigh :: rest →
    step s = .next { s with rstN := true, inputs := rest })

/-- A reset aborts the command in flight, and wins over a completion that falls with it (R332). That a reset and a completion of
one clock cycle are this order of events is the model's reading (log entry 11). -/
def Obligations.ResetAbortsTheCommand : Prop :=
  ∀ (s : State) (rest : List HostEvent), s.inputs = .rstLow :: .complete :: rest →
    ∃ t, Host.Core.run Sys2Proof.core 2 s = .next t ∧ HoldsResetValues t ∧ t.done = false ∧ t.irq = false

/-- R334: a write to CTRL with SRST set gives every piece of state its reset value and aborts the command; IE is ignored;
SRST reads 0; and without rst_n nothing else ends a command but its completion. -/
def Obligations.SoftResetForcesResetValues : Prop :=
  (∀ (s : State) (v : Word), v.getLsbD 1 = true → s.WritesNext 0x004#12 v →
    ∃ t, step s = .next t ∧ HoldsResetValues t ∧ t.ie = false ∧ t.werr = false ∧ t.pslverr = false) ∧
  (∀ s : State, s.ctrlWord.getLsbD 1 = false) ∧
  (∀ s t : State, step s = .next t → s.busy = true → t.busy = false → (∀ rest, s.inputs ≠ .rstLow :: rest) →
    s.CompletesNext ∨ ∃ v, v.getLsbD 1 = true ∧ s.WritesNext 0x004#12 v)

/-- The invariant of the block holds after reset. -/
def Obligations.InvariantHoldsAtReset : Prop := State.Inv State.reset

/-- Every step from every state that meets the invariant gives a state that meets it: canonical memory, no byte outside the
buffers, cleared STATUS bits while BUSY, OUT_LEN in range with zeros after the output, reset values held while rst_n is
low. -/
def Obligations.EveryStepKeepsTheInvariant : Prop :=
  ∀ s t : State, s.Inv → step s = .next t → t.Inv

/-! ## STATUS, CMD and the interrupt (10_state.md section 4, 60_exceptions.md section 4) -/

/-- R35: a write to CMD while idle accepts any word; its command runs at the completion, a word that encodes none
completes with ERR_ILLEGAL; while BUSY the write is dropped and sets WERR; CMD reads the last accepted word; reset 0. -/
def Obligations.CmdWriteAcceptsWhileIdle : Prop :=
  (∀ (s : State) (w : Word) (rest : List HostEvent), s.rstN = true → s.inputs = .write 0x00C#12 w :: rest →
    (s.busy = false → step s = .next { s with cmd := w, busy := true, done := false, err := .ok, result := false,
                                              pslverr := false, inputs := rest }) ∧
    (s.busy = true → step s = .next { s with werr := true, pslverr := false, inputs := rest })) ∧
  (∀ s : State, s.CompletesNext → ∀ rest, rest = s.inputs.tail →
    (∀ i, decode s.cmd = .command i → step s = exec i { s with inputs := rest }) ∧
    (∀ why, decode s.cmd = .illegal why →
      step s = .next { s with inputs := rest, busy := false, done := true, err := .illegal, result := false })) ∧
  (∀ s : State, readTarget s (busTarget 0x00C#12) = s.cmd) ∧
  State.reset.cmd = 0

/-- R37: what the host can do and see while BUSY = 1; and while BUSY = 0, what a write of IN_LEN or of CTRL without SRST does
(R23, R28: the low byte, the low bit, nothing else) and what each special register reads (R23, R25, R26, R28, R29, R35),
OUT_LEN and IN_LEN zero-extended, every bit of CTRL but IE 0. -/
def Obligations.BusyAccessRules : Prop :=
  (∀ (s : State) (rest : List HostEvent), s.busy = true → s.rstN = true →
    (∀ off v, droppedWhileBusy off → s.inputs = .write off v :: rest →
      step s = .next { s with werr := true, pslverr := false, inputs := rest }) ∧
    (∀ off, hiddenWhileBusy off → s.inputs = .read off :: rest →
      step s = .next { s with prdata := 0, pslverr := false, inputs := rest }) ∧
    (∀ off, s.inputs = .read off :: rest →
      (off = 0x000#12 → step s = .next { s with prdata := 0x50323536#32, pslverr := false, inputs := rest }) ∧
      (off = 0x004#12 → step s = .next { s with prdata := s.ctrlWord, pslverr := false, inputs := rest }) ∧
      (off = 0x008#12 → step s = .next { s with prdata := s.statusWord, pslverr := false, inputs := rest }) ∧
      (off = 0x00C#12 → step s = .next { s with prdata := s.cmd, pslverr := false, inputs := rest }) ∧
      (off = 0x010#12 → step s = .next { s with prdata := s.inLen.setWidth 32, pslverr := false, inputs := rest }) ∧
      (off.toNat % 4 = 0 → 0x200 ≤ off.toNat → off.toNat ≤ 0x29F →
        step s = .next { s with prdata := wordOfBytes s.mem off.toNat, pslverr := false, inputs := rest })) ∧
    (∀ v, s.inputs = .write 0x004#12 v :: rest → v.getLsbD 1 = false →
      step s = .next { s with ie := v.getLsbD 0, pslverr := false, inputs := rest }) ∧
    (∀ v, s.inputs = .write 0x004#12 v :: rest → v.getLsbD 1 = true →
      step s = .next { s.resetBlock with pslverr := false, inputs := rest }) ∧
    (∀ v, s.inputs = .write 0x008#12 v :: rest →
      step s = .next { s with done := s.done && !v.getLsbD 1, werr := s.werr && !v.getLsbD 3, pslverr := false,
                              inputs := rest })) ∧
  (∀ (s : State) (rest : List HostEvent), s.busy = false → s.rstN = true →
    (∀ v, s.inputs = .write 0x010#12 v :: rest →
      step s = .next { s with inLen := v.setWidth 8, pslverr := false, inputs := rest }) ∧
    (∀ v, s.inputs = .write 0x004#12 v :: rest → v.getLsbD 1 = false →
      step s = .next { s with ie := v.getLsbD 0, pslverr := false, inputs := rest }) ∧
    (∀ off, s.inputs = .read off :: rest →
      (off = 0x000#12 → step s = .next { s with prdata := 0x50323536#32, pslverr := false, inputs := rest }) ∧
      (off = 0x004#12 → step s = .next { s with prdata := s.ctrlWord, pslverr := false, inputs := rest }) ∧
      (off = 0x008#12 → step s = .next { s with prdata := s.statusWord, pslverr := false, inputs := rest }) ∧
      (off = 0x00C#12 → step s = .next { s with prdata := s.cmd, pslverr := false, inputs := rest }) ∧
      (off = 0x010#12 → step s = .next { s with prdata := s.inLen.setWidth 32, pslverr := false, inputs := rest }) ∧
      (off = 0x014#12 → step s = .next { s with prdata := s.outLen.setWidth 32, pslverr := false, inputs := rest }))) ∧
  ∀ (s : State) (b : Nat), s.ctrlWord.getLsbD b = if b = 0 then s.ie else false

/-- R30: BUSY becomes 1 at an acceptance, 0 at a completion or a reset, and no other event changes it. -/
def Obligations.BusyChangesOnlyAtItsEvents : Prop :=
  ∀ s t : State, step s = .next t →
    (s.AcceptsNext → t.busy = true) ∧ (s.CompletesNext → t.busy = false) ∧ (s.ResetsNext → t.busy = false) ∧
    (s.busy = false → t.busy = true → s.AcceptsNext) ∧
    (s.busy = true → t.busy = false → s.CompletesNext ∨ s.ResetsNext)

/-- R31: DONE becomes 1 at a completion, 0 at an acceptance, a write of STATUS with bit 1 set or a reset; and while
BUSY = 1 it is 0 in every state that meets the invariant. -/
def Obligations.DoneChangesOnlyAtItsEvents : Prop :=
  (∀ s t : State, step s = .next t →
    (s.CompletesNext → t.done = true) ∧
    (s.AcceptsNext ∨ (∃ v, v.getLsbD 1 = true ∧ s.WritesNext 0x008#12 v) ∨ s.ResetsNext → t.done = false) ∧
    (s.done = false → t.done = true → s.CompletesNext) ∧
    (s.done = true → t.done = false →
      s.AcceptsNext ∨ (∃ v, v.getLsbD 1 = true ∧ s.WritesNext 0x008#12 v) ∨ s.ResetsNext)) ∧
  (∀ s : State, s.Inv → s.busy = true → s.done = false)

/-- R32: RESULT after a completion is 1 exactly when the command completed without error and its Boolean result was 1;
only PVALID, VERIFY and VERIFYABI have one; RESULT is 0 at an acceptance and at a reset. -/
def Obligations.ResultBitFollowsTheBooleanResult : Prop :=
  (∀ (i : Instr) (s t : State), exec i s = .next t → t.result = true → hasBooleanResult i = true ∧ t.err = .ok) ∧
  (∀ (rd prs1 : Reg) (s t : State), exec (.pvalid rd prs1) s = .next t → t.err = .ok →
    (t.result = true ↔ t.regVal rd = 1)) ∧
  (∀ (rd : Reg) (s t : State), exec (.verify rd) s = .next t → (t.result = true ↔ t.regVal rd = 1)) ∧
  (∀ (rd : Reg) (s t : State), exec (.verifyabi rd) s = .next t → (t.result = true ↔ t.regVal rd = 1)) ∧
  (∀ s t : State, step s = .next t → s.AcceptsNext ∨ s.ResetsNext → t.result = false)

/-- R33: WERR is set by a write dropped under BUSY, cleared only by a write of STATUS with bit 3 set or a reset, and no
command reads or changes it. -/
def Obligations.WerrIsStickyAndCommandsIgnoreIt : Prop :=
  (∀ s t : State, step s = .next t →
    (s.busy = true → ∀ off v, droppedWhileBusy off → s.WritesNext off v → t.werr = true) ∧
    (s.werr = false → t.werr = true → s.busy = true ∧ ∃ off v, droppedWhileBusy off ∧ s.WritesNext off v) ∧
    (s.werr = true → t.werr = false → (∃ v, v.getLsbD 3 = true ∧ s.WritesNext 0x008#12 v) ∨ s.ResetsNext)) ∧
  (∀ (i : Instr) (s t : State) (b : Bool), exec i s = .next t →
    t.werr = s.werr ∧ exec i { s with werr := b } = .next { t with werr := b })

/-- R29: the layout of STATUS, and a host write of it, whether BUSY or idle. -/
def Obligations.StatusWordAndItsWrite : Prop :=
  (∀ (s : State) (b : Nat), s.statusWord.getLsbD b =
    if b = 0 then s.busy else if b = 1 then s.done else if b = 2 then s.result else if b = 3 then s.werr
    else if 8 ≤ b ∧ b ≤ 11 then s.err.code.testBit (b - 8) else false) ∧
  (∀ (s : State) (v : Word) (rest : List HostEvent), s.rstN = true → s.inputs = .write 0x008#12 v :: rest →
    step s = .next { s with done := s.done && !v.getLsbD 1, werr := s.werr && !v.getLsbD 3, pslverr := false,
                            inputs := rest }) ∧
  State.reset.statusWord = 0

/-- R311, with R310: irq is IE AND DONE; it falls only when DONE is cleared by a STATUS write or an acceptance, when IE is
cleared, or at a reset; it rises only at a completion with IE = 1 or when IE is set with DONE = 1. -/
def Obligations.IrqRisesAndFallsAtItsEvents : Prop :=
  (∀ s : State, s.irq = true ↔ s.ie = true ∧ s.done = true) ∧
  (∀ s t : State, step s = .next t →
    (s.irq = true → t.irq = false →
      (∃ v, v.getLsbD 1 = true ∧ s.WritesNext 0x008#12 v) ∨ s.AcceptsNext ∨
      (∃ v, v.getLsbD 0 = false ∧ s.WritesNext 0x004#12 v) ∨ s.ResetsNext) ∧
    (s.irq = false → t.irq = true →
      (s.CompletesNext ∧ s.ie = true) ∨
      (∃ v, v.getLsbD 0 = true ∧ v.getLsbD 1 = false ∧ s.WritesNext 0x004#12 v ∧ s.done = true)) ∧
    (s.CompletesNext → t.irq = s.ie))

/-! ## The host interface (20_memory.md) -/

/-- R64: a misaligned transfer completes with pslverr = 1 and changes no state; a read returns 0. -/
def Obligations.MisalignedTransferChangesNothing : Prop :=
  ∀ (s : State) (off : Offset) (rest : List HostEvent), s.rstN = true → off.toNat % 4 ≠ 0 →
    (s.inputs = .read off :: rest → step s = .next { s with prdata := 0, pslverr := true, inputs := rest }) ∧
    (∀ v, s.inputs = .write off v :: rest → step s = .next { s with pslverr := true, inputs := rest })

/-- R71: reserved offsets read 0 and ignore writes, read-only registers ignore writes, and so do the reserved bits of CTRL
and IN_LEN; no pslverr. -/
def Obligations.ReservedAndReadOnlyAccess : Prop :=
  (∀ (s : State) (off : Offset) (rest : List HostEvent), s.rstN = true → off.toNat % 4 = 0 → reservedOffset off →
    (s.inputs = .read off :: rest → step s = .next { s with prdata := 0, pslverr := false, inputs := rest }) ∧
    (∀ v, s.inputs = .write off v :: rest → step s = .next { s with pslverr := false, inputs := rest })) ∧
  (∀ (s : State) (off : Offset) (v : Word) (rest : List HostEvent), s.rstN = true → off.toNat % 4 = 0 →
    readOnlyOffset off → s.inputs = .write off v :: rest →
    step s = .next { s with pslverr := false, inputs := rest }) ∧
  (∀ (s : State) (v v' : Word), v.getLsbD 0 = v'.getLsbD 0 → v.getLsbD 1 = v'.getLsbD 1 →
    s.busWrite 0x004#12 v = s.busWrite 0x004#12 v') ∧
  (∀ (s : State) (v v' : Word), v.setWidth 8 = v'.setWidth 8 → s.busWrite 0x010#12 v = s.busWrite 0x010#12 v')

/-- R67: word i of R[k] at its offset, little-endian: a read returns those 32 bits, a write sets them and leaves the other
224 bits, the other registers and everything else. -/
def Obligations.RegisterWindowReadsAndWrites : Prop :=
  ∀ (s : State) (k : Reg) (i : Fin 8) (rest : List HostEvent), s.rstN = true → s.busy = false →
    (s.inputs = .read (regOffset k i.val) :: rest →
      ∃ p : Word, step s = .next { s with prdata := p, pslverr := false, inputs := rest } ∧
        ∀ b, b < 32 → p.getLsbD b = (s.reg k).getLsbD (32 * i.val + b)) ∧
    (∀ v, s.inputs = .write (regOffset k i.val) v :: rest →
      ∃ x : Word256, step s = .next { s.setReg k x with pslverr := false, inputs := rest } ∧
        ∀ b, b < 256 → x.getLsbD b =
          if 32 * i.val ≤ b ∧ b < 32 * i.val + 32 then v.getLsbD (b - 32 * i.val) else (s.reg k).getLsbD b)

/-- R68: four bytes a word in both buffers, the lowest-numbered in the least significant bits; a write of an IN_BUF word
sets those four bytes and no other byte, register or bit of STATUS. Premise: the memory's canonical form (kept by every
step, EveryStepKeepsTheInvariant). -/
def Obligations.BufferWordsPackLittleEndian : Prop :=
  ∀ (s : State) (w : Nat) (rest : List HostEvent), s.rstN = true → s.busy = false → s.mem.wf = true →
    (w < 40 → s.inputs = .read (BitVec.ofNat 12 (0x200 + 4 * w)) :: rest →
      ∃ p : Word, step s = .next { s with prdata := p, pslverr := false, inputs := rest } ∧
        ∀ j, j < 4 → p.extractLsb' (8 * j) 8 = s.inByte (4 * w + j)) ∧
    (w < 32 → s.inputs = .read (BitVec.ofNat 12 (0x300 + 4 * w)) :: rest →
      ∃ p : Word, step s = .next { s with prdata := p, pslverr := false, inputs := rest } ∧
        ∀ j, j < 4 → p.extractLsb' (8 * j) 8 = s.outByte (4 * w + j)) ∧
    (w < 40 → ∀ v, s.inputs = .write (BitVec.ofNat 12 (0x200 + 4 * w)) v :: rest →
      ∃ m : Memory, step s = .next { s with mem := m, pslverr := false, inputs := rest } ∧
        (∀ j, j < 4 → readByte m (0x200 + 4 * w + j) = v.extractLsb' (8 * j) 8) ∧
        ∀ addr, addr < 0x200 + 4 * w ∨ 0x200 + 4 * w + 4 ≤ addr → readByte m addr = readByte s.mem addr)

/-- R72: a read changes only what the bus shows, and a write other than an acceptance is idempotent: repeating it leaves
the same state. Premise: the memory's canonical form. -/
def Obligations.ReadsHaveNoSideEffectAndWritesRepeat : Prop :=
  (∀ (s : State) (off : Offset) (rest : List HostEvent), s.rstN = true → s.inputs = .read off :: rest →
    ∃ p e, step s = .next { s with prdata := p, pslverr := e, inputs := rest }) ∧
  (∀ (s : State) (off : Offset) (v : Word), s.mem.wf = true → ¬(off = 0x00C#12 ∧ s.busy = false) →
    (s.busWrite off v).busWrite off v = s.busWrite off v)

/-- LD256 of the host's notation (R106) leaves R[k] at the value and changes nothing else; ST256 after it reads back the
value's words in order (R67). -/
def Obligations.LoadRegisterThenReadItBack : Prop :=
  ∀ (s : State) (k : Reg) (v : Nat) (rest : List HostEvent), s.rstN = true → s.busy = false → v < 2 ^ 256 →
    s.inputs = ld256Events k v ++ rest →
    Host.Core.run Sys2Proof.core 8 s = .next { s.setRegVal k v with pslverr := false, inputs := rest } ∧
    ∀ i : Fin 8, readTarget (s.setRegVal k v) (busTarget (regOffset k i.val)) = wordOfNat v i.val

/-- EXEC of the host's notation (R106) on an idle block: the write accepts, the completion runs the command, whatever it
is, on the state the acceptance left; STATUS then reads BUSY = 0 and DONE = 1. -/
def Obligations.HostExecRunsTheCommand : Prop :=
  ∀ (s : State) (i : Instr) (rest : List HostEvent), s.rstN = true → s.busy = false → i.wf = true →
    s.inputs = (HostStatement.exec i).events ++ rest →
    ∃ t, exec i { s.accept (encode i) with pslverr := false, inputs := .read statusOffset :: rest } = .next t ∧
      Host.Core.run Sys2Proof.core 3 s = .next { t with prdata := t.statusWord, pslverr := false, inputs := rest } ∧
      t.statusWord.getLsbD 0 = false ∧ t.statusWord.getLsbD 1 = true

/-! ## What every command keeps (10_state.md R20, R22, R38, R39; 60_exceptions.md) -/

/-- A command writes only its destination registers, OUT_BUF and OUT_LEN where R24 says so, and STATUS; IN_BUF, IN_LEN, CTRL,
WERR, CMD and the bus are as before (R20, R22, R24, R39). Premise: the memory's canonical form. -/
def Obligations.CommandsWriteOnlyTheirDestinations : Prop :=
  ∀ (i : Instr) (s t : State), s.mem.wf = true → exec i s = .next t →
    RegsKeptBut s t (destinations i) ∧ SameSurroundings s t ∧ MemKeptOutsideOut s t ∧
    (writesOut i = false → OutKept s t)

/-- R300 and R301: a command that raises an error changes STATUS and nothing else; one that completes without an error sets
BUSY, DONE, ERR and RESULT, RESULT 0 but for the three Boolean commands. -/
def Obligations.CompletionSetsStatus : Prop :=
  ∀ (i : Instr) (s t : State), exec i s = .next t →
    (t.err ≠ .ok → t = { s with busy := false, done := true, err := t.err, result := false }) ∧
    (t.err = .ok → CompletedWith s t t.result ∧ (hasBooleanResult i = false → t.result = false))

/-- R297: MRED, LDC, PVALID, COMPRESS, DERINT, DERSIG, VERIFY and VERIFYABI raise no error of their own. -/
def Obligations.CommandsThatRaiseOnlyErrIllegal : Prop :=
  ∀ (s : State) (rd r1 r2 : Reg) (m : Modulus) (k : ConstName) (i : Instr),
    i ∈ [Instr.mred rd r1 m, .ldc rd k, .pvalid rd r1, .compress r1, .derint r1, .dersig r1 r2, .verify rd,
      .verifyabi rd] →
    ∃ t, exec i s = .next t ∧ t.err = if i.wf then .ok else .illegal

/-- R38: a command's results depend only on the command, the general registers, IN_BUF and IN_LEN: two states that agree on
them give the same registers, error, result and output. Premise: the canonical form of both memories. -/
def Obligations.ResultsDependOnlyOnTheInputs : Prop :=
  ∀ (i : Instr) (s s' t t' : State), s.mem.wf = true → s'.mem.wf = true → s.regs = s'.regs → s.inLen = s'.inLen →
    (∀ j, j < Config.inSize → s.inByte j = s'.inByte j) → exec i s = .next t → exec i s' = .next t' →
    t.regs = t'.regs ∧ t.err = t'.err ∧ t.result = t'.result ∧ t.busy = t'.busy ∧ t.done = t'.done ∧
    (writesOut i = true → t.err = .ok →
      t.outLen = t'.outLen ∧ ∀ j, j < Config.outSize → t.outByte j = t'.outByte j)

/-- R37 and R76: no sequence of transfers can modify a running command. From any state with a command in flight, any
transfers that reset nothing, in any number, leave its completion with the same registers, memory, lengths, error and
result as a completion at once. -/
def Obligations.HostCannotDisturbARunningCommand : Prop :=
  ∀ (s t u : State) (evs : List HostEvent), s.busy = true → s.rstN = true → evs.all plainTransfer = true →
    Host.Core.run Sys2Proof.core (evs.length + 1) { s with inputs := evs ++ [.complete] } = .next t →
    Host.Core.run Sys2Proof.core 1 { s with inputs := [.complete] } = .next u →
    t.regs = u.regs ∧ t.mem = u.mem ∧ t.inLen = u.inLen ∧ t.outLen = u.outLen ∧ t.cmd = u.cmd ∧ t.busy = u.busy ∧
    t.done = u.done ∧ t.err = u.err ∧ t.result = u.result

/-! ## Modular arithmetic (40_modular.md) -/

/-- R122: MADD, its word, its error and its result. -/
def Obligations.MaddAddsModulo : Prop :=
  ∀ (rd r1 r2 : Reg) (m : Modulus) (s : State),
    WordsOf (.madd rd r1 r2 m) 0xFFFC00FF 0x00000001 [] ∧
    (modulus m ≤ s.regVal r1 ∨ modulus m ≤ s.regVal r2 →
      exec (.madd rd r1 r2 m) s = .next (s.finish .range false)) ∧
    (s.regVal r1 < modulus m → s.regVal r2 < modulus m →
      ∃ t, exec (.madd rd r1 r2 m) s = .next t ∧
        RegResult s t rd ((s.regVal r1 + s.regVal r2) % modulus m) false)

/-- R123: MSUB: `= x - y if x >= y, else x - y + m`. -/
def Obligations.MsubSubtractsModulo : Prop :=
  ∀ (rd r1 r2 : Reg) (m : Modulus) (s : State),
    WordsOf (.msub rd r1 r2 m) 0xFFFC00FF 0x00000002 [] ∧
    (modulus m ≤ s.regVal r1 ∨ modulus m ≤ s.regVal r2 →
      exec (.msub rd r1 r2 m) s = .next (s.finish .range false)) ∧
    (s.regVal r1 < modulus m → s.regVal r2 < modulus m →
      ∃ t, exec (.msub rd r1 r2 m) s = .next t ∧
        RegResult s t rd
          (if s.regVal r2 ≤ s.regVal r1 then s.regVal r1 - s.regVal r2 else s.regVal r1 + modulus m - s.regVal r2)
          false)

/-- R124: MMUL. -/
def Obligations.MmulMultipliesModulo : Prop :=
  ∀ (rd r1 r2 : Reg) (m : Modulus) (s : State),
    WordsOf (.mmul rd r1 r2 m) 0xFFFC00FF 0x00000003 [] ∧
    (modulus m ≤ s.regVal r1 ∨ modulus m ≤ s.regVal r2 →
      exec (.mmul rd r1 r2 m) s = .next (s.finish .range false)) ∧
    (s.regVal r1 < modulus m → s.regVal r2 < modulus m →
      ∃ t, exec (.mmul rd r1 r2 m) s = .next t ∧
        RegResult s t rd (s.regVal r1 * s.regVal r2 % modulus m) false)

/-- R130: MONTMUL gives "the unique value t in [0, m) with t * 2^256 ≡ x * y (mod m)", and so does the rule's reference
procedure (one exact division, one conditional subtraction). -/
def Obligations.MontmulGivesTheMontgomeryProduct : Prop :=
  ∀ (rd r1 r2 : Reg) (m : Modulus) (s : State),
    WordsOf (.montmul rd r1 r2 m) 0xFFFC00FF 0x00000004 [] ∧
    (modulus m ≤ s.regVal r1 ∨ modulus m ≤ s.regVal r2 →
      exec (.montmul rd r1 r2 m) s = .next (s.finish .range false)) ∧
    (s.regVal r1 < modulus m → s.regVal r2 < modulus m →
      ∃ t v, exec (.montmul rd r1 r2 m) s = .next t ∧ RegResult s t rd v false ∧ v < modulus m ∧
        v * 2 ^ 256 % modulus m = s.regVal r1 * s.regVal r2 % modulus m ∧
        (∀ v', v' < modulus m → v' * 2 ^ 256 % modulus m = s.regVal r1 * s.regVal r2 % modulus m → v' = v) ∧
        montMulReference (modulus m) (s.regVal r1) (s.regVal r2) = v)

/-- R140: MINV: ERR_RANGE first, ERR_INV_ZERO for both methods, else "the y in [1, m) with x*y mod m = 1". -/
def Obligations.MinvGivesTheInverse : Prop :=
  ∀ (rd r1 : Reg) (m : Modulus) (v : InvMethod) (s : State),
    WordsOf (.minv rd r1 m v) 0xFFF9C0FF 0x00000005 [] ∧
    (modulus m ≤ s.regVal r1 → exec (.minv rd r1 m v) s = .next (s.finish .range false)) ∧
    (s.regVal r1 = 0 → exec (.minv rd r1 m v) s = .next (s.finish .invZero false)) ∧
    (0 < s.regVal r1 → s.regVal r1 < modulus m →
      ∃ t y, exec (.minv rd r1 m v) s = .next t ∧ RegResult s t rd y false ∧ 1 ≤ y ∧ y < modulus m ∧
        s.regVal r1 * y % modulus m = 1)

/-- R141: "MINV gives the same result for V = 0 and V = 1, for every operand". -/
def Obligations.InversionMethodsAgree : Prop :=
  ∀ (rd r1 : Reg) (m : Modulus) (s : State), exec (.minv rd r1 m .fermat) s = exec (.minv rd r1 m .euclid) s

/-- R150: MRED: any 256-bit operand, the result x or x - m. -/
def Obligations.MredReducesAnyValue : Prop :=
  ∀ (rd r1 : Reg) (m : Modulus) (s : State),
    WordsOf (.mred rd r1 m) 0xFFFDC0FF 0x00000006 [] ∧
    ∃ t, exec (.mred rd r1 m) s = .next t ∧ RegResult s t rd (s.regVal r1 % modulus m) false ∧
      (t.regVal rd = s.regVal r1 ∨ t.regVal rd + modulus m = s.regVal r1)

/-- R160, with the values of R27: LDC loads the constant of every index. -/
def Obligations.LdcLoadsTheConstants : Prop :=
  ∀ (rd : Reg) (s : State) (k : ConstName),
    WordsOf (.ldc rd k) 0xFFFFC0FF 0x00000007 [] ∧
    ∃ t, exec (.ldc rd k) s = .next t ∧ RegResult s t rd
      (match k with
        | .p => Config.p
        | .n => Config.n
        | .a => Config.p - 3
        | .b => 0x5AC635D8_AA3A93E7_B3EBBD55_769886BC_651D06B0_CC53B0F6_3BCE3C3E_27D2604B
        | .gx => 0x6B17D1F2_E12C4247_F8BCE6E5_63A440F2_77037D81_2DEB33A0_F4A13945_D898C296
        | .gy => 0x4FE342E2_FE1A7F9B_8EE7EB4A_7C0F9E16_2BCE3357_6B315ECE_CBB64068_37BF51F5
        | .r2p => 2 ^ 512 % Config.p
        | .r2n => 2 ^ 512 % Config.n) false

/-- R105: what the pseudo-instructions compute, each command of the expansion waited out (R340). From an idle block, the
expansion's transfers and completions run to a state with no error in which: MSQR leaves x*x mod m, MMOV a copy, MDIV the
quotient modulo m, TOMONT `R[rs]·2^256 mod m`, FROMMONT the value whose product with 2^256 is R[rs]. Operands are residues,
MDIV's divisor is not 0. -/
def Obligations.PseudoInstructionsGiveTheirValues : Prop :=
  ∀ (m : Modulus) (rd rs rt : Reg) (s : State) (rest : List HostEvent), s.rstN = true → s.busy = false →
    s.regVal rs < modulus m →
    (∀ prog, (Pseudo.msqr m rd rs).expand = some prog → s.inputs = programEvents prog ++ rest →
      ∃ t, Host.Core.run Sys2Proof.core 3 s = .next t ∧ t.inputs = rest ∧ t.err = .ok ∧
        t.regVal rd = s.regVal rs * s.regVal rs % modulus m) ∧
    (∀ prog, (Pseudo.mmov m rd rs).expand = some prog → s.inputs = programEvents prog ++ rest →
      ∃ t, Host.Core.run Sys2Proof.core 3 s = .next t ∧ t.inputs = rest ∧ t.err = .ok ∧ t.regVal rd = s.regVal rs) ∧
    (∀ prog, (Pseudo.mdiv m rd rs rt).expand = some prog → s.inputs = programEvents prog ++ rest →
      0 < s.regVal rt → s.regVal rt < modulus m →
      ∃ t, Host.Core.run Sys2Proof.core 6 s = .next t ∧ t.inputs = rest ∧ t.err = .ok ∧ t.regVal rd < modulus m ∧
        t.regVal rd * s.regVal rt % modulus m = s.regVal rs) ∧
    (∀ prog, (Pseudo.tomont m rd rs rt).expand = some prog → s.inputs = programEvents prog ++ rest →
      ∃ t, Host.Core.run Sys2Proof.core 6 s = .next t ∧ t.inputs = rest ∧ t.err = .ok ∧
        t.regVal rd = s.regVal rs * 2 ^ 256 % modulus m) ∧
    (∀ prog, (Pseudo.frommont m rd rs rt).expand = some prog → s.inputs = programEvents prog ++ rest →
      ∃ t, Host.Core.run Sys2Proof.core 11 s = .next t ∧ t.inputs = rest ∧ t.err = .ok ∧ t.regVal rd < modulus m ∧
        t.regVal rd * 2 ^ 256 % modulus m = s.regVal rs)

/-! ## DER (41_der.md) -/

/-- R171, R172 and R175: DERINT writes tag, short length and the minimal content of the operand, for every 256-bit value.
R176: OUT_LEN is then 3 + floor(bitlen(v) / 8), 3 for v = 0; 35 exactly when v >= 2^255, 34 when 2^247 <= v < 2^255.
Premise: the memory's canonical form. -/
def Obligations.DerintEncodesMinimally : Prop :=
  ∀ (r1 : Reg) (s : State), s.mem.wf = true →
    WordsOf (.derint r1) 0xFFFFC7FF 0x00000020 [] ∧
    ∃ t len content, exec (.derint r1) s = .next t ∧ OutResult s t (0x02#8 :: len :: content) ∧
      len.toNat = content.length ∧ beValue content = s.regVal r1 ∧ 1 ≤ content.length ∧
      (content.getD 0 0).toNat < 0x80 ∧
      (2 ≤ content.length → content.getD 0 0 = 0x00#8 → 0x80 ≤ (content.getD 1 0).toNat) ∧
      t.outLen.toNat = 3 + Nat.size (s.regVal r1) / 8 ∧ 3 ≤ t.outLen.toNat ∧ t.outLen.toNat ≤ 35 ∧
      (t.outLen.toNat = 35 ↔ 2 ^ 255 ≤ s.regVal r1) ∧
      (2 ^ 247 ≤ s.regVal r1 → s.regVal r1 < 2 ^ 255 → t.outLen.toNat = 34)

/-- R173, R185 and R186: DERSIG wraps the two integers' encodings in order, always in short form, r and s not
range-checked; OUT_LEN is 2 + len(DerInt(r)) + len(DerInt(s)), in [8, 72]. Premise: the memory's canonical form. -/
def Obligations.DersigWrapsTwoIntegers : Prop :=
  ∀ (r1 r2 : Reg) (s : State), s.mem.wf = true →
    WordsOf (.dersig r1 r2) 0xFFFE07FF 0x00000021 [] ∧
    ∃ t len, exec (.dersig r1 r2) s = .next t ∧
      OutResult s t (0x30#8 :: len :: (derInt (s.regVal r1) ++ derInt (s.regVal r2))) ∧
      len.toNat = (derInt (s.regVal r1)).length + (derInt (s.regVal r2)).length ∧
      6 ≤ len.toNat ∧ len.toNat ≤ 70 ∧
      t.outLen.toNat = 2 + (derInt (s.regVal r1)).length + (derInt (s.regVal r2)).length ∧
      8 ≤ t.outLen.toNat ∧ t.outLen.toNat ≤ 72

/-- R170: the length octets of every content length below 2^1008: short form up to 127; from 128 on a count byte 0x80 | k
and the k bytes of the length, big-endian, the first not 0. -/
def Obligations.DerLengthForms : Prop :=
  ∀ L : Nat, (L ≤ 127 → derLen L = [BitVec.ofNat 8 L]) ∧
    (128 ≤ L → L < 256 ^ 126 → ∃ count bytes, derLen L = count :: bytes ∧ count.toNat = 0x80 + bytes.length ∧
      beValue bytes = L ∧ 1 ≤ bytes.length ∧ bytes.getD 0 0 ≠ 0)

/-! ## Points (42_point.md) -/

/-- R201 and R205: PVALID answers whether the pair satisfies the curve equation with both coordinates below p; O does not. -/
def Obligations.PvalidTestsTheCurveEquation : Prop :=
  ∀ (rd r1 : Reg) (s : State), r1 ≠ 7 →
    WordsOf (.pvalid rd r1) 0xFFFFC0FF 0x00000010 [(13, 11)] ∧
    ∃ t v, exec (.pvalid rd r1) s = .next t ∧ RegResult s t rd v.toNat v ∧
      (v = true ↔ s.regVal r1 < Config.p ∧ s.regVal (r1 + 1) < Config.p ∧
        (((s.regVal (r1 + 1) : Int) * s.regVal (r1 + 1)
          - (s.regVal r1 * s.regVal r1 * s.regVal r1 + Config.a * s.regVal r1 + Config.b)) % Config.p = 0)) ∧
      (s.regVal r1 = 0 → s.regVal (r1 + 1) = 0 → v = false)

/-- R294, with R202: PADD, PDBL and PMUL raise ERR_POINT and write nothing when a point operand is neither (0, 0) nor on
the curve; PVALID, COMPRESS, VERIFY and VERIFYABI never raise it. -/
def Obligations.InvalidPointOperandIsErrPoint : Prop :=
  (∀ (rd r1 r2 : Reg) (s : State), rd ≠ 7 → r1 ≠ 7 →
    (r2 ≠ 7 → ¬(s.pairVal r1 = (0, 0) ∨ isOnCurve (s.pairVal r1).1 (s.pairVal r1).2 = true) ∨
      ¬(s.pairVal r2 = (0, 0) ∨ isOnCurve (s.pairVal r2).1 (s.pairVal r2).2 = true) →
      exec (.padd rd r1 r2) s = .next (s.finish .point false)) ∧
    (¬(s.pairVal r1 = (0, 0) ∨ isOnCurve (s.pairVal r1).1 (s.pairVal r1).2 = true) →
      exec (.pdbl rd r1) s = .next (s.finish .point false) ∧
      exec (.pmul rd r1 r2) s = .next (s.finish .point false))) ∧
  (∀ (rd r1 : Reg) (s t : State) (i : Instr), i ∈ [Instr.pvalid rd r1, .compress r1, .verify rd, .verifyabi rd] →
    exec i s = .next t → t.err ≠ .point)

/-- R206 and R207: PADD and PDBL of valid points write the sum of R203 as a pair, O as (0, 0); an invalid one is ERR_POINT. -/
def Obligations.PaddAndPdblWriteTheSum : Prop :=
  ∀ (rd r1 r2 : Reg) (s : State), rd ≠ 7 → r1 ≠ 7 →
    (r2 ≠ 7 →
      WordsOf (.padd rd r1 r2) 0xFFFE00FF 0x00000011 [(10, 8), (13, 11), (16, 14)] ∧
      (validPt (s.pairVal r1) = false ∨ validPt (s.pairVal r2) = false →
        exec (.padd rd r1 r2) s = .next (s.finish .point false)) ∧
      (validPt (s.pairVal r1) = true → validPt (s.pairVal r2) = true →
        ∃ t, exec (.padd rd r1 r2) s = .next t ∧ PairResult s t rd
          (pairOfPoint (addPoint (pointOfPair (s.pairVal r1)) (pointOfPair (s.pairVal r2)))))) ∧
    WordsOf (.pdbl rd r1) 0xFFFFC0FF 0x00000012 [(10, 8), (13, 11)] ∧
    (validPt (s.pairVal r1) = false → exec (.pdbl rd r1) s = .next (s.finish .point false)) ∧
    (validPt (s.pairVal r1) = true →
      ∃ t, exec (.pdbl rd r1) s = .next t ∧ PairResult s t rd
        (pairOfPoint (addPoint (pointOfPair (s.pairVal r1)) (pointOfPair (s.pairVal r1)))))

/-- R8 and R203: addPoint is the addition of the elliptic curve group over the field of p elements, as Mathlib defines it, and
negPoint its negation: the chord-and-tangent formulas hold in every case. -/
def Obligations.GroupLawIsTheEllipticCurveGroup : Prop :=
  ∀ [Fact (Nat.Prime Config.p)] (P Q : curveOverField.Point),
    addPoint (pointOfGroup P) (pointOfGroup Q) = pointOfGroup (P + Q) ∧
    negPoint (pointOfGroup P) = pointOfGroup (-P)

/-- The pairs PADD, PDBL and PMUL accept are exactly the points of that group: O as (0, 0), each other as its coordinates
(R200, R202). -/
def Obligations.ValidPairsAreTheGroupsPoints : Prop :=
  ∀ xy : Nat × Nat, validPt xy = true ↔ ∃ P : curveOverField.Point, xy = pairOfPoint (pointOfGroup P)

/-- R203: "Every inverse this law takes is of a non-zero value, so no internal inverse-of-zero can occur" (R264, R296). -/
def Obligations.GroupLawInvertsOnlyNonZero : Prop :=
  ∀ x1 y1 x2 y2 : Nat, isOnCurve x1 y1 = true → isOnCurve x2 y2 = true → ¬(x1 = x2 ∧ (y1 + y2) % Config.p = 0) →
    (x1 = x2 → y1 = y2 ∧ 2 * y1 % Config.p ≠ 0) ∧ (x1 ≠ x2 → subMod Config.p x2 x1 ≠ 0)

/-- R204 and R208: PMUL of a valid point and any 256-bit k writes Mul(k, P), k additions of P, O as (0, 0); k is never
range-checked; an invalid point is ERR_POINT. -/
def Obligations.PmulIsRepeatedAddition : Prop :=
  ∀ (rd r1 r2 : Reg) (s : State), rd ≠ 7 → r1 ≠ 7 →
    WordsOf (.pmul rd r1 r2) 0xFFFE00FF 0x00000013 [(10, 8), (13, 11)] ∧
    (validPt (s.pairVal r1) = false → exec (.pmul rd r1 r2) s = .next (s.finish .point false)) ∧
    (validPt (s.pairVal r1) = true →
      ∃ t, exec (.pmul rd r1 r2) s = .next t ∧
        PairResult s t rd (pairOfPoint (mulByAdding (s.regVal r2) (pointOfPair (s.pairVal r1)))))

/-- R220, R221 and R295: DECOMP gives the point of the curve with the key's x and parity, in the pair and as 04 || x || y, when
there is one; every other input is ERR_PUBKEY and writes nothing. Premise: the memory's canonical form. -/
def Obligations.DecompFindsThePointOrErrPubkey : Prop :=
  ∀ (rd : Reg) (s : State), rd ≠ 7 → s.mem.wf = true →
    WordsOf (.decomp rd) 0xFFFFF8FF 0x00000014 [(10, 8)] ∧
    (∀ y, s.inLen.toNat = 33 → s.inByte 0 = 0x02#8 ∨ s.inByte 0 = 0x03#8 → isOnCurve (s.inField 1) y = true →
      y % 2 = (s.inByte 0).toNat % 2 →
      ∃ t, exec (.decomp rd) s = .next t ∧ CompletedWith s t false ∧ t.pairVal rd = (s.inField 1, y) ∧
        RegsKeptBut s t [rd, rd + 1] ∧ OutWritten s t (0x04#8 :: (be32 (s.inField 1) ++ be32 y))) ∧
    (¬(s.inLen.toNat = 33 ∧ (s.inByte 0 = 0x02#8 ∨ s.inByte 0 = 0x03#8) ∧
        ∃ y, isOnCurve (s.inField 1) y = true ∧ y % 2 = (s.inByte 0).toNat % 2) →
      exec (.decomp rd) s = .next (s.finish .pubkey false))

/-- R222: COMPRESS writes the prefix of y's parity and x, without validating the pair. Premise: the memory's canonical
form. -/
def Obligations.CompressWritesPrefixAndX : Prop :=
  ∀ (r1 : Reg) (s : State), r1 ≠ 7 → s.mem.wf = true →
    WordsOf (.compress r1) 0xFFFFC7FF 0x00000015 [(13, 11)] ∧
    ∃ t first xs, exec (.compress r1) s = .next t ∧ OutResult s t (first :: xs) ∧
      first.toNat = 0x02 + s.regVal (r1 + 1) % 2 ∧ xs.length = 32 ∧ beValue xs = s.regVal r1

/-- R223: COMPRESS, then DECOMP of its output with IN_LEN = 33, gives the point back; for a pair below p that is not on the
curve it gives ERR_PUBKEY or another y. Premise: the memory's canonical form. -/
def Obligations.DecompOfCompressGivesThePointBack : Prop :=
  ∀ (r1 rd : Reg) (s t u : State), r1 ≠ 7 → rd ≠ 7 → s.mem.wf = true → exec (.compress r1) s = .next t →
    u.inLen.toNat = 33 → (∀ j, j < 33 → u.inByte j = t.outByte j) →
    ∃ w, exec (.decomp rd) u = .next w ∧
      (isOnCurve (s.pairVal r1).1 (s.pairVal r1).2 = true → w.err = .ok ∧ w.pairVal rd = s.pairVal r1) ∧
      ((s.pairVal r1).1 < Config.p → (s.pairVal r1).2 < Config.p →
        isOnCurve (s.pairVal r1).1 (s.pairVal r1).2 = false →
        w.err = .pubkey ∨ (w.err = .ok ∧ (w.pairVal rd).2 ≠ (s.pairVal r1).2))

/-! ## Verification (43_verify.md) -/

/-- R250: Verify accepts exactly when both preconditions on r and s and the curve check hold and, with w the inverse of s
modulo n, the point of step 4, its multiples taken by repeated addition, is not O and its x reduces to r modulo n. -/
def Obligations.VerifyFollowsTheSixSteps : Prop :=
  ∀ H r s Qx Qy : Nat,
    (verifySig H r s Qx Qy = true ↔
      1 ≤ r ∧ r ≤ Config.n - 1 ∧ 1 ≤ s ∧ s ≤ Config.n - 1 ∧ isOnCurve Qx Qy = true ∧
      ∃ w x y, 1 ≤ w ∧ w < Config.n ∧ s * w % Config.n = 1 ∧
        addPoint (mulByAdding (H % Config.n * w % Config.n) (.affine Config.gx Config.gy))
          (mulByAdding (r * w % Config.n) (.affine Qx Qy)) = .affine x y ∧
        x % Config.n = r)

/-- R255: VERIFY of R0 to R4 to R[rd] and RESULT; malformed input gives 0, never an error. -/
def Obligations.VerifyCommandAnswersInRegisterAndResult : Prop :=
  ∀ (rd : Reg) (s : State),
    WordsOf (.verify rd) 0xFFFFF8FF 0x00000030 [] ∧
    ∃ t v, exec (.verify rd) s = .next t ∧ RegResult s t rd v.toNat v ∧
      v = verifySig (s.regVal 0) (s.regVal 1) (s.regVal 2) (s.regVal 3) (s.regVal 4)

/-- R260 and R262: VERIFYABI of the five big-endian fields at 0, 32, 64, 96 and 128 of a 160-byte blob; any other length
gives 0 and no error. -/
def Obligations.VerifyabiReadsTheBlob : Prop :=
  ∀ (rd : Reg) (s : State),
    WordsOf (.verifyabi rd) 0xFFFFF8FF 0x00000031 [] ∧
    ∃ t v, exec (.verifyabi rd) s = .next t ∧ RegResult s t rd v.toNat v ∧
      (s.inLen.toNat ≠ 160 → v = false) ∧
      (∀ H r q x y : Nat, s.inLen.toNat = 160 → H < 2 ^ 256 → r < 2 ^ 256 → q < 2 ^ 256 → x < 2 ^ 256 →
        y < 2 ^ 256 → (∀ j, j < 160 → s.inByte j = (be32 H ++ be32 r ++ be32 q ++ be32 x ++ be32 y).getD j 0) →
        v = verifySig H r q x y)
end

