-- ==== Sys2Proof/Laws/Arith.lean ====
section
/-! SUPPORT. One spec lemma per function of the modular-arithmetic unit: the value each computes. -/

namespace Sys2Proof.Machine

/-! ### Powers -/

/-- Square-and-multiply computes the power, for an exponent that fits the bits. -/
theorem powModBits_eq (m x : Nat) (bits e : Nat) (h : e < 2 ^ bits) : powModBits m x bits e = x ^ e % m := by
  induction bits generalizing e with
  | zero =>
    have : e = 0 := by simpa using h
    subst this; rfl
  | succ bits ih =>
    have he : e / 2 < 2 ^ bits := by rw [Nat.pow_succ] at h; omega
    have half : x ^ (e / 2) * x ^ (e / 2) = x ^ (e / 2 * 2) := by rw [← Nat.pow_add]; congr 1; omega
    simp only [powModBits, ih _ he, mulMod]
    split
    · next hodd =>
      rw [← Nat.mul_mod, half, Nat.mod_mul_mod, ← Nat.pow_succ]
      congr 2; omega
    · next heven =>
      rw [← Nat.mul_mod, half]
      congr 2; omega

/-- `powMod m x e = x ^ e mod m` for every 256-bit exponent. -/
theorem powMod_eq (m x e : Nat) (h : e < 2 ^ 256) : powMod m x e = x ^ e % m := powModBits_eq m x 256 e h

theorem powModBits_lt (m x : Nat) (hm : 0 < m) (bits e : Nat) : powModBits m x bits e < m := by
  cases bits with
  | zero => exact Nat.mod_lt _ hm
  | succ bits =>
    simp only [powModBits, mulMod]
    split <;> exact Nat.mod_lt _ hm

theorem powMod_lt (m x e : Nat) (hm : 0 < m) : powMod m x e < m := powModBits_lt m x hm 256 e

/-! ### Differences -/

theorem subMod_lt (m x y : Nat) (hm : 0 < m) : subMod m x y < m := by
  unfold subMod
  have h1 := Int.emod_nonneg ((x : Int) - y) (b := (m : Int)) (by omega)
  have h2 := Int.emod_lt_of_pos ((x : Int) - y) (b := (m : Int)) (by omega)
  omega

/-- The difference in the ring of residues. -/
theorem subMod_cast (m x y : Nat) (hm : 0 < m) : ((subMod m x y : Nat) : ZMod m) = (x : ZMod m) - y := by
  unfold subMod
  have h1 := Int.emod_nonneg ((x : Int) - y) (b := (m : Int)) (by omega)
  have : (((((x : Int) - y) % m).toNat : Nat) : ZMod m) = (((((x : Int) - y) % m) : Int) : ZMod m) := by
    rw [← Int.cast_natCast, Int.toNat_of_nonneg h1]
  rw [this, ZMod.intCast_mod]
  push_cast
  rfl

/-- R123's two cases: `= x - y if x >= y, else x - y + m`, for residues. -/
theorem subMod_of_lt (m x y : Nat) (hx : x < m) (hy : y < m) : subMod m x y = if y ≤ x then x - y else x + m - y := by
  unfold subMod
  split
  · rw [show ((x : Int) - y) = ((x - y : Nat) : Int) by omega, ← Int.natCast_mod, Nat.mod_eq_of_lt (by omega)]
    rfl
  · rw [show ((x : Int) - y) = ((x + m - y : Nat) : Int) + (m : Int) * (-1) by omega, Int.add_mul_emod_self_left,
      ← Int.natCast_mod, Nat.mod_eq_of_lt (by omega)]
    rfl

/-! ### Extended Euclid -/

/-- One division step keeps the relation between a remainder and its coefficient. -/
theorem euclid_next (m x a b : Nat) (t u : Int) (ht : ((t : Int) : ZMod m) * x = a)
    (hu : ((u : Int) : ZMod m) * x = b) :
    (((t - (a / b : Nat) * u : Int)) : ZMod m) * x = ((a % b : Nat) : ZMod m) := by
  have key : (a : ZMod m) = (b : ZMod m) * ((a / b : Nat) : ZMod m) + ((a % b : Nat) : ZMod m) := by
    exact_mod_cast congrArg (Nat.cast (R := ZMod m)) (Nat.div_add_mod a b).symm
  rw [Int.cast_sub, Int.cast_mul, Int.cast_natCast, sub_mul, ht, mul_assoc, hu]
  linear_combination key

/-- The remainder loop keeps `t * x ≡ a` and `u * x ≡ b (mod m)`, and ends at the greatest common divisor when the fuel
covers the size of the smaller remainder. -/
theorem euclidLoop_spec (m x : Nat) (k fuel a b : Nat) (t u : Int) (hb : b < 2 ^ k) (hfuel : 2 * k ≤ fuel)
    (hab : b ≤ a) (ht : ((t : Int) : ZMod m) * x = a) (hu : ((u : Int) : ZMod m) * x = b) :
    ((euclidLoop fuel a b t u : Int) : ZMod m) * x = (Nat.gcd a b : Nat) := by
  induction k generalizing fuel a b t u with
  | zero =>
    have : b = 0 := by simpa using hb
    subst this
    cases fuel <;> simpa [euclidLoop] using ht
  | succ k ih =>
    obtain ⟨fuel, rfl⟩ : ∃ f, fuel = f + 2 := ⟨fuel - 2, by omega⟩
    by_cases hb0 : b = 0
    · subst hb0; simpa [euclidLoop] using ht
    · have ht1 := euclid_next m x a b t u ht hu
      simp only [euclidLoop, if_neg hb0]
      by_cases hr0 : a % b = 0
      · rw [if_pos hr0, hu, Nat.gcd_comm, Nat.gcd_rec b a, hr0, Nat.gcd_zero_left]
      · rw [if_neg hr0]
        have hlt : a % b < b := Nat.mod_lt _ (Nat.pos_of_ne_zero hb0)
        have hlt2 : b % (a % b) < a % b := Nat.mod_lt _ (Nat.pos_of_ne_zero hr0)
        have hdiv : 1 ≤ b / (a % b) := (Nat.one_le_div_iff (by omega)).2 hlt.le
        have hle : a % b ≤ (a % b) * (b / (a % b)) := Nat.le_mul_of_pos_right _ hdiv
        have hdm := Nat.div_add_mod b (a % b)
        have hgcd : Nat.gcd a b = Nat.gcd (a % b) (b % (a % b)) := by
          rw [Nat.gcd_comm a b, Nat.gcd_rec b a, Nat.gcd_rec (a % b) b, Nat.gcd_comm]
        rw [hgcd]
        exact ih fuel (a % b) (b % (a % b)) _ _ (by rw [Nat.pow_succ] at hb; omega) (by omega) hlt2.le ht1
          (euclid_next m x b (a % b) u _ hu ht1)

theorem invEuclid_lt (m x : Nat) (hm : 0 < m) : invEuclid m x < m := by
  unfold invEuclid
  have h1 := Int.emod_nonneg (euclidLoop euclidFuel m x 0 1) (b := (m : Int)) (by omega)
  have h2 := Int.emod_lt_of_pos (euclidLoop euclidFuel m x 0 1) (b := (m : Int)) (by omega)
  omega

theorem invEuclid_cast (m x : Nat) (hm : 0 < m) :
    ((invEuclid m x : Nat) : ZMod m) = ((euclidLoop euclidFuel m x 0 1 : Int) : ZMod m) := by
  unfold invEuclid
  have h1 := Int.emod_nonneg (euclidLoop euclidFuel m x 0 1) (b := (m : Int)) (by omega)
  rw [← Int.cast_natCast, Int.toNat_of_nonneg h1, ZMod.intCast_mod]

/-- The extended Euclidean algorithm gives the inverse of every number coprime to the modulus. -/
theorem invEuclid_spec (m x : Nat) (hx : x < m) (hsize : x < 2 ^ 256) (hco : Nat.gcd m x = 1) :
    x * invEuclid m x % m = 1 % m := by
  have hm : 0 < m := by omega
  have h := euclidLoop_spec m x 256 euclidFuel m x 0 1 hsize (by decide) hx.le (by simp) (by simp)
  rw [hco, ← invEuclid_cast m x hm] at h
  have : ((x * invEuclid m x : Nat) : ZMod m) = ((1 : Nat) : ZMod m) := by
    rw [Nat.cast_mul, mul_comm]; exact h
  exact (ZMod.natCast_eq_natCast_iff' _ _ _).1 this

/-- Fermat's exponentiation gives the inverse of every non-zero residue of a prime. -/
theorem invFermat_spec (m x : Nat) (hm : m.Prime) (h2 : 2 < m) (hsize : m < 2 ^ 256) (h0 : 0 < x) (hx : x < m) :
    x * invFermat m x % m = 1 := by
  have : Fact m.Prime := ⟨hm⟩
  unfold invFermat
  rw [powMod_eq m x (m - 2) (by omega), Nat.mul_mod_mod, ← Nat.pow_succ', show (m - 2).succ = m - 1 by omega]
  have hne : (x : ZMod m) ≠ 0 := by
    intro h
    rw [ZMod.natCast_eq_zero_iff] at h
    exact absurd (Nat.le_of_dvd h0 h) (by omega)
  have := ZMod.pow_card_sub_one_eq_one hne
  have h1 : ((x ^ (m - 1) : Nat) : ZMod m) = ((1 : Nat) : ZMod m) := by simpa using this
  have := (ZMod.natCast_eq_natCast_iff' _ _ _).1 h1
  rwa [Nat.mod_eq_of_lt (show 1 < m by omega)] at this

/-! ### The constants -/

theorem two_lt_modulus (m : Modulus) : 2 < modulus m := by cases m <;> decide

theorem modulus_lt (m : Modulus) : modulus m < 2 ^ 256 := by cases m <;> decide

/-- "2^256 < 2n; 2^256 < 2p" (R7). -/
theorem radix_lt_two_modulus (m : Modulus) : 2 ^ 256 < 2 * modulus m := by cases m <;> decide

theorem constStore_lt (k : ConstName) : constStore k < 2 ^ 256 := by cases k <;> decide

end Sys2Proof.Machine
end

