-- ==== Sys2Proof/Laws/Der.lean ====
section
/-! SUPPORT. The laws of the byte strings: their lengths, and that each string spells its number. -/

namespace Sys2Proof.Machine

/-! ### Values -/

theorem beValue_append_singleton (l : List Byte) (b : Byte) : beValue (l ++ [b]) = beValue l * 256 + b.toNat := by
  simp [beValue]

@[simp] theorem beFixed_length (len v : Nat) : (beFixed len v).length = len := by
  induction len generalizing v with
  | zero => rfl
  | succ len ih => simp [beFixed, ih]

@[simp] theorem be32_length (v : Nat) : (be32 v).length = 32 := beFixed_length 32 v

/-- A fixed-length string spells its number when the number fits. -/
theorem beValue_beFixed (len v : Nat) (h : v < 256 ^ len) : beValue (beFixed len v) = v := by
  induction len generalizing v with
  | zero => simp at h; subst h; rfl
  | succ len ih =>
    rw [beFixed, beValue_append_singleton, ih (v / 256) (by rw [Nat.pow_succ] at h; omega), BitVec.toNat_ofNat]
    omega

/-- `BE(BE32(v)) = v` for a 256-bit v. -/
theorem beValue_be32 (v : Nat) (h : v < 2 ^ 256) : beValue (be32 v) = v := beValue_beFixed 32 v h

theorem beValue_beMinFuel (fuel v : Nat) (h : v < 256 ^ (fuel + 1)) : beValue (beMinFuel fuel v) = v := by
  induction fuel generalizing v with
  | zero => simp [beMinFuel, beValue]; omega
  | succ fuel ih =>
    simp only [beMinFuel]
    split
    · simp [beValue]; omega
    · rw [beValue_append_singleton, ih (v / 256) (by rw [Nat.pow_succ] at h; omega), BitVec.toNat_ofNat]
      omega

/-- `BE(BEmin(v)) = v` for every v. -/
theorem beValue_beMin (v : Nat) : beValue (beMin v) = v :=
  beValue_beMinFuel v v (lt_of_lt_of_le (Nat.lt_pow_self (by decide : 1 < 256)) (Nat.pow_le_pow_right (by decide) (by omega)))

/-! ### Lengths -/

theorem beMinFuel_length (fuel v k : Nat) (h : v < 256 ^ (k + 1)) :
    1 ≤ (beMinFuel fuel v).length ∧ (beMinFuel fuel v).length ≤ k + 1 := by
  induction fuel generalizing v k with
  | zero => simp [beMinFuel]
  | succ fuel ih =>
    simp only [beMinFuel]
    split
    · simp
    · next hv =>
      cases k with
      | zero => omega
      | succ k =>
        have := ih (v / 256) k (by rw [Nat.pow_succ] at h; omega)
        simp only [List.length_append, List.length_cons, List.length_nil]
        omega

/-- The content of a 256-bit integer is 1 to 33 bytes (R171). -/
theorem derContent_length (v : Nat) (h : v < 2 ^ 256) :
    1 ≤ (derContent v).length ∧ (derContent v).length ≤ 33 := by
  have hb := beMinFuel_length v v 31 (lt_of_lt_of_eq h (by norm_num))
  rw [show beMinFuel v v = beMin v from rfl] at hb
  unfold derContent
  split
  · next h0 => rw [h0] at hb; simp at hb
  · next c cs hc =>
    rw [hc] at hb
    simp only [List.length_cons] at hb
    split <;> simp only [List.length_cons] <;> omega

/-- "Every length this block can produce is at most 70, so the long form is never produced" (R170). -/
theorem derLen_short (L : Nat) (h : L ≤ 127) : derLen L = [BitVec.ofNat 8 L] := if_pos h

/-- An encoded 256-bit integer is 3 to 35 bytes (R176). -/
theorem derInt_length (v : Nat) (h : v < 2 ^ 256) :
    (derInt v).length = (derContent v).length + 2 ∧ 3 ≤ (derInt v).length ∧ (derInt v).length ≤ 35 := by
  have := derContent_length v h
  unfold derInt
  rw [derLen_short _ (by omega)]
  simp only [List.length_cons, List.length_append, List.length_nil]
  omega

/-- An encoded signature is 8 to 72 bytes (R186). -/
theorem derSig_length (r s : Nat) (hr : r < 2 ^ 256) (hs : s < 2 ^ 256) :
    (derSig r s).length = 2 + (derInt r).length + (derInt s).length ∧ 8 ≤ (derSig r s).length ∧
      (derSig r s).length ≤ 72 := by
  have h1 := derInt_length r hr
  have h2 := derInt_length s hs
  unfold derSig derSigBody
  rw [derLen_short _ (by rw [List.length_append]; omega)]
  simp only [List.length_cons, List.length_append, List.length_nil]
  omega

end Sys2Proof.Machine
end

