-- ==== Sys2Proof/Laws/Memory.lean ====
section
/-! SUPPORT. The laws of the byte memory: read after write, and that every operation keeps the canonical form and stays
inside the buffers. -/

namespace Sys2Proof.Machine

theorem readByte_consCell (addr : Nat) (v : Byte) (m : Memory) (a : Nat) (low : canonicalFrom (addr + 1) m = true) :
    readByte (consCell addr v m) a = if addr = a then v else readByte m a := by
  unfold consCell
  split
  · next h =>
    split
    · next h' =>
      subst h'; subst h
      have : ∀ (l : Memory) (k : Nat), addr < k → canonicalFrom k l = true → readByte l addr = unlistedByte := by
        intro l
        induction l with
        | nil => intros; rfl
        | cons c l ih =>
          intro k hk hc
          obtain ⟨a, b⟩ := c
          simp only [canonicalFrom, Bool.and_eq_true, decide_eq_true_eq] at hc
          simp only [readByte]
          rw [if_neg (by omega)]
          exact ih (a + 1) (by omega) hc.2
      exact this m (addr + 1) (by omega) low
    · rfl
  · rfl

theorem canonicalFrom_mono {m : Memory} {j k : Nat} (h : j ≤ k) (hc : canonicalFrom k m = true) :
    canonicalFrom j m = true := by
  cases m with
  | nil => rfl
  | cons c m =>
    obtain ⟨a, b⟩ := c
    simp only [canonicalFrom, Bool.and_eq_true, decide_eq_true_eq] at hc ⊢
    exact ⟨⟨by omega, hc.1.2⟩, hc.2⟩

theorem readByte_below {m : Memory} {k a : Nat} (hc : canonicalFrom k m = true) (h : a < k) :
    readByte m a = unlistedByte := by
  induction m generalizing k with
  | nil => rfl
  | cons c m ih =>
    obtain ⟨a', b⟩ := c
    simp only [canonicalFrom, Bool.and_eq_true, decide_eq_true_eq] at hc
    simp only [readByte]
    rw [if_neg (by omega)]
    exact ih hc.2 (by omega)

theorem canonicalFrom_consCell {m : Memory} {low addr : Nat} (v : Byte) (h : low ≤ addr)
    (hc : canonicalFrom (addr + 1) m = true) : canonicalFrom low (consCell addr v m) = true := by
  unfold consCell
  split
  · exact canonicalFrom_mono (by omega) hc
  · next hv => simp [canonicalFrom, h, hv, hc]

/-- A write keeps the canonical form. -/
theorem canonicalFrom_writeByte {m : Memory} {low : Nat} (addr : Nat) (v : Byte) (hc : canonicalFrom low m = true)
    (h : low ≤ addr) : canonicalFrom low (writeByte m addr v) = true := by
  induction m generalizing low with
  | nil => exact canonicalFrom_consCell v h rfl
  | cons c m ih =>
    obtain ⟨a, b⟩ := c
    have hc' := hc
    simp only [canonicalFrom, Bool.and_eq_true, decide_eq_true_eq] at hc
    simp only [writeByte]
    split
    · next hlt =>
      refine canonicalFrom_consCell v h ?_
      simp only [canonicalFrom, Bool.and_eq_true, decide_eq_true_eq]
      exact ⟨⟨by omega, hc.1.2⟩, hc.2⟩
    · split
      · next _ heq => subst heq; exact canonicalFrom_consCell v h hc.2
      · next h1 h2 =>
        simp only [canonicalFrom, Bool.and_eq_true, decide_eq_true_eq]
        exact ⟨⟨hc.1.1, hc.1.2⟩, ih hc.2 (by omega)⟩

/-- Read after write, one byte: the written address holds the written byte, every other address what it held. -/
theorem readByte_writeByte_from {m : Memory} {low : Nat} (addr a : Nat) (v : Byte) (hc : canonicalFrom low m = true) :
    readByte (writeByte m addr v) a = if addr = a then v else readByte m a := by
  induction m generalizing low with
  | nil => exact readByte_consCell addr v [] a rfl
  | cons c m ih =>
    obtain ⟨x, b⟩ := c
    simp only [canonicalFrom, Bool.and_eq_true, decide_eq_true_eq] at hc
    simp only [writeByte]
    split
    · next hlt =>
      refine readByte_consCell addr v _ a ?_
      simp only [canonicalFrom, Bool.and_eq_true, decide_eq_true_eq]
      exact ⟨⟨by omega, hc.1.2⟩, hc.2⟩
    · split
      · next _ heq =>
        subst heq
        rw [readByte_consCell addr v m a hc.2]
        by_cases h : addr = a
        · simp [h]
        · simp [readByte, h]
      · next h1 h2 =>
        simp only [readByte]
        by_cases hx : x = a
        · rw [if_pos hx, if_neg (by omega), if_pos hx]
        · rw [if_neg hx, if_neg hx]; exact ih hc.2

theorem readByte_writeByte {m : Memory} (addr a : Nat) (v : Byte) (hc : m.wf = true) :
    readByte (writeByte m addr v) a = if addr = a then v else readByte m a :=
  readByte_writeByte_from addr a v hc

theorem wf_writeByte {m : Memory} (addr : Nat) (v : Byte) (hc : m.wf = true) : Memory.wf (writeByte m addr v) = true :=
  canonicalFrom_writeByte addr v hc (Nat.zero_le addr)

/-- A run of bytes written keeps the canonical form. -/
theorem wf_writeBytes {m : Memory} (addr : Nat) (vs : List Byte) (hc : m.wf = true) :
    Memory.wf (writeBytes m addr vs) = true := by
  induction vs generalizing m addr with
  | nil => exact hc
  | cons v vs ih => exact ih (addr + 1) (wf_writeByte addr v hc)

/-- Read after write, a run of bytes. -/
theorem readByte_writeBytes {m : Memory} (addr a : Nat) (vs : List Byte) (hc : m.wf = true) :
    readByte (writeBytes m addr vs) a
      = if addr ≤ a ∧ a < addr + vs.length then vs.getD (a - addr) 0 else readByte m a := by
  induction vs generalizing m addr with
  | nil => simp [writeBytes]
  | cons v vs ih =>
    simp only [writeBytes]
    rw [ih (addr + 1) (wf_writeByte addr v hc), readByte_writeByte addr a v hc]
    simp only [List.length_cons]
    by_cases h1 : addr + 1 ≤ a ∧ a < addr + 1 + vs.length
    · rw [if_pos h1, if_pos (by omega)]
      have : a - addr = (a - (addr + 1)) + 1 := by omega
      rw [this, List.getD_cons_succ]
    · rw [if_neg h1]
      by_cases h2 : addr = a
      · subst h2; simp
      · rw [if_neg h2, if_neg (by omega)]

/-- A run of bytes read, byte by byte. -/
theorem readBytes_getD (m : Memory) (addr len j : Nat) (h : j < len) :
    (readBytes m addr len).getD j 0 = readByte m (addr + j) := by
  induction len generalizing addr j with
  | zero => omega
  | succ len ih =>
    cases j with
    | zero => simp [readBytes]
    | succ j =>
      simp only [readBytes, List.getD_cons_succ]
      rw [ih (addr + 1) j (by omega)]
      congr 1; omega

@[simp] theorem readBytes_length (m : Memory) (addr len : Nat) : (readBytes m addr len).length = len := by
  induction len generalizing addr with
  | zero => rfl
  | succ len ih => simp [readBytes, ih]

theorem inBuffers_consCell {m : Memory} {addr : Nat} (v : Byte) (ha : (inInBuf addr || inOutBuf addr) = true)
    (h : m.inBuffers = true) : Memory.inBuffers (consCell addr v m) = true := by
  unfold consCell
  split
  · exact h
  · simp only [Memory.inBuffers, List.all_cons, Bool.and_eq_true] at h ⊢
    exact ⟨ha, h⟩

/-- A write to a byte of a buffer keeps every listed cell in the buffers. -/
theorem inBuffers_writeByte {m : Memory} {addr : Nat} (v : Byte) (ha : (inInBuf addr || inOutBuf addr) = true)
    (h : m.inBuffers = true) : Memory.inBuffers (writeByte m addr v) = true := by
  induction m with
  | nil => exact inBuffers_consCell v ha h
  | cons c m ih =>
    obtain ⟨a, b⟩ := c
    have h2 : Memory.inBuffers m = true := by
      simp only [Memory.inBuffers, List.all_cons, Bool.and_eq_true] at h ⊢; exact h.2
    simp only [writeByte]
    split
    · exact inBuffers_consCell v ha h
    · split
      · exact inBuffers_consCell v ha h2
      · have := ih h2
        simp only [Memory.inBuffers, List.all_cons, Bool.and_eq_true] at h this ⊢
        exact ⟨h.1, this⟩

theorem inBuffers_writeBytes {m : Memory} {addr : Nat} (vs : List Byte)
    (ha : ∀ j, j < vs.length → (inInBuf (addr + j) || inOutBuf (addr + j)) = true) (h : m.inBuffers = true) :
    Memory.inBuffers (writeBytes m addr vs) = true := by
  induction vs generalizing m addr with
  | nil => exact h
  | cons v vs ih =>
    refine ih (fun j hj => ?_) (inBuffers_writeByte v (by simpa using ha 0 (by simp)) h)
    have := ha (j + 1) (by simp; omega)
    rwa [show addr + 1 + j = addr + (j + 1) by omega]

/-- The canonical form is one form: memories that read alike at every address are equal lists. -/
theorem canonicalFrom_ext {m m' : Memory} {k : Nat} (h1 : canonicalFrom k m = true) (h2 : canonicalFrom k m' = true)
    (h : ∀ addr, readByte m addr = readByte m' addr) : m = m' := by
  induction m generalizing m' k with
  | nil =>
    cases m' with
    | nil => rfl
    | cons c m' =>
      obtain ⟨a, b⟩ := c
      simp only [canonicalFrom, Bool.and_eq_true, bne_iff_ne, ne_eq] at h2
      have := h a
      simp only [readByte, if_true] at this
      exact absurd this.symm h2.1.2
  | cons c m ih =>
    obtain ⟨a, b⟩ := c
    simp only [canonicalFrom, Bool.and_eq_true, bne_iff_ne, ne_eq, decide_eq_true_eq] at h1
    cases m' with
    | nil =>
      have := h a
      simp only [readByte, if_true] at this
      exact absurd this h1.1.2
    | cons c' m' =>
      obtain ⟨a', b'⟩ := c'
      simp only [canonicalFrom, Bool.and_eq_true, bne_iff_ne, ne_eq, decide_eq_true_eq] at h2
      have haa : a = a' := by
        rcases Nat.lt_trichotomy a a' with hl | he | hl
        · have := h a
          simp only [readByte, if_true] at this
          rw [if_neg (by omega), readByte_below h2.2 (by omega)] at this
          exact absurd this h1.1.2
        · exact he
        · have := h a'
          simp only [readByte, if_true] at this
          rw [if_neg (by omega), readByte_below h1.2 (by omega)] at this
          exact absurd this.symm h2.1.2
      subst haa
      obtain rfl : b = b' := by simpa [readByte] using h a
      congr 1
      refine ih h1.2 h2.2 (fun x => ?_)
      by_cases hx : a = x
      · subst hx; rw [readByte_below h1.2 (by omega), readByte_below h2.2 (by omega)]
      · simpa [readByte, hx] using h x

/-- Equal memories are equal data. -/
theorem memory_ext {m m' : Memory} (h1 : m.wf = true) (h2 : m'.wf = true)
    (h : ∀ addr, readByte m addr = readByte m' addr) : m = m' := canonicalFrom_ext h1 h2 h

theorem wf_reset : State.reset.mem.wf = true := rfl

end Sys2Proof.Machine
end

