-- ==== Sys2Proof/Laws/State.lean ====
section
/-! SUPPORT. One lemma per field per update of the state, each true by rfl, and what a register reads after a register
write. No later proof unfolds a record update. -/

namespace Sys2Proof.Machine

/-! ### setReg -/

@[simp] theorem State.setReg_regs (s : State) (i : Reg) (v : Word256) : (s.setReg i v).regs = s.regs.set i v := rfl
@[simp] theorem State.setReg_mem (s : State) (i : Reg) (v : Word256) : (s.setReg i v).mem = s.mem := rfl
@[simp] theorem State.setReg_inLen (s : State) (i : Reg) (v : Word256) : (s.setReg i v).inLen = s.inLen := rfl
@[simp] theorem State.setReg_outLen (s : State) (i : Reg) (v : Word256) : (s.setReg i v).outLen = s.outLen := rfl
@[simp] theorem State.setReg_ie (s : State) (i : Reg) (v : Word256) : (s.setReg i v).ie = s.ie := rfl
@[simp] theorem State.setReg_busy (s : State) (i : Reg) (v : Word256) : (s.setReg i v).busy = s.busy := rfl
@[simp] theorem State.setReg_done (s : State) (i : Reg) (v : Word256) : (s.setReg i v).done = s.done := rfl
@[simp] theorem State.setReg_result (s : State) (i : Reg) (v : Word256) : (s.setReg i v).result = s.result := rfl
@[simp] theorem State.setReg_werr (s : State) (i : Reg) (v : Word256) : (s.setReg i v).werr = s.werr := rfl
@[simp] theorem State.setReg_err (s : State) (i : Reg) (v : Word256) : (s.setReg i v).err = s.err := rfl
@[simp] theorem State.setReg_cmd (s : State) (i : Reg) (v : Word256) : (s.setReg i v).cmd = s.cmd := rfl
@[simp] theorem State.setReg_rstN (s : State) (i : Reg) (v : Word256) : (s.setReg i v).rstN = s.rstN := rfl
@[simp] theorem State.setReg_prdata (s : State) (i : Reg) (v : Word256) : (s.setReg i v).prdata = s.prdata := rfl
@[simp] theorem State.setReg_pslverr (s : State) (i : Reg) (v : Word256) : (s.setReg i v).pslverr = s.pslverr := rfl
@[simp] theorem State.setReg_inputs (s : State) (i : Reg) (v : Word256) : (s.setReg i v).inputs = s.inputs := rfl

/-! ### setOut -/

@[simp] theorem State.setOut_regs (s : State) (bytes : List Byte) : (s.setOut bytes).regs = s.regs := rfl
@[simp] theorem State.setOut_mem (s : State) (bytes : List Byte) :
    (s.setOut bytes).mem = writeBytes s.mem Config.outBase (outImage bytes) := rfl
@[simp] theorem State.setOut_inLen (s : State) (bytes : List Byte) : (s.setOut bytes).inLen = s.inLen := rfl
@[simp] theorem State.setOut_outLen (s : State) (bytes : List Byte) :
    (s.setOut bytes).outLen = BitVec.ofNat 8 bytes.length := rfl
@[simp] theorem State.setOut_ie (s : State) (bytes : List Byte) : (s.setOut bytes).ie = s.ie := rfl
@[simp] theorem State.setOut_busy (s : State) (bytes : List Byte) : (s.setOut bytes).busy = s.busy := rfl
@[simp] theorem State.setOut_done (s : State) (bytes : List Byte) : (s.setOut bytes).done = s.done := rfl
@[simp] theorem State.setOut_result (s : State) (bytes : List Byte) : (s.setOut bytes).result = s.result := rfl
@[simp] theorem State.setOut_werr (s : State) (bytes : List Byte) : (s.setOut bytes).werr = s.werr := rfl
@[simp] theorem State.setOut_err (s : State) (bytes : List Byte) : (s.setOut bytes).err = s.err := rfl
@[simp] theorem State.setOut_cmd (s : State) (bytes : List Byte) : (s.setOut bytes).cmd = s.cmd := rfl
@[simp] theorem State.setOut_rstN (s : State) (bytes : List Byte) : (s.setOut bytes).rstN = s.rstN := rfl
@[simp] theorem State.setOut_prdata (s : State) (bytes : List Byte) : (s.setOut bytes).prdata = s.prdata := rfl
@[simp] theorem State.setOut_pslverr (s : State) (bytes : List Byte) : (s.setOut bytes).pslverr = s.pslverr := rfl
@[simp] theorem State.setOut_inputs (s : State) (bytes : List Byte) : (s.setOut bytes).inputs = s.inputs := rfl

/-! ### accept -/

@[simp] theorem State.accept_regs (s : State) (w : Word) : (s.accept w).regs = s.regs := rfl
@[simp] theorem State.accept_mem (s : State) (w : Word) : (s.accept w).mem = s.mem := rfl
@[simp] theorem State.accept_inLen (s : State) (w : Word) : (s.accept w).inLen = s.inLen := rfl
@[simp] theorem State.accept_outLen (s : State) (w : Word) : (s.accept w).outLen = s.outLen := rfl
@[simp] theorem State.accept_ie (s : State) (w : Word) : (s.accept w).ie = s.ie := rfl
@[simp] theorem State.accept_busy (s : State) (w : Word) : (s.accept w).busy = true := rfl
@[simp] theorem State.accept_done (s : State) (w : Word) : (s.accept w).done = false := rfl
@[simp] theorem State.accept_result (s : State) (w : Word) : (s.accept w).result = false := rfl
@[simp] theorem State.accept_werr (s : State) (w : Word) : (s.accept w).werr = s.werr := rfl
@[simp] theorem State.accept_err (s : State) (w : Word) : (s.accept w).err = .ok := rfl
@[simp] theorem State.accept_cmd (s : State) (w : Word) : (s.accept w).cmd = w := rfl
@[simp] theorem State.accept_rstN (s : State) (w : Word) : (s.accept w).rstN = s.rstN := rfl
@[simp] theorem State.accept_prdata (s : State) (w : Word) : (s.accept w).prdata = s.prdata := rfl
@[simp] theorem State.accept_pslverr (s : State) (w : Word) : (s.accept w).pslverr = s.pslverr := rfl
@[simp] theorem State.accept_inputs (s : State) (w : Word) : (s.accept w).inputs = s.inputs := rfl

/-! ### finish -/

@[simp] theorem State.finish_regs (s : State) (c : ErrCode) (r : Bool) : (s.finish c r).regs = s.regs := rfl
@[simp] theorem State.finish_mem (s : State) (c : ErrCode) (r : Bool) : (s.finish c r).mem = s.mem := rfl
@[simp] theorem State.finish_inLen (s : State) (c : ErrCode) (r : Bool) : (s.finish c r).inLen = s.inLen := rfl
@[simp] theorem State.finish_outLen (s : State) (c : ErrCode) (r : Bool) : (s.finish c r).outLen = s.outLen := rfl
@[simp] theorem State.finish_ie (s : State) (c : ErrCode) (r : Bool) : (s.finish c r).ie = s.ie := rfl
@[simp] theorem State.finish_busy (s : State) (c : ErrCode) (r : Bool) : (s.finish c r).busy = false := rfl
@[simp] theorem State.finish_done (s : State) (c : ErrCode) (r : Bool) : (s.finish c r).done = true := rfl
@[simp] theorem State.finish_result (s : State) (c : ErrCode) (r : Bool) : (s.finish c r).result = r := rfl
@[simp] theorem State.finish_werr (s : State) (c : ErrCode) (r : Bool) : (s.finish c r).werr = s.werr := rfl
@[simp] theorem State.finish_err (s : State) (c : ErrCode) (r : Bool) : (s.finish c r).err = c := rfl
@[simp] theorem State.finish_cmd (s : State) (c : ErrCode) (r : Bool) : (s.finish c r).cmd = s.cmd := rfl
@[simp] theorem State.finish_rstN (s : State) (c : ErrCode) (r : Bool) : (s.finish c r).rstN = s.rstN := rfl
@[simp] theorem State.finish_prdata (s : State) (c : ErrCode) (r : Bool) : (s.finish c r).prdata = s.prdata := rfl
@[simp] theorem State.finish_pslverr (s : State) (c : ErrCode) (r : Bool) : (s.finish c r).pslverr = s.pslverr := rfl
@[simp] theorem State.finish_inputs (s : State) (c : ErrCode) (r : Bool) : (s.finish c r).inputs = s.inputs := rfl

/-! ### clearStatus -/

@[simp] theorem State.clearStatus_regs (s : State) (w : Word) : (s.clearStatus w).regs = s.regs := rfl
@[simp] theorem State.clearStatus_mem (s : State) (w : Word) : (s.clearStatus w).mem = s.mem := rfl
@[simp] theorem State.clearStatus_inLen (s : State) (w : Word) : (s.clearStatus w).inLen = s.inLen := rfl
@[simp] theorem State.clearStatus_outLen (s : State) (w : Word) : (s.clearStatus w).outLen = s.outLen := rfl
@[simp] theorem State.clearStatus_ie (s : State) (w : Word) : (s.clearStatus w).ie = s.ie := rfl
@[simp] theorem State.clearStatus_busy (s : State) (w : Word) : (s.clearStatus w).busy = s.busy := rfl
@[simp] theorem State.clearStatus_done (s : State) (w : Word) :
    (s.clearStatus w).done = (s.done && !w.getLsbD 1) := rfl
@[simp] theorem State.clearStatus_result (s : State) (w : Word) : (s.clearStatus w).result = s.result := rfl
@[simp] theorem State.clearStatus_werr (s : State) (w : Word) :
    (s.clearStatus w).werr = (s.werr && !w.getLsbD 3) := rfl
@[simp] theorem State.clearStatus_err (s : State) (w : Word) : (s.clearStatus w).err = s.err := rfl
@[simp] theorem State.clearStatus_cmd (s : State) (w : Word) : (s.clearStatus w).cmd = s.cmd := rfl
@[simp] theorem State.clearStatus_rstN (s : State) (w : Word) : (s.clearStatus w).rstN = s.rstN := rfl
@[simp] theorem State.clearStatus_prdata (s : State) (w : Word) : (s.clearStatus w).prdata = s.prdata := rfl
@[simp] theorem State.clearStatus_pslverr (s : State) (w : Word) : (s.clearStatus w).pslverr = s.pslverr := rfl
@[simp] theorem State.clearStatus_inputs (s : State) (w : Word) : (s.clearStatus w).inputs = s.inputs := rfl

/-! ### dropWrite -/

@[simp] theorem State.dropWrite_regs (s : State) : (s.dropWrite).regs = s.regs := rfl
@[simp] theorem State.dropWrite_mem (s : State) : (s.dropWrite).mem = s.mem := rfl
@[simp] theorem State.dropWrite_inLen (s : State) : (s.dropWrite).inLen = s.inLen := rfl
@[simp] theorem State.dropWrite_outLen (s : State) : (s.dropWrite).outLen = s.outLen := rfl
@[simp] theorem State.dropWrite_ie (s : State) : (s.dropWrite).ie = s.ie := rfl
@[simp] theorem State.dropWrite_busy (s : State) : (s.dropWrite).busy = s.busy := rfl
@[simp] theorem State.dropWrite_done (s : State) : (s.dropWrite).done = s.done := rfl
@[simp] theorem State.dropWrite_result (s : State) : (s.dropWrite).result = s.result := rfl
@[simp] theorem State.dropWrite_werr (s : State) : (s.dropWrite).werr = true := rfl
@[simp] theorem State.dropWrite_err (s : State) : (s.dropWrite).err = s.err := rfl
@[simp] theorem State.dropWrite_cmd (s : State) : (s.dropWrite).cmd = s.cmd := rfl
@[simp] theorem State.dropWrite_rstN (s : State) : (s.dropWrite).rstN = s.rstN := rfl
@[simp] theorem State.dropWrite_prdata (s : State) : (s.dropWrite).prdata = s.prdata := rfl
@[simp] theorem State.dropWrite_pslverr (s : State) : (s.dropWrite).pslverr = s.pslverr := rfl
@[simp] theorem State.dropWrite_inputs (s : State) : (s.dropWrite).inputs = s.inputs := rfl

/-! ### setIe -/

@[simp] theorem State.setIe_regs (s : State) (on : Bool) : (s.setIe on).regs = s.regs := rfl
@[simp] theorem State.setIe_mem (s : State) (on : Bool) : (s.setIe on).mem = s.mem := rfl
@[simp] theorem State.setIe_inLen (s : State) (on : Bool) : (s.setIe on).inLen = s.inLen := rfl
@[simp] theorem State.setIe_outLen (s : State) (on : Bool) : (s.setIe on).outLen = s.outLen := rfl
@[simp] theorem State.setIe_ie (s : State) (on : Bool) : (s.setIe on).ie = on := rfl
@[simp] theorem State.setIe_busy (s : State) (on : Bool) : (s.setIe on).busy = s.busy := rfl
@[simp] theorem State.setIe_done (s : State) (on : Bool) : (s.setIe on).done = s.done := rfl
@[simp] theorem State.setIe_result (s : State) (on : Bool) : (s.setIe on).result = s.result := rfl
@[simp] theorem State.setIe_werr (s : State) (on : Bool) : (s.setIe on).werr = s.werr := rfl
@[simp] theorem State.setIe_err (s : State) (on : Bool) : (s.setIe on).err = s.err := rfl
@[simp] theorem State.setIe_cmd (s : State) (on : Bool) : (s.setIe on).cmd = s.cmd := rfl
@[simp] theorem State.setIe_rstN (s : State) (on : Bool) : (s.setIe on).rstN = s.rstN := rfl
@[simp] theorem State.setIe_prdata (s : State) (on : Bool) : (s.setIe on).prdata = s.prdata := rfl
@[simp] theorem State.setIe_pslverr (s : State) (on : Bool) : (s.setIe on).pslverr = s.pslverr := rfl
@[simp] theorem State.setIe_inputs (s : State) (on : Bool) : (s.setIe on).inputs = s.inputs := rfl

/-! ### setSlverr -/

@[simp] theorem State.setSlverr_regs (s : State) (e : Bool) : (s.setSlverr e).regs = s.regs := rfl
@[simp] theorem State.setSlverr_mem (s : State) (e : Bool) : (s.setSlverr e).mem = s.mem := rfl
@[simp] theorem State.setSlverr_inLen (s : State) (e : Bool) : (s.setSlverr e).inLen = s.inLen := rfl
@[simp] theorem State.setSlverr_outLen (s : State) (e : Bool) : (s.setSlverr e).outLen = s.outLen := rfl
@[simp] theorem State.setSlverr_ie (s : State) (e : Bool) : (s.setSlverr e).ie = s.ie := rfl
@[simp] theorem State.setSlverr_busy (s : State) (e : Bool) : (s.setSlverr e).busy = s.busy := rfl
@[simp] theorem State.setSlverr_done (s : State) (e : Bool) : (s.setSlverr e).done = s.done := rfl
@[simp] theorem State.setSlverr_result (s : State) (e : Bool) : (s.setSlverr e).result = s.result := rfl
@[simp] theorem State.setSlverr_werr (s : State) (e : Bool) : (s.setSlverr e).werr = s.werr := rfl
@[simp] theorem State.setSlverr_err (s : State) (e : Bool) : (s.setSlverr e).err = s.err := rfl
@[simp] theorem State.setSlverr_cmd (s : State) (e : Bool) : (s.setSlverr e).cmd = s.cmd := rfl
@[simp] theorem State.setSlverr_rstN (s : State) (e : Bool) : (s.setSlverr e).rstN = s.rstN := rfl
@[simp] theorem State.setSlverr_prdata (s : State) (e : Bool) : (s.setSlverr e).prdata = s.prdata := rfl
@[simp] theorem State.setSlverr_pslverr (s : State) (e : Bool) : (s.setSlverr e).pslverr = e := rfl
@[simp] theorem State.setSlverr_inputs (s : State) (e : Bool) : (s.setSlverr e).inputs = s.inputs := rfl

/-! ### resetBlock -/

@[simp] theorem State.resetBlock_regs (s : State) : (s.resetBlock).regs = State.reset.regs := rfl
@[simp] theorem State.resetBlock_mem (s : State) : (s.resetBlock).mem = State.reset.mem := rfl
@[simp] theorem State.resetBlock_inLen (s : State) : (s.resetBlock).inLen = State.reset.inLen := rfl
@[simp] theorem State.resetBlock_outLen (s : State) : (s.resetBlock).outLen = State.reset.outLen := rfl
@[simp] theorem State.resetBlock_ie (s : State) : (s.resetBlock).ie = State.reset.ie := rfl
@[simp] theorem State.resetBlock_busy (s : State) : (s.resetBlock).busy = State.reset.busy := rfl
@[simp] theorem State.resetBlock_done (s : State) : (s.resetBlock).done = State.reset.done := rfl
@[simp] theorem State.resetBlock_result (s : State) : (s.resetBlock).result = State.reset.result := rfl
@[simp] theorem State.resetBlock_werr (s : State) : (s.resetBlock).werr = State.reset.werr := rfl
@[simp] theorem State.resetBlock_err (s : State) : (s.resetBlock).err = State.reset.err := rfl
@[simp] theorem State.resetBlock_cmd (s : State) : (s.resetBlock).cmd = State.reset.cmd := rfl
@[simp] theorem State.resetBlock_rstN (s : State) : (s.resetBlock).rstN = s.rstN := rfl
@[simp] theorem State.resetBlock_prdata (s : State) : (s.resetBlock).prdata = s.prdata := rfl
@[simp] theorem State.resetBlock_pslverr (s : State) : (s.resetBlock).pslverr = s.pslverr := rfl
@[simp] theorem State.resetBlock_inputs (s : State) : (s.resetBlock).inputs = s.inputs := rfl

/-! ### assertReset -/

@[simp] theorem State.assertReset_regs (s : State) : (s.assertReset).regs = State.reset.regs := rfl
@[simp] theorem State.assertReset_mem (s : State) : (s.assertReset).mem = State.reset.mem := rfl
@[simp] theorem State.assertReset_inLen (s : State) : (s.assertReset).inLen = State.reset.inLen := rfl
@[simp] theorem State.assertReset_outLen (s : State) : (s.assertReset).outLen = State.reset.outLen := rfl
@[simp] theorem State.assertReset_ie (s : State) : (s.assertReset).ie = State.reset.ie := rfl
@[simp] theorem State.assertReset_busy (s : State) : (s.assertReset).busy = State.reset.busy := rfl
@[simp] theorem State.assertReset_done (s : State) : (s.assertReset).done = State.reset.done := rfl
@[simp] theorem State.assertReset_result (s : State) : (s.assertReset).result = State.reset.result := rfl
@[simp] theorem State.assertReset_werr (s : State) : (s.assertReset).werr = State.reset.werr := rfl
@[simp] theorem State.assertReset_err (s : State) : (s.assertReset).err = State.reset.err := rfl
@[simp] theorem State.assertReset_cmd (s : State) : (s.assertReset).cmd = State.reset.cmd := rfl
@[simp] theorem State.assertReset_rstN (s : State) : (s.assertReset).rstN = false := rfl
@[simp] theorem State.assertReset_prdata (s : State) : (s.assertReset).prdata = s.prdata := rfl
@[simp] theorem State.assertReset_pslverr (s : State) : (s.assertReset).pslverr = s.pslverr := rfl
@[simp] theorem State.assertReset_inputs (s : State) : (s.assertReset).inputs = s.inputs := rfl

/-! ### releaseReset -/

@[simp] theorem State.releaseReset_regs (s : State) : (s.releaseReset).regs = s.regs := rfl
@[simp] theorem State.releaseReset_mem (s : State) : (s.releaseReset).mem = s.mem := rfl
@[simp] theorem State.releaseReset_inLen (s : State) : (s.releaseReset).inLen = s.inLen := rfl
@[simp] theorem State.releaseReset_outLen (s : State) : (s.releaseReset).outLen = s.outLen := rfl
@[simp] theorem State.releaseReset_ie (s : State) : (s.releaseReset).ie = s.ie := rfl
@[simp] theorem State.releaseReset_busy (s : State) : (s.releaseReset).busy = s.busy := rfl
@[simp] theorem State.releaseReset_done (s : State) : (s.releaseReset).done = s.done := rfl
@[simp] theorem State.releaseReset_result (s : State) : (s.releaseReset).result = s.result := rfl
@[simp] theorem State.releaseReset_werr (s : State) : (s.releaseReset).werr = s.werr := rfl
@[simp] theorem State.releaseReset_err (s : State) : (s.releaseReset).err = s.err := rfl
@[simp] theorem State.releaseReset_cmd (s : State) : (s.releaseReset).cmd = s.cmd := rfl
@[simp] theorem State.releaseReset_rstN (s : State) : (s.releaseReset).rstN = true := rfl
@[simp] theorem State.releaseReset_prdata (s : State) : (s.releaseReset).prdata = s.prdata := rfl
@[simp] theorem State.releaseReset_pslverr (s : State) : (s.releaseReset).pslverr = s.pslverr := rfl
@[simp] theorem State.releaseReset_inputs (s : State) : (s.releaseReset).inputs = s.inputs := rfl

/-! ### setInputs -/

@[simp] theorem State.setInputs_regs (s : State) (evs : List HostEvent) : (s.setInputs evs).regs = s.regs := rfl
@[simp] theorem State.setInputs_mem (s : State) (evs : List HostEvent) : (s.setInputs evs).mem = s.mem := rfl
@[simp] theorem State.setInputs_inLen (s : State) (evs : List HostEvent) : (s.setInputs evs).inLen = s.inLen := rfl
@[simp] theorem State.setInputs_outLen (s : State) (evs : List HostEvent) : (s.setInputs evs).outLen = s.outLen := rfl
@[simp] theorem State.setInputs_ie (s : State) (evs : List HostEvent) : (s.setInputs evs).ie = s.ie := rfl
@[simp] theorem State.setInputs_busy (s : State) (evs : List HostEvent) : (s.setInputs evs).busy = s.busy := rfl
@[simp] theorem State.setInputs_done (s : State) (evs : List HostEvent) : (s.setInputs evs).done = s.done := rfl
@[simp] theorem State.setInputs_result (s : State) (evs : List HostEvent) : (s.setInputs evs).result = s.result := rfl
@[simp] theorem State.setInputs_werr (s : State) (evs : List HostEvent) : (s.setInputs evs).werr = s.werr := rfl
@[simp] theorem State.setInputs_err (s : State) (evs : List HostEvent) : (s.setInputs evs).err = s.err := rfl
@[simp] theorem State.setInputs_cmd (s : State) (evs : List HostEvent) : (s.setInputs evs).cmd = s.cmd := rfl
@[simp] theorem State.setInputs_rstN (s : State) (evs : List HostEvent) : (s.setInputs evs).rstN = s.rstN := rfl
@[simp] theorem State.setInputs_prdata (s : State) (evs : List HostEvent) : (s.setInputs evs).prdata = s.prdata := rfl
@[simp] theorem State.setInputs_pslverr (s : State) (evs : List HostEvent) :
    (s.setInputs evs).pslverr = s.pslverr := rfl
@[simp] theorem State.setInputs_inputs (s : State) (evs : List HostEvent) : (s.setInputs evs).inputs = evs := rfl

/-! ### Registers -/

/-- Read after write, one register. -/
@[simp] theorem State.reg_setReg (s : State) (i j : Reg) (v : Word256) :
    (s.setReg i v).reg j = if i = j then v else s.reg j := by
  unfold State.reg State.setReg
  by_cases h : i = j
  · subst h; simp
  · have : i.val ≠ j.val := fun e => h (Fin.ext e)
    simp [h, this]

@[simp] theorem State.regVal_setReg (s : State) (i j : Reg) (v : Word256) :
    (s.setReg i v).regVal j = if i = j then v.toNat else s.regVal j := by
  unfold State.regVal
  rw [State.reg_setReg]
  split <;> rfl

@[simp] theorem State.reg_finish (s : State) (c : ErrCode) (r : Bool) (i : Reg) : (s.finish c r).reg i = s.reg i := rfl
@[simp] theorem State.regVal_finish (s : State) (c : ErrCode) (r : Bool) (i : Reg) :
    (s.finish c r).regVal i = s.regVal i := rfl
@[simp] theorem State.reg_setInputs (s : State) (evs : List HostEvent) (i : Reg) :
    (s.setInputs evs).reg i = s.reg i := rfl
@[simp] theorem State.regVal_setInputs (s : State) (evs : List HostEvent) (i : Reg) :
    (s.setInputs evs).regVal i = s.regVal i := rfl
@[simp] theorem State.inFlight_setInputs (s : State) (evs : List HostEvent) :
    (s.setInputs evs).inFlight = s.inFlight := rfl
@[simp] theorem State.reg_setOut (s : State) (b : List Byte) (i : Reg) : (s.setOut b).reg i = s.reg i := rfl
@[simp] theorem State.regVal_setOut (s : State) (b : List Byte) (i : Reg) : (s.setOut b).regVal i = s.regVal i := rfl
@[simp] theorem State.reg_accept (s : State) (w : Word) (i : Reg) : (s.accept w).reg i = s.reg i := rfl
@[simp] theorem State.regVal_accept (s : State) (w : Word) (i : Reg) : (s.accept w).regVal i = s.regVal i := rfl

/-- Every register of reset is 0 (R330). -/
@[simp] theorem State.reg_reset (i : Reg) : State.reset.reg i = 0 := by
  simp [State.reg, State.reset]

theorem State.regVal_lt (s : State) (i : Reg) : s.regVal i < 2 ^ 256 := (s.reg i).isLt

/-- A number in [0, 2^256) is held exactly. -/
theorem State.regVal_setRegVal (s : State) (i j : Reg) {v : Nat} (h : v < 2 ^ 256) :
    (s.setRegVal i v).regVal j = if i = j then v else s.regVal j := by
  unfold State.setRegVal
  rw [State.regVal_setReg, BitVec.toNat_ofNat, Nat.mod_eq_of_lt h]

@[simp] theorem State.reg_setRegVal (s : State) (i j : Reg) (v : Nat) :
    (s.setRegVal i v).reg j = if i = j then BitVec.ofNat 256 v else s.reg j := State.reg_setReg s i j _

/-- The two registers of a pair are different ones. -/
theorem pairSecond_ne (i : Reg) : pairSecond i ≠ i := by revert i; decide

/-- The second register of a legal pair is the next one (R94). -/
theorem pairSecond_val (i : Reg) (h : i.pairLegal = true) : (pairSecond i).val = i.val + 1 := by
  revert i; decide

/-- A pair of numbers in [0, 2^256) is held exactly. -/
theorem State.pairVal_setPairVal (s : State) (i : Reg) {xy : Nat × Nat} (hx : xy.1 < 2 ^ 256) (hy : xy.2 < 2 ^ 256) :
    (s.setPairVal i xy).pairVal i = xy := by
  have hne := pairSecond_ne i
  unfold State.setPairVal State.pairVal
  rw [State.regVal_setRegVal _ _ _ hy, State.regVal_setRegVal _ _ _ hx, State.regVal_setRegVal _ _ _ hy]
  simp [hne]

/-- A pair write leaves every other register. -/
theorem State.reg_setPairVal_other (s : State) (i j : Reg) (xy : Nat × Nat) (h1 : i ≠ j) (h2 : pairSecond i ≠ j) :
    (s.setPairVal i xy).reg j = s.reg j := by
  simp [State.setPairVal, h1, h2]

end Sys2Proof.Machine
end

