-- ==== Sys2Proof/Laws/Ops.lean ====
section
/-! SUPPORT. What each shared operation of the commands can do, said once: a completion, an error, a register result, a
pair result, an output result; and the one inversion of exec. -/

namespace Sys2Proof.Machine

@[simp] theorem complete_eq (res : Bool) (s : State) : complete res s = .next (s.finish .ok res) := rfl

@[simp] theorem raise_eq (code : ErrCode) (s : State) : raise code s = .next (s.finish code false) := rfl

/-- With legal pairs the check passes (R102). -/
theorem withPairs_legal {pairs : List Reg} (h : pairs.all Reg.pairLegal = true) (s : State) (run : CmdOutcome) :
    withPairs pairs s run = run := if_pos h

/-- With a pair of first register 7 the command completes with ERR_ILLEGAL (R94). -/
theorem withPairs_illegal {pairs : List Reg} (h : pairs.all Reg.pairLegal = false) (s : State) (run : CmdOutcome) :
    withPairs pairs s run = .next (s.finish .illegal false) := by
  unfold withPairs
  rw [if_neg (by simp [h])]
  rfl

/-! ### The output buffer -/

@[simp] theorem outImage_length (bytes : List Byte) : (outImage bytes).length = Config.outSize := by
  unfold outImage
  rw [List.length_take, List.length_append, List.length_replicate]
  omega

theorem outImage_getD (bytes : List Byte) (j : Nat) (h : j < Config.outSize) :
    (outImage bytes).getD j 0 = bytes.getD j 0 := by
  unfold outImage
  simp only [List.getD_eq_getElem?_getD, List.getElem?_take, h, if_true, List.getElem?_append, List.getElem?_replicate]
  by_cases hb : j < bytes.length
  · simp [hb]
  · simp only [hb, if_false, List.getElem?_eq_none (Nat.le_of_not_lt hb)]
    split <;> rfl

/-- A byte of OUT_BUF after an output: the string, then 0x00 (R39). -/
theorem State.outByte_setOut (s : State) (bytes : List Byte) (j : Nat) (hj : j < Config.outSize)
    (hwf : s.mem.wf = true) : (s.setOut bytes).outByte j = bytes.getD j 0 := by
  unfold State.outByte
  rw [State.setOut_mem, readByte_writeBytes _ _ _ hwf, outImage_length, if_pos (by omega),
    show Config.outBase + j - Config.outBase = j by omega, outImage_getD bytes j hj]

/-- Every other byte of memory is as before. -/
theorem State.readByte_setOut_other (s : State) (bytes : List Byte) (addr : Nat) (h : inOutBuf addr = false)
    (hwf : s.mem.wf = true) : readByte (s.setOut bytes).mem addr = readByte s.mem addr := by
  rw [State.setOut_mem, readByte_writeBytes _ _ _ hwf, outImage_length, if_neg]
  intro hc
  simp only [inOutBuf, Bool.and_eq_false_iff, decide_eq_false_iff_not] at h
  omega

/-! ### Whole results -/

/-- A register result. -/
theorem regResult_finish (s : State) (rd : Reg) (v : Nat) (res : Bool) (hv : v < 2 ^ 256) :
    RegResult s ((s.setRegVal rd v).finish .ok res) rd v res := by
  refine ⟨⟨rfl, rfl, rfl, rfl, ⟨rfl, rfl, rfl, rfl, rfl, rfl, rfl, rfl⟩⟩, ?_, ?_, rfl, fun _ => rfl⟩
  · rw [State.regVal_finish, State.regVal_setRegVal _ _ _ hv, if_pos rfl]
  · intro i hi
    rw [State.reg_finish, State.reg_setRegVal, if_neg]
    rintro rfl
    simp at hi

/-- A pair result. -/
theorem pairResult_finish (s : State) (prd : Reg) (q : Nat × Nat) (hx : q.1 < 2 ^ 256) (hy : q.2 < 2 ^ 256) :
    PairResult s ((s.setPairVal prd q).finish .ok false) prd q := by
  refine ⟨⟨rfl, rfl, rfl, rfl, ⟨rfl, rfl, rfl, rfl, rfl, rfl, rfl, rfl⟩⟩, ?_, ?_, rfl, fun _ => rfl⟩
  · exact State.pairVal_setPairVal s prd hx hy
  · intro i hi
    rw [State.reg_finish, State.reg_setPairVal_other]
    · rintro rfl; simp at hi
    · rintro rfl; simp at hi

/-- An output result. -/
theorem outResult_finish (s : State) (bytes : List Byte) (hlen : bytes.length ≤ Config.outSize)
    (hwf : s.mem.wf = true) : OutResult s ((s.setOut bytes).finish .ok false) bytes := by
  refine ⟨⟨rfl, rfl, rfl, rfl, ⟨rfl, rfl, rfl, rfl, rfl, rfl, rfl, rfl⟩⟩, ⟨?_, ?_, ?_⟩, fun _ _ => rfl⟩
  · rw [State.finish_outLen, State.setOut_outLen, BitVec.toNat_ofNat, Nat.mod_eq_of_lt]
    exact lt_of_le_of_lt hlen (by decide)
  · intro j hj
    exact State.outByte_setOut s bytes j hj hwf
  · intro addr h
    exact State.readByte_setOut_other s bytes addr h hwf

/-! ### What a command can do -/

/-- A compressed key is 33 bytes (R222). -/
@[simp] theorem compressedKey_length (xy : Nat × Nat) : (compressedKey xy).length = 33 := by simp [compressedKey]

/-- An uncompressed key is 65 bytes (R221). -/
@[simp] theorem uncompressedKey_length (xy : Nat × Nat) : (uncompressedKey xy).length = 65 := by simp [uncompressedKey]

/-- The inversion of exec: a command ends in an error that writes nothing but STATUS, or in one register, one pair, one
output string, or a pair and an output string, with the STATUS of R301. -/
theorem exec_inversion {i : Instr} {s t : State} (h : exec i s = .next t) :
    (∃ c, c ≠ .ok ∧ t = s.finish c false) ∨
    (∃ rd v res, t = (s.setRegVal rd v).finish .ok res ∧ destinations i = [rd] ∧ writesOut i = false ∧
      (hasBooleanResult i = false → res = false)) ∨
    (∃ prd q, t = (s.setPairVal prd q).finish .ok false ∧ destinations i = [prd, pairSecond prd] ∧
      writesOut i = false) ∨
    (∃ bytes, t = (s.setOut bytes).finish .ok false ∧ destinations i = [] ∧ writesOut i = true ∧
      3 ≤ bytes.length ∧ bytes.length ≤ 72) ∨
    (∃ prd q bytes, t = ((s.setPairVal prd q).setOut bytes).finish .ok false ∧
      destinations i = [prd, pairSecond prd] ∧ writesOut i = true ∧ 3 ≤ bytes.length ∧ bytes.length ≤ 72) := by
  have err : ∀ {c : ErrCode}, c ≠ .ok → Host.Outcome.next (s.finish c false) = (.next t : CmdOutcome) →
      ∃ c, c ≠ .ok ∧ t = s.finish c false := fun hc e => ⟨_, hc, (Host.Outcome.next.inj e).symm⟩
  have hbin : ∀ f rd rs1 rs2 m, binaryModular f rd rs1 rs2 m s = .next t →
      (∃ c, c ≠ .ok ∧ t = s.finish c false) ∨ ∃ v, t = (s.setRegVal rd v).finish .ok false := by
    intro f rd rs1 rs2 m hb
    unfold binaryModular at hb
    split at hb
    · exact .inl (err (by decide) hb)
    · exact .inr ⟨_, (Host.Outcome.next.inj hb).symm⟩
  have hreg : ∀ {rd v res}, Host.Outcome.next ((s.setRegVal rd v).finish .ok res) = (.next t : CmdOutcome) →
      t = (s.setRegVal rd v).finish .ok res := fun e => (Host.Outcome.next.inj e).symm
  cases i with
  | madd rd rs1 rs2 m =>
    rcases hbin _ _ _ _ _ h with h | ⟨v, h⟩
    exacts [.inl h, .inr (.inl ⟨rd, v, false, h, rfl, rfl, fun _ => rfl⟩)]
  | msub rd rs1 rs2 m =>
    rcases hbin _ _ _ _ _ h with h | ⟨v, h⟩
    exacts [.inl h, .inr (.inl ⟨rd, v, false, h, rfl, rfl, fun _ => rfl⟩)]
  | mmul rd rs1 rs2 m =>
    rcases hbin _ _ _ _ _ h with h | ⟨v, h⟩
    exacts [.inl h, .inr (.inl ⟨rd, v, false, h, rfl, rfl, fun _ => rfl⟩)]
  | montmul rd rs1 rs2 m =>
    rcases hbin _ _ _ _ _ h with h | ⟨v, h⟩
    exacts [.inl h, .inr (.inl ⟨rd, v, false, h, rfl, rfl, fun _ => rfl⟩)]
  | minv rd rs1 m v =>
    simp only [exec, execMinv, raise_eq, complete_eq] at h
    split at h
    · exact .inl (err (by decide) h)
    · split at h
      · exact .inl (err (by decide) h)
      · exact .inr (.inl ⟨rd, _, _, hreg h, rfl, rfl, fun _ => rfl⟩)
  | mred rd rs1 m => exact .inr (.inl ⟨rd, _, _, hreg h, rfl, rfl, fun _ => rfl⟩)
  | ldc rd k => exact .inr (.inl ⟨rd, _, _, hreg h, rfl, rfl, fun _ => rfl⟩)
  | pvalid rd prs1 =>
    simp only [exec, execPvalid, withPairs, raise_eq, complete_eq] at h
    split at h
    · exact .inr (.inl ⟨rd, _, _, hreg h, rfl, rfl, fun hc => absurd hc (by simp [hasBooleanResult])⟩)
    · exact .inl (err (by decide) h)
  | padd prd prs1 prs2 =>
    simp only [exec, execPadd, withPairs, raise_eq, complete_eq] at h
    split at h
    · split at h
      · exact .inl (err (by decide) h)
      · split at h
        · exact .inl (err (by decide) h)
        · exact .inr (.inr (.inl ⟨prd, _, (Host.Outcome.next.inj h).symm, rfl, rfl⟩))
    · exact .inl (err (by decide) h)
  | pdbl prd prs1 =>
    simp only [exec, execPdbl, withPairs, raise_eq, complete_eq] at h
    split at h
    · split at h
      · exact .inl (err (by decide) h)
      · exact .inr (.inr (.inl ⟨prd, _, (Host.Outcome.next.inj h).symm, rfl, rfl⟩))
    · exact .inl (err (by decide) h)
  | pmul prd prs1 rs2 =>
    simp only [exec, execPmul, withPairs, raise_eq, complete_eq] at h
    split at h
    · split at h
      · exact .inl (err (by decide) h)
      · exact .inr (.inr (.inl ⟨prd, _, (Host.Outcome.next.inj h).symm, rfl, rfl⟩))
    · exact .inl (err (by decide) h)
  | decomp prd =>
    simp only [exec, execDecomp, withPairs, raise_eq, complete_eq] at h
    split at h
    · split at h
      · exact .inl (err (by decide) h)
      · split at h
        · exact .inl (err (by decide) h)
        · exact .inr (.inr (.inr (.inr ⟨prd, _, _, (Host.Outcome.next.inj h).symm, rfl, rfl, by simp, by simp⟩)))
    · exact .inl (err (by decide) h)
  | compress prs1 =>
    simp only [exec, execCompress, withPairs, raise_eq, complete_eq] at h
    split at h
    · exact .inr (.inr (.inr (.inl ⟨_, (Host.Outcome.next.inj h).symm, rfl, rfl, by simp, by simp⟩)))
    · exact .inl (err (by decide) h)
  | derint rs1 =>
    have := derInt_length _ (s.regVal_lt rs1)
    exact .inr (.inr (.inr (.inl ⟨_, (Host.Outcome.next.inj h).symm, rfl, rfl, by omega, by omega⟩)))
  | dersig rs1 rs2 =>
    have := derSig_length _ _ (s.regVal_lt rs1) (s.regVal_lt rs2)
    exact .inr (.inr (.inr (.inl ⟨_, (Host.Outcome.next.inj h).symm, rfl, rfl, by omega, by omega⟩)))
  | verify rd => exact .inr (.inl ⟨rd, _, _, hreg h, rfl, rfl, fun hc => absurd hc (by simp [hasBooleanResult])⟩)
  | verifyabi rd => exact .inr (.inl ⟨rd, _, _, hreg h, rfl, rfl, fun hc => absurd hc (by simp [hasBooleanResult])⟩)

end Sys2Proof.Machine
end

