-- ==== Sys2Proof/Laws/PerInstr.lean ====
section
/-! SUPPORT. Statements made for every command, one lemma per constructor (LAWS.json). -/

-- One theorem at a time: each closed evaluation would otherwise hold a thread of its own while it waits.
set_option Elab.async false

namespace Sys2Proof.Laws.EncodedWordFitsRow

/-- The word of a command has the fixed bits of its opcode's row in the table (R100). -/
def Statement (i : Instr) : Prop := i.opcode.row.fits (encode i) = true

theorem madd (rd rs1 rs2 : Reg) (m : Modulus) : Statement (.madd rd rs1 rs2 m) := by
  cases m <;> (revert rd rs1 rs2; unfold Statement; decide +kernel)

theorem msub (rd rs1 rs2 : Reg) (m : Modulus) : Statement (.msub rd rs1 rs2 m) := by
  cases m <;> (revert rd rs1 rs2; unfold Statement; decide +kernel)

theorem mmul (rd rs1 rs2 : Reg) (m : Modulus) : Statement (.mmul rd rs1 rs2 m) := by
  cases m <;> (revert rd rs1 rs2; unfold Statement; decide +kernel)

theorem montmul (rd rs1 rs2 : Reg) (m : Modulus) : Statement (.montmul rd rs1 rs2 m) := by
  cases m <;> (revert rd rs1 rs2; unfold Statement; decide +kernel)

theorem minv (rd rs1 : Reg) (m : Modulus) (v : InvMethod) : Statement (.minv rd rs1 m v) := by
  cases m <;> cases v <;> (revert rd rs1; unfold Statement; decide +kernel)

theorem mred (rd rs1 : Reg) (m : Modulus) : Statement (.mred rd rs1 m) := by
  cases m <;> (revert rd rs1; unfold Statement; decide +kernel)

theorem ldc (rd : Reg) (k : ConstName) : Statement (.ldc rd k) := by
  cases k <;> (revert rd; unfold Statement; decide +kernel)

theorem pvalid (rd prs1 : Reg) : Statement (.pvalid rd prs1) := by
  revert rd prs1; unfold Statement; decide +kernel

theorem padd (prd prs1 prs2 : Reg) : Statement (.padd prd prs1 prs2) := by
  revert prd prs1 prs2; unfold Statement; decide +kernel

theorem pdbl (prd prs1 : Reg) : Statement (.pdbl prd prs1) := by
  revert prd prs1; unfold Statement; decide +kernel

theorem pmul (prd prs1 rs2 : Reg) : Statement (.pmul prd prs1 rs2) := by
  revert prd prs1 rs2; unfold Statement; decide +kernel

theorem decomp (prd : Reg) : Statement (.decomp prd) := by
  revert prd; unfold Statement; decide +kernel

theorem compress (prs1 : Reg) : Statement (.compress prs1) := by
  revert prs1; unfold Statement; decide +kernel

theorem derint (rs1 : Reg) : Statement (.derint rs1) := by
  revert rs1; unfold Statement; decide +kernel

theorem dersig (rs1 rs2 : Reg) : Statement (.dersig rs1 rs2) := by
  revert rs1 rs2; unfold Statement; decide +kernel

theorem verify (rd : Reg) : Statement (.verify rd) := by
  revert rd; unfold Statement; decide +kernel

theorem verifyabi (rd : Reg) : Statement (.verifyabi rd) := by
  revert rd; unfold Statement; decide +kernel

end Sys2Proof.Laws.EncodedWordFitsRow
end

