-- ==== Sys2Proof/Laws/Primality.lean ====
section
/-! SUPPORT. p and n are prime (00_scope.md R3, R7: "passes" only a probabilistic test there; proved here by Lucas
certificates, each prime factor above 5000 certified in turn). -/

-- One theorem at a time: each closed evaluation would otherwise hold a thread of its own while it waits.
set_option Elab.async false

namespace Sys2Proof.Machine

/-- A Lucas certificate: `g` has order `q - 1` modulo `q`, shown by powers below the primes of `q - 1`. -/
theorem prime_of_certificate (q g : Nat) (factors : List Nat) (hq : 2 < q) (hsize : q < 2 ^ 256)
    (hprod : factors.prod = q - 1) (hprimes : ∀ r ∈ factors, r.Prime)
    (hone : powMod q g (q - 1) = 1) (hne : ∀ r ∈ factors, powMod q g ((q - 1) / r) ≠ 1) : q.Prime := by
  have cast : ∀ e : Nat, e < 2 ^ 256 → (((powMod q g e : Nat)) : ZMod q) = (g : ZMod q) ^ e := by
    intro e he
    rw [powMod_eq q g e he, ZMod.natCast_mod, Nat.cast_pow]
  have : Fact (1 < q) := ⟨by omega⟩
  refine lucas_primality q (g : ZMod q) ?_ ?_
  · rw [← cast _ (by omega), hone, Nat.cast_one]
  · intro r hr hdvd
    have hmem : r ∈ factors := by
      rw [← hprod] at hdvd
      obtain ⟨x, hx, hrx⟩ := (Prime.dvd_prod_iff hr.prime).1 hdvd
      rwa [(Nat.prime_dvd_prime_iff_eq hr (hprimes x hx)).1 hrx]
    have hlt : (q - 1) / r < 2 ^ 256 := lt_of_le_of_lt (Nat.div_le_self _ _) (by omega)
    rw [← cast _ hlt]
    intro h
    refine hne r hmem ?_
    have hlt' : powMod q g ((q - 1) / r) < q := powMod_lt q g _ (by omega)
    have := congrArg ZMod.val h
    rwa [ZMod.val_natCast_of_lt hlt', ZMod.val_one] at this

theorem prime_9547 : Nat.Prime 9547 := by
  refine prime_of_certificate 9547 2
    [2, 3, 37, 43]
    (by decide) (by decide) (by decide +kernel) ?_ (by decide +kernel) (by decide +kernel)
  simp only [List.forall_mem_cons, List.not_mem_nil, false_imp_iff, implies_true, and_true]
  exact ⟨(by norm_num), (by norm_num), (by norm_num), (by norm_num)⟩

theorem prime_16879 : Nat.Prime 16879 := by
  refine prime_of_certificate 16879 3
    [2, 3, 29, 97]
    (by decide) (by decide) (by decide +kernel) ?_ (by decide +kernel) (by decide +kernel)
  simp only [List.forall_mem_cons, List.not_mem_nil, false_imp_iff, implies_true, and_true]
  exact ⟨(by norm_num), (by norm_num), (by norm_num), (by norm_num)⟩

theorem prime_17449 : Nat.Prime 17449 := by
  refine prime_of_certificate 17449 14
    [2, 2, 2, 3, 727]
    (by decide) (by decide) (by decide +kernel) ?_ (by decide +kernel) (by decide +kernel)
  simp only [List.forall_mem_cons, List.not_mem_nil, false_imp_iff, implies_true, and_true]
  exact ⟨(by norm_num), (by norm_num), (by norm_num), (by norm_num), (by norm_num)⟩

theorem prime_18169 : Nat.Prime 18169 := by
  refine prime_of_certificate 18169 11
    [2, 2, 2, 3, 757]
    (by decide) (by decide) (by decide +kernel) ?_ (by decide +kernel) (by decide +kernel)
  simp only [List.forall_mem_cons, List.not_mem_nil, false_imp_iff, implies_true, and_true]
  exact ⟨(by norm_num), (by norm_num), (by norm_num), (by norm_num), (by norm_num)⟩

theorem prime_38189 : Nat.Prime 38189 := by
  refine prime_of_certificate 38189 2
    [2, 2, 9547]
    (by decide) (by decide) (by decide +kernel) ?_ (by decide +kernel) (by decide +kernel)
  simp only [List.forall_mem_cons, List.not_mem_nil, false_imp_iff, implies_true, and_true]
  exact ⟨(by norm_num), (by norm_num), prime_9547⟩

theorem prime_65537 : Nat.Prime 65537 := by
  refine prime_of_certificate 65537 3
    [2, 2, 2, 2, 2, 2, 2, 2, 2, 2, 2, 2, 2, 2, 2, 2]
    (by decide) (by decide) (by decide +kernel) ?_ (by decide +kernel) (by decide +kernel)
  simp only [List.forall_mem_cons, List.not_mem_nil, false_imp_iff, implies_true, and_true]
  exact ⟨(by norm_num), (by norm_num), (by norm_num), (by norm_num), (by norm_num), (by norm_num),
    (by norm_num), (by norm_num), (by norm_num), (by norm_num), (by norm_num), (by norm_num), (by norm_num),
    (by norm_num), (by norm_num), (by norm_num)⟩

theorem prime_78283 : Nat.Prime 78283 := by
  refine prime_of_certificate 78283 3
    [2, 3, 3, 4349]
    (by decide) (by decide) (by decide +kernel) ?_ (by decide +kernel) (by decide +kernel)
  simp only [List.forall_mem_cons, List.not_mem_nil, false_imp_iff, implies_true, and_true]
  exact ⟨(by norm_num), (by norm_num), (by norm_num), (by norm_num)⟩

theorem prime_104471 : Nat.Prime 104471 := by
  refine prime_of_certificate 104471 11
    [2, 5, 31, 337]
    (by decide) (by decide) (by decide +kernel) ?_ (by decide +kernel) (by decide +kernel)
  simp only [List.forall_mem_cons, List.not_mem_nil, false_imp_iff, implies_true, and_true]
  exact ⟨(by norm_num), (by norm_num), (by norm_num), (by norm_num)⟩

theorem prime_126241 : Nat.Prime 126241 := by
  refine prime_of_certificate 126241 7
    [2, 2, 2, 2, 2, 3, 5, 263]
    (by decide) (by decide) (by decide +kernel) ?_ (by decide +kernel) (by decide +kernel)
  simp only [List.forall_mem_cons, List.not_mem_nil, false_imp_iff, implies_true, and_true]
  exact ⟨(by norm_num), (by norm_num), (by norm_num), (by norm_num), (by norm_num), (by norm_num),
    (by norm_num), (by norm_num)⟩

theorem prime_155317 : Nat.Prime 155317 := by
  refine prime_of_certificate 155317 5
    [2, 2, 3, 7, 43, 43]
    (by decide) (by decide) (by decide +kernel) ?_ (by decide +kernel) (by decide +kernel)
  simp only [List.forall_mem_cons, List.not_mem_nil, false_imp_iff, implies_true, and_true]
  exact ⟨(by norm_num), (by norm_num), (by norm_num), (by norm_num), (by norm_num), (by norm_num)⟩

theorem prime_490463 : Nat.Prime 490463 := by
  refine prime_of_certificate 490463 14
    [2, 7, 53, 661]
    (by decide) (by decide) (by decide +kernel) ?_ (by decide +kernel) (by decide +kernel)
  simp only [List.forall_mem_cons, List.not_mem_nil, false_imp_iff, implies_true, and_true]
  exact ⟨(by norm_num), (by norm_num), (by norm_num), (by norm_num)⟩

theorem prime_704251 : Nat.Prime 704251 := by
  refine prime_of_certificate 704251 2
    [2, 3, 3, 5, 5, 5, 313]
    (by decide) (by decide) (by decide +kernel) ?_ (by decide +kernel) (by decide +kernel)
  simp only [List.forall_mem_cons, List.not_mem_nil, false_imp_iff, implies_true, and_true]
  exact ⟨(by norm_num), (by norm_num), (by norm_num), (by norm_num), (by norm_num), (by norm_num),
    (by norm_num)⟩

theorem prime_3969899 : Nat.Prime 3969899 := by
  refine prime_of_certificate 3969899 2
    [2, 19, 104471]
    (by decide) (by decide) (by decide +kernel) ?_ (by decide +kernel) (by decide +kernel)
  simp only [List.forall_mem_cons, List.not_mem_nil, false_imp_iff, implies_true, and_true]
  exact ⟨(by norm_num), (by norm_num), prime_104471⟩

theorem prime_6700417 : Nat.Prime 6700417 := by
  refine prime_of_certificate 6700417 5
    [2, 2, 2, 2, 2, 2, 2, 3, 17449]
    (by decide) (by decide) (by decide +kernel) ?_ (by decide +kernel) (by decide +kernel)
  simp only [List.forall_mem_cons, List.not_mem_nil, false_imp_iff, implies_true, and_true]
  exact ⟨(by norm_num), (by norm_num), (by norm_num), (by norm_num), (by norm_num), (by norm_num),
    (by norm_num), (by norm_num), prime_17449⟩

theorem prime_9350987 : Nat.Prime 9350987 := by
  refine prime_of_certificate 9350987 2
    [2, 17, 229, 1201]
    (by decide) (by decide) (by decide +kernel) ?_ (by decide +kernel) (by decide +kernel)
  simp only [List.forall_mem_cons, List.not_mem_nil, false_imp_iff, implies_true, and_true]
  exact ⟨(by norm_num), (by norm_num), (by norm_num), (by norm_num)⟩

theorem prime_187019741 : Nat.Prime 187019741 := by
  refine prime_of_certificate 187019741 2
    [2, 2, 5, 9350987]
    (by decide) (by decide) (by decide +kernel) ?_ (by decide +kernel) (by decide +kernel)
  simp only [List.forall_mem_cons, List.not_mem_nil, false_imp_iff, implies_true, and_true]
  exact ⟨(by norm_num), (by norm_num), (by norm_num), prime_9350987⟩

theorem prime_191039911 : Nat.Prime 191039911 := by
  refine prime_of_certificate 191039911 3
    [2, 3, 5, 41, 155317]
    (by decide) (by decide) (by decide +kernel) ?_ (by decide +kernel) (by decide +kernel)
  simp only [List.forall_mem_cons, List.not_mem_nil, false_imp_iff, implies_true, and_true]
  exact ⟨(by norm_num), (by norm_num), (by norm_num), (by norm_num), prime_155317⟩

theorem prime_204061199 : Nat.Prime 204061199 := by
  refine prime_of_certificate 204061199 11
    [2, 11, 23, 107, 3769]
    (by decide) (by decide) (by decide +kernel) ?_ (by decide +kernel) (by decide +kernel)
  simp only [List.forall_mem_cons, List.not_mem_nil, false_imp_iff, implies_true, and_true]
  exact ⟨(by norm_num), (by norm_num), (by norm_num), (by norm_num), (by norm_num)⟩

theorem prime_311245691 : Nat.Prime 311245691 := by
  refine prime_of_certificate 311245691 2
    [2, 5, 7, 17, 29, 29, 311]
    (by decide) (by decide) (by decide +kernel) ?_ (by decide +kernel) (by decide +kernel)
  simp only [List.forall_mem_cons, List.not_mem_nil, false_imp_iff, implies_true, and_true]
  exact ⟨(by norm_num), (by norm_num), (by norm_num), (by norm_num), (by norm_num), (by norm_num),
    (by norm_num)⟩

theorem prime_622491383 : Nat.Prime 622491383 := by
  refine prime_of_certificate 622491383 5
    [2, 311245691]
    (by decide) (by decide) (by decide +kernel) ?_ (by decide +kernel) (by decide +kernel)
  simp only [List.forall_mem_cons, List.not_mem_nil, false_imp_iff, implies_true, and_true]
  exact ⟨(by norm_num), prime_311245691⟩

theorem prime_34282281433 : Nat.Prime 34282281433 := by
  refine prime_of_certificate 34282281433 17
    [2, 2, 2, 3, 7, 204061199]
    (by decide) (by decide) (by decide +kernel) ?_ (by decide +kernel) (by decide +kernel)
  simp only [List.forall_mem_cons, List.not_mem_nil, false_imp_iff, implies_true, and_true]
  exact ⟨(by norm_num), (by norm_num), (by norm_num), (by norm_num), (by norm_num), prime_204061199⟩

theorem prime_66417393611 : Nat.Prime 66417393611 := by
  refine prime_of_certificate 66417393611 6
    [2, 5, 53, 173, 197, 3677]
    (by decide) (by decide) (by decide +kernel) ?_ (by decide +kernel) (by decide +kernel)
  simp only [List.forall_mem_cons, List.not_mem_nil, false_imp_iff, implies_true, and_true]
  exact ⟨(by norm_num), (by norm_num), (by norm_num), (by norm_num), (by norm_num), (by norm_num)⟩

theorem prime_1002328039319 : Nat.Prime 1002328039319 := by
  refine prime_of_certificate 1002328039319 19
    [2, 126241, 3969899]
    (by decide) (by decide) (by decide +kernel) ?_ (by decide +kernel) (by decide +kernel)
  simp only [List.forall_mem_cons, List.not_mem_nil, false_imp_iff, implies_true, and_true]
  exact ⟨(by norm_num), prime_126241, prime_3969899⟩

theorem prime_11290956913871 : Nat.Prime 11290956913871 := by
  refine prime_of_certificate 11290956913871 13
    [2, 5, 17, 66417393611]
    (by decide) (by decide) (by decide +kernel) ?_ (by decide +kernel) (by decide +kernel)
  simp only [List.forall_mem_cons, List.not_mem_nil, false_imp_iff, implies_true, and_true]
  exact ⟨(by norm_num), (by norm_num), (by norm_num), prime_66417393611⟩

theorem prime_46076956964474543 : Nat.Prime 46076956964474543 := by
  refine prime_of_certificate 46076956964474543 5
    [2, 23, 18169, 78283, 704251]
    (by decide) (by decide) (by decide +kernel) ?_ (by decide +kernel) (by decide +kernel)
  simp only [List.forall_mem_cons, List.not_mem_nil, false_imp_iff, implies_true, and_true]
  exact ⟨(by norm_num), (by norm_num), prime_18169, prime_78283, prime_704251⟩

theorem prime_208150935158385979 : Nat.Prime 208150935158385979 := by
  refine prime_of_certificate 208150935158385979 2
    [2, 3, 11, 43, 127, 3023, 191039911]
    (by decide) (by decide) (by decide +kernel) ?_ (by decide +kernel) (by decide +kernel)
  simp only [List.forall_mem_cons, List.not_mem_nil, false_imp_iff, implies_true, and_true]
  exact ⟨(by norm_num), (by norm_num), (by norm_num), (by norm_num), (by norm_num), (by norm_num),
    prime_191039911⟩

theorem prime_2624747550333869278416773953 : Nat.Prime 2624747550333869278416773953 := by
  refine prime_of_certificate 2624747550333869278416773953 7
    [2, 2, 2, 2, 2, 2, 3, 3, 1297, 16879, 208150935158385979]
    (by decide) (by decide) (by decide +kernel) ?_ (by decide +kernel) (by decide +kernel)
  simp only [List.forall_mem_cons, List.not_mem_nil, false_imp_iff, implies_true, and_true]
  exact ⟨(by norm_num), (by norm_num), (by norm_num), (by norm_num), (by norm_num), (by norm_num),
    (by norm_num), (by norm_num), (by norm_num), prime_16879, prime_208150935158385979⟩

theorem prime_774023187263532362759620327192479577272145303 : Nat.Prime 774023187263532362759620327192479577272145303 := by
  refine prime_of_certificate 774023187263532362759620327192479577272145303 3
    [2, 3, 3, 2411, 34282281433, 11290956913871, 46076956964474543]
    (by decide) (by decide) (by decide +kernel) ?_ (by decide +kernel) (by decide +kernel)
  simp only [List.forall_mem_cons, List.not_mem_nil, false_imp_iff, implies_true, and_true]
  exact ⟨(by norm_num), (by norm_num), (by norm_num), (by norm_num), prime_34282281433,
    prime_11290956913871, prime_46076956964474543⟩

theorem prime_835945042244614951780389953367877943453916927241 : Nat.Prime 835945042244614951780389953367877943453916927241 := by
  refine prime_of_certificate 835945042244614951780389953367877943453916927241 11
    [2, 2, 2, 3, 3, 3, 5, 774023187263532362759620327192479577272145303]
    (by decide) (by decide) (by decide +kernel) ?_ (by decide +kernel) (by decide +kernel)
  simp only [List.forall_mem_cons, List.not_mem_nil, false_imp_iff, implies_true, and_true]
  exact ⟨(by norm_num), (by norm_num), (by norm_num), (by norm_num), (by norm_num), (by norm_num),
    (by norm_num), prime_774023187263532362759620327192479577272145303⟩

/-- n is prime. -/
theorem n_prime : Nat.Prime Config.n := by
  refine prime_of_certificate Config.n 7
    [2, 2, 2, 2, 3, 71, 131, 373, 3407, 17449, 38189, 187019741, 622491383, 1002328039319,
      2624747550333869278416773953]
    (by decide) (by decide) (by decide +kernel) ?_ (by decide +kernel) (by decide +kernel)
  simp only [List.forall_mem_cons, List.not_mem_nil, false_imp_iff, implies_true, and_true]
  exact ⟨(by norm_num), (by norm_num), (by norm_num), (by norm_num), (by norm_num), (by norm_num),
    (by norm_num), (by norm_num), (by norm_num), prime_17449, prime_38189, prime_187019741, prime_622491383,
    prime_1002328039319, prime_2624747550333869278416773953⟩

/-- p is prime. -/
theorem p_prime : Nat.Prime Config.p := by
  refine prime_of_certificate Config.p 6
    [2, 3, 5, 5, 17, 257, 641, 1531, 65537, 490463, 6700417,
      835945042244614951780389953367877943453916927241]
    (by decide) (by decide) (by decide +kernel) ?_ (by decide +kernel) (by decide +kernel)
  simp only [List.forall_mem_cons, List.not_mem_nil, false_imp_iff, implies_true, and_true]
  exact ⟨(by norm_num), (by norm_num), (by norm_num), (by norm_num), (by norm_num), (by norm_num),
    (by norm_num), (by norm_num), prime_65537, prime_490463, prime_6700417,
    prime_835945042244614951780389953367877943453916927241⟩

/-- The modulus of a command is prime. -/
theorem modulus_prime (m : Modulus) : (modulus m).Prime := by
  cases m
  · exact p_prime
  · exact n_prime

theorem gcd_modulus (m : Modulus) (x : Nat) (h0 : 0 < x) (hx : x < modulus m) : Nat.gcd (modulus m) x = 1 :=
  (Nat.Prime.coprime_iff_not_dvd (modulus_prime m)).2 fun h => absurd (Nat.le_of_dvd h0 h) (by omega)

/-- Both methods give an inverse of every non-zero residue, below the modulus (R140, R142, R143). -/
theorem invBy_spec (v : InvMethod) (m : Modulus) (x : Nat) (h0 : 0 < x) (hx : x < modulus m) :
    invBy v (modulus m) x < modulus m ∧ x * invBy v (modulus m) x % modulus m = 1 := by
  have h2 := two_lt_modulus m
  have hs := modulus_lt m
  cases v
  · exact ⟨powMod_lt _ _ _ (by omega), invFermat_spec _ x (modulus_prime m) h2 hs h0 hx⟩
  · refine ⟨invEuclid_lt _ x (by omega), ?_⟩
    have := invEuclid_spec (modulus m) x hx (by omega) (gcd_modulus m x h0 hx)
    rwa [Nat.mod_eq_of_lt (show 1 < modulus m by omega)] at this

/-- `inv_m(x)` is an inverse (00_scope.md section 5). -/
theorem invMod_spec (m : Modulus) (x : Nat) (h0 : 0 < x) (hx : x < modulus m) :
    invMod (modulus m) x < modulus m ∧ x * invMod (modulus m) x % modulus m = 1 :=
  invBy_spec .euclid m x h0 hx

end Sys2Proof.Machine
end

