-- ==== Sys2Proof/Laws/Step.lean ====
section
/-! SUPPORT. What one step does, event by event, and the address map's ranges. -/

namespace Sys2Proof.Machine

/-- With no coming event the command in flight completes, or nothing happens (R324, R351). -/
theorem step_nil {s : State} (h : s.inputs = []) : step s = completionStep s := by
  unfold step advance; rw [h]

/-- With a coming event that event happens. -/
theorem step_cons {s : State} {e : HostEvent} {rest : List HostEvent} (h : s.inputs = e :: rest) :
    step s = eventStep e (s.setInputs rest) := by
  unfold step advance; rw [h]

/-- A completion with a command in flight runs it. -/
theorem completionStep_inFlight {s : State} (h : s.inFlight = true) : completionStep s = completeInFlight s := by
  simp [completionStep, h]

/-- A completion with none in flight does nothing. -/
theorem completionStep_idle {s : State} (h : s.inFlight = false) : completionStep s = .next s := by
  simp [completionStep, h]

theorem completeInFlight_command {s : State} {i : Instr} (h : decode s.cmd = .command i) :
    completeInFlight s = exec i s := by
  unfold completeInFlight; rw [h]

theorem completeInFlight_illegal {s : State} {why : Illegal} (h : decode s.cmd = .illegal why) :
    completeInFlight s = .next (s.finish .illegal false) := by
  unfold completeInFlight; rw [h]; rfl

theorem serve_high {s : State} (h : s.rstN = true) (after : State) : serve s after = .next after := by
  simp [serve, h]

theorem serve_low {s : State} (h : s.rstN = false) (after : State) : serve s after = .next s := by
  simp [serve, h]

/-- A step that serves a read transfer. -/
theorem step_read {s : State} {off : Offset} {rest : List HostEvent} (hr : s.rstN = true)
    (h : s.inputs = .read off :: rest) : step s = .next ((s.setInputs rest).busRead off) := by
  rw [step_cons h]; exact serve_high (s := s.setInputs rest) hr _

/-- A step that serves a write transfer. -/
theorem step_write {s : State} {off : Offset} {v : Word} {rest : List HostEvent} (hr : s.rstN = true)
    (h : s.inputs = .write off v :: rest) : step s = .next ((s.setInputs rest).busWrite off v) := by
  rw [step_cons h]; exact serve_high (s := s.setInputs rest) hr _

/-- While rst_n is low a transfer is not served (R330). -/
theorem step_read_low {s : State} {off : Offset} {rest : List HostEvent} (hr : s.rstN = false)
    (h : s.inputs = .read off :: rest) : step s = .next (s.setInputs rest) := by
  rw [step_cons h]; exact serve_low (s := s.setInputs rest) hr _

theorem step_write_low {s : State} {off : Offset} {v : Word} {rest : List HostEvent} (hr : s.rstN = false)
    (h : s.inputs = .write off v :: rest) : step s = .next (s.setInputs rest) := by
  rw [step_cons h]; exact serve_low (s := s.setInputs rest) hr _

/-- A step at the place of a completion, with a command in flight. -/
theorem step_complete {s : State} {rest : List HostEvent} (hf : s.inFlight = true)
    (h : s.inputs = .complete :: rest) : step s = completeInFlight (s.setInputs rest) := by
  rw [step_cons h]; exact completionStep_inFlight (by simpa using hf)

/-- A step at the place of a completion, with none in flight. -/
theorem step_complete_idle {s : State} {rest : List HostEvent} (hf : s.inFlight = false)
    (h : s.inputs = .complete :: rest) : step s = .next (s.setInputs rest) := by
  rw [step_cons h]; exact completionStep_idle (by simpa using hf)

/-- A step at which rst_n falls (R330). -/
theorem step_rstLow {s : State} {rest : List HostEvent} (h : s.inputs = .rstLow :: rest) :
    step s = .next (s.setInputs rest).assertReset := by
  rw [step_cons h]; rfl

/-- A step at which rst_n rises (R333). -/
theorem step_rstHigh {s : State} {rest : List HostEvent} (h : s.inputs = .rstHigh :: rest) :
    step s = .next (s.setInputs rest).releaseReset := by
  rw [step_cons h]; rfl

/-- A misaligned read (R64). -/
theorem busRead_misaligned {s : State} {off : Offset} (h : aligned off = false) :
    s.busRead off = { s with prdata := 0, pslverr := true } := by simp [State.busRead, h]

/-- A misaligned write (R64). -/
theorem busWrite_misaligned {s : State} {off : Offset} {v : Word} (h : aligned off = false) :
    s.busWrite off v = { s with pslverr := true } := by simp [State.busWrite, h, State.setSlverr]

theorem busRead_aligned {s : State} {off : Offset} (h : aligned off = true) :
    s.busRead off = { s with prdata := readTarget s (busTarget off), pslverr := false } := by
  simp [State.busRead, h]

theorem busWrite_aligned {s : State} {off : Offset} {v : Word} (h : aligned off = true) :
    s.busWrite off v = (writeTarget s v (busTarget off)).setSlverr false := by
  simp [State.busWrite, h]

/-- The IN_BUF window: the map gives the offset itself, four bytes of IN_BUF (R66, R68). -/
theorem busTarget_inBuf {off : Offset} {addr : Nat} (ha : aligned off = true) (h : busTarget off = .inBuf addr) :
    addr = off.toNat ∧ Config.inBase ≤ addr ∧ addr + 4 ≤ Config.inBase + Config.inSize := by
  simp only [aligned, beq_iff_eq] at ha
  unfold busTarget busTargetAt at h
  simp only [Config.inBase, Config.inSize]
  split_ifs at h with _ _ _ _ _ _ _ hr
  cases h
  omega

/-- Four written bytes of the IN_BUF window are bytes of IN_BUF. -/
theorem inBuffers_writeWord {m : Memory} {addr : Nat} (v : Word) (h1 : Config.inBase ≤ addr)
    (h2 : addr + 4 ≤ Config.inBase + Config.inSize) (h : m.inBuffers = true) :
    Memory.inBuffers (writeBytes m addr (bytesOfWord v)) = true := by
  refine inBuffers_writeBytes _ (fun j hj => ?_) h
  have : j < 4 := by simpa [bytesOfWord] using hj
  simp only [inInBuf, Bool.or_eq_true, Bool.and_eq_true, decide_eq_true_eq]
  left; omega

/-- A register word written, bit by bit: those 32 bits take the word, "the other 224 bits unchanged" (R67). -/
theorem getLsbD_setWordOfReg (v : Word256) (i : Fin 8) (w : Word) (b : Nat) (hb : b < 256) :
    (setWordOfReg v i w).getLsbD b =
      if 32 * i.val ≤ b ∧ b < 32 * i.val + 32 then w.getLsbD (b - 32 * i.val) else v.getLsbD b := by
  have ones : ∀ j, (0xFFFFFFFF#256).getLsbD j = decide (j < 32) := by
    intro j
    rw [show (0xFFFFFFFF#256) = BitVec.ofNat 256 (2 ^ 32 - 1) from rfl, BitVec.getLsbD_ofNat,
      Nat.testBit_two_pow_sub_one]
    by_cases h : j < 32 <;> simp [h]; omega
  simp only [setWordOfReg, BitVec.getLsbD_or, BitVec.getLsbD_and, BitVec.getLsbD_not, BitVec.getLsbD_shiftLeft,
    BitVec.getLsbD_setWidth, ones, hb, decide_true, Bool.true_and]
  by_cases h1 : b < 32 * i.val
  · have : ¬ 32 * i.val ≤ b := by omega
    simp [h1, this]
  · by_cases h2 : b - 32 * i.val < 32
    · have h3 : 32 * i.val ≤ b ∧ b < 32 * i.val + 32 := by omega
      have h4 : b - 32 * i.val < 256 := by omega
      simp [h1, h2, h3, h4]
    · have h3 : ¬(32 * i.val ≤ b ∧ b < 32 * i.val + 32) := by omega
      have h4 : w.getLsbD (b - 32 * i.val) = false := BitVec.getLsbD_of_ge _ _ (by omega)
      simp [h1, h2, h3, h4]

/-- A register word read, bit by bit (R67). -/
theorem getLsbD_wordOfReg (v : Word256) (i : Fin 8) (b : Nat) (hb : b < 32) :
    (wordOfReg v i).getLsbD b = v.getLsbD (32 * i.val + b) := by
  simp [wordOfReg, hb]

/-- A platform address inside the window is served at its offset (R62). -/
theorem offsetOfAddress_hostAddress (off : Offset) : offsetOfAddress (Config.hostAddress off) = some off := by
  have := off.isLt
  unfold offsetOfAddress Config.hostAddress
  rw [if_pos ⟨by omega, by omega⟩, Nat.add_sub_cancel_left, BitVec.ofNat_toNat, BitVec.setWidth_eq]

end Sys2Proof.Machine
end

