-- ==== Sys2Proof/Laws/Words.lean ====
section
/-! SUPPORT. The laws of the command word: packing and unpacking, what an accepted word says of its fields, and the words
of each command's rule. -/

namespace Sys2Proof

/-- The fields and the opcode are all of a word whose reserved bits are 0 (R91). -/
theorem packWord_fieldsOf (w : Word) (h : bitField w 31 19 = 0) : packWord (bitField w 7 0) (fieldsOf w) = w := by
  have hw := w.isLt
  apply BitVec.eq_of_toNat_eq
  have hb : ∀ x, x < 2 → (x == 1).toNat = x := by intro x hx; interval_cases x <;> rfl
  simp only [packWord, BitVec.toNat_ofNat, fieldsOf, Fin.ofNat]
  simp only [bitField] at h ⊢
  rw [hb _ (by omega), hb _ (by omega)]
  simp only [Nat.reducePow, Nat.reduceSub, Nat.reduceAdd] at *
  omega

/-- A packed word gives its opcode and fields back (R91, R92). -/
theorem packWord_bits (op : Nat) (fs : Fields) (h : op < 256) :
    bitField (packWord op fs) 31 19 = 0 ∧ bitField (packWord op fs) 7 0 = op ∧ fieldsOf (packWord op fs) = fs := by
  obtain ⟨⟨rd, hrd⟩, ⟨rs1, h1⟩, ⟨rs2, h2⟩, m, v⟩ := fs
  have hm : m.toNat < 2 := by cases m <;> decide
  have hv : v.toNat < 2 := by cases v <;> decide
  have hp : (packWord op ⟨⟨rd, hrd⟩, ⟨rs1, h1⟩, ⟨rs2, h2⟩, m, v⟩).toNat =
    op + rd * 2 ^ 8 + rs1 * 2 ^ 11 + rs2 * 2 ^ 14 + m.toNat * 2 ^ 17 + v.toNat * 2 ^ 18 := by
    simp only [packWord, BitVec.toNat_ofNat]
    apply Nat.mod_eq_of_lt; omega
  have hb : ∀ b : Bool, (b.toNat == 1) = b := by decide
  simp only [fieldsOf, bitField, hp, Fin.ofNat]
  refine ⟨by omega, by omega, ?_⟩
  congr 1
  · ext; simp; omega
  · ext; simp; omega
  · ext; simp; omega
  · rw [← hb m]; congr 1; simp only [hb]; omega
  · rw [← hb v]; congr 1; simp only [hb]; omega

/-- OP values are one byte. -/
theorem Opcode.value_lt (o : Opcode) : o.value < 256 := by cases o <;> decide

/-- The table of R100 finds an opcode by its value. -/
theorem opcodeOfValue_value (o : Opcode) : opcodeOfValue o.value = some o := by cases o <;> decide

theorem opcodeOfValue_some {op : Nat} {o : Opcode} (h : opcodeOfValue op = some o) : o.value = op := by
  have := List.find?_some h
  simpa using this

/-- OP values tell opcodes apart. -/
theorem Opcode.value_injective {o o' : Opcode} (h : o.value = o'.value) : o = o' := by
  have := opcodeOfValue_value o
  rw [h, opcodeOfValue_value] at this
  exact (Option.some.inj this).symm

/-- A word the decoder accepts passed every check of R102. -/
theorem decode_command {w : Word} {i : Instr} (h : decode w = .command i) :
    bitField w 31 19 = 0 ∧ ∃ o : Opcode, o.value = bitField w 7 0 ∧ checkFields o (fieldsOf w) = none ∧
      i = o.build (fieldsOf w) := by
  unfold decode at h
  split at h
  · cases h
  · next hr =>
    split at h
    · cases h
    · next o ho =>
      split at h
      · cases h
      · next hc =>
        cases h
        exact ⟨by simpa using hr, o, opcodeOfValue_some ho, hc, rfl⟩

/-- A word that passes every check is the command of its opcode and fields (R102). -/
theorem decode_of_checks {w : Word} {o : Opcode} (hr : bitField w 31 19 = 0) (ho : o.value = bitField w 7 0)
    (hc : checkFields o (fieldsOf w) = none) : decode w = .command (o.build (fieldsOf w)) := by
  unfold decode
  rw [if_neg (by simp [hr]), ← ho, opcodeOfValue_value]
  simp only [hc]

/-- The checks of R102 pass exactly when every field passes. -/
theorem checkFields_none {o : Opcode} {fs : Fields} : checkFields o fs = none ↔
    ∀ f, ¬(o.usage f = .zero ∧ fs.value f ≠ 0) ∧ ¬(o.usage f = .pr ∧ fs.value f = 7) := by
  have one : ∀ f, checkField o fs f = none ↔
      ¬(o.usage f = .zero ∧ fs.value f ≠ 0) ∧ ¬(o.usage f = .pr ∧ fs.value f = 7) := by
    intro f
    unfold checkField
    split
    · next h => simp [h]
    · next h => split <;> simp_all
  unfold checkFields
  rw [List.findSome?_eq_none_iff]
  constructor
  · intro h f
    exact (one f).1 (h f (by cases f <;> simp))
  · intro h f _
    exact (one f).2 (h f)

/-- With every check passed, the command of an opcode holds exactly its fields. -/
theorem fields_build {o : Opcode} {fs : Fields} (h : checkFields o fs = none) :
    (o.build fs).fields = fs ∧ (o.build fs).opcode = o := by
  rw [checkFields_none] at h
  obtain ⟨rd, rs1, rs2, m, v⟩ := fs
  have hm : ∀ b, (modulusOfBit b).bit = b := by decide
  have hv : ∀ b, (methodOfBit b).bit = b := by decide
  have hk : ∀ r : Reg, (constOfIndex r).index = r := by decide
  have z1 : o.usage .rd = .zero → rd = 0 := fun hu => Fin.ext (by_contra fun hn => (h .rd).1 ⟨hu, hn⟩)
  have z2 : o.usage .rs1 = .zero → rs1 = 0 := fun hu => Fin.ext (by_contra fun hn => (h .rs1).1 ⟨hu, hn⟩)
  have z3 : o.usage .rs2 = .zero → rs2 = 0 := fun hu => Fin.ext (by_contra fun hn => (h .rs2).1 ⟨hu, hn⟩)
  have z4 : o.usage .m = .zero → m = false := fun hu => by
    cases m with
    | false => rfl
    | true => exact absurd ⟨hu, Nat.one_ne_zero⟩ (h .m).1
  have z5 : o.usage .v = .zero → v = false := fun hu => by
    cases v with
    | false => rfl
    | true => exact absurd ⟨hu, Nat.one_ne_zero⟩ (h .v).1
  clear h
  refine ⟨?_, by cases o <;> rfl⟩
  cases o <;>
    simp only [Opcode.build, Instr.fields, hm, hv, hk, Fields.mk.injEq, true_and, and_true] <;>
    clear hm hv hk <;> simp_all [Opcode.usage]

/-- The word of an accepted word's command is that word, bit for bit. -/
theorem encode_of_decode {w : Word} {i : Instr} (h : decode w = .command i) :
    encode i = w ∧ i.opcode.value = bitField w 7 0 ∧ checkFields i.opcode (fieldsOf w) = none := by
  obtain ⟨hr, o, ho, hc, rfl⟩ := decode_command h
  obtain ⟨hf, hop⟩ := fields_build hc
  refine ⟨?_, by rw [hop, ho], by rw [hop]; exact hc⟩
  unfold encode
  rw [hf, hop, ho, packWord_fieldsOf w hr]

/-- Every command's word fits its row of the opcode table. -/
theorem encode_fits (i : Instr) : (encode i).toNat &&& i.opcode.row.mask = i.opcode.row.value := by
  have : Laws.EncodedWordFitsRow.Statement i := by
    cases i
    exacts [Laws.EncodedWordFitsRow.madd .., Laws.EncodedWordFitsRow.msub .., Laws.EncodedWordFitsRow.mmul ..,
      Laws.EncodedWordFitsRow.montmul .., Laws.EncodedWordFitsRow.minv .., Laws.EncodedWordFitsRow.mred ..,
      Laws.EncodedWordFitsRow.ldc .., Laws.EncodedWordFitsRow.pvalid .., Laws.EncodedWordFitsRow.padd ..,
      Laws.EncodedWordFitsRow.pdbl .., Laws.EncodedWordFitsRow.pmul .., Laws.EncodedWordFitsRow.decomp ..,
      Laws.EncodedWordFitsRow.compress .., Laws.EncodedWordFitsRow.derint .., Laws.EncodedWordFitsRow.dersig ..,
      Laws.EncodedWordFitsRow.verify .., Laws.EncodedWordFitsRow.verifyabi ..]
  simpa [Laws.EncodedWordFitsRow.Statement, TableRow.fits] using this

/-- The bits of the pair fields of an opcode (R91, R100). -/
def Opcode.pairFields : Opcode → List (Nat × Nat)
  | .pvalid => [(13, 11)]
  | .padd => [(10, 8), (13, 11), (16, 14)]
  | .pdbl => [(10, 8), (13, 11)]
  | .pmul => [(10, 8), (13, 11)]
  | .decomp => [(10, 8)]
  | .compress => [(13, 11)]
  | _ => []

/-- A pair field named by its bits holds no 7 in a word that passes the checks. -/
theorem pairFields_ne_seven {o : Opcode} {w : Word} (h : checkFields o (fieldsOf w) = none) :
    ∀ f ∈ o.pairFields, bitField w f.1 f.2 ≠ 7 := by
  rw [checkFields_none] at h
  have e1 : (fieldsOf w).value .rd = bitField w 10 8 := by
    simp only [Fields.value, fieldsOf, Fin.ofNat, bitField]; omega
  have e2 : (fieldsOf w).value .rs1 = bitField w 13 11 := by
    simp only [Fields.value, fieldsOf, Fin.ofNat, bitField]; omega
  have e3 : (fieldsOf w).value .rs2 = bitField w 16 14 := by
    simp only [Fields.value, fieldsOf, Fin.ofNat, bitField]; omega
  have h1 := (h .rd).2
  have h2 := (h .rs1).2
  have h3 := (h .rs2).2
  rw [e1] at h1; rw [e2] at h2; rw [e3] at h3
  cases o <;> simp_all [Opcode.usage, Opcode.pairFields]

namespace Machine

/-- A placed word that the decoder rejects completes with ERR_ILLEGAL and changes nothing else (R291). -/
theorem step_placeCommand_illegal {s : State} {w : Word} {why : Illegal} (h : decode w = .illegal why) :
    step (s.placeCommand w) =
      .next { s with cmd := w, rstN := true, busy := false, done := true, err := .illegal, result := false } := by
  rw [step_complete (s := s.placeCommand w) (rest := s.inputs) rfl rfl]
  exact completeInFlight_illegal (s := (s.placeCommand w).setInputs s.inputs) (why := why) h

/-- The words of each command's rule. -/
theorem wordsOf (i : Instr) : WordsOf i i.opcode.row.mask i.opcode.row.value i.opcode.pairFields where
  fits := encode_fits i
  illegal := fun s w hop hbad => by
    cases hd : decode w with
    | illegal why => exact step_placeCommand_illegal hd
    | command j =>
      exfalso
      obtain ⟨he, hv, hc⟩ := encode_of_decode hd
      have hval : i.opcode.row.value % 256 = i.opcode.value := by cases i <;> rfl
      have hj : j.opcode = i.opcode := Opcode.value_injective (by rw [hv, hop, hval])
      rcases hbad with hbad | ⟨f, hf, h7⟩
      · apply hbad
        rw [← he, ← hj]
        exact encode_fits j
      · exact pairFields_ne_seven (o := i.opcode) (by rw [← hj]; exact hc) f hf h7

end Machine

end Sys2Proof
end

