-- ==== Sys2Proof/Tests/Slice0.lean ====
section
/-! SUPPORT. Tests and witnesses. Expected values are those of 95_test_vectors.md (its vector names are cited: M1, DR4,
P8, X3, VF15, B4, ...), of the examples in 30_encoding.md, or of the layout of R91 written out bit by bit. -/

-- One theorem at a time: each closed evaluation would otherwise hold a thread of its own while it waits.
set_option Elab.async false

open Sys2Proof Sys2Proof.Machine

namespace Sys2Proof.Tests

/-! ## Helpers -/

/-- The reset state with registers loaded. -/
def withRegs (regs : List (Reg × Nat)) : State := regs.foldl (fun s r => s.setRegVal r.1 r.2) State.reset

/-- A state with IN_BUF's first bytes and IN_LEN loaded. -/
def withIn (bytes : List Byte) (len : Nat) (s : State) : State :=
  { s with mem := writeBytes s.mem Config.inBase bytes, inLen := BitVec.ofNat 8 len }

/-- What one outcome shows. -/
def look {α : Type} (o : CmdOutcome) (f : State → α) : Option α :=
  match o with
  | .next t => some (f t)
  | .fault _ => none
  | .refused _ => none

/-- The error and one register after the one step that runs a command word. -/
def runReg (s : State) (w : Nat) (r : Reg) : Option (ErrCode × Nat) :=
  look (step (s.withFetchWord 32 w)) fun t => (t.err, t.regVal r)

/-- The error and one pair after the one step that runs a command word. -/
def runPair (s : State) (w : Nat) (r : Reg) : Option (ErrCode × Nat × Nat) :=
  look (step (s.withFetchWord 32 w)) fun t => (t.err, t.pairVal r)

/-- OUT_LEN and that many bytes of OUT_BUF after the one step that runs a command word. -/
def runOut (s : State) (w : Nat) : Option (Nat × List Byte) :=
  look (step (s.withFetchWord 32 w)) fun t =>
    (t.outLen.toNat, readBytes t.mem Config.outBase t.outLen.toNat)

/-- 2G (P7). -/
def twoG : Nat × Nat :=
  (0x7CF27B18_8D034F7E_8A523803_04B51AC3_C08969E2_77F21B35_A60B48FC_47669978,
   0x07775510_DB8ED040_293D9AC6_9F7430DB_BA7DADE6_3CE98229_9E04B79D_227873D1)

/-- 3G (P8). -/
def threeG : Nat × Nat :=
  (0x5ECBE4D1_A6330A44_C8F7EF95_1D4BF165_E6C6B721_EFADA985_FB41661B_C6E7FD6C,
   0x8734640C_4998FF7E_374B06CE_1A64A2EC_D82AB036_384FB83D_9A79B127_A27D5032)

/-- Y0, the even square root of b (95_test_vectors.md). -/
def y0 : Nat := 0x66485C78_0E2F83D7_2433BD5D_84A06BB6_541C2AF3_1DAE8717_28BF856A_174F93F4

/-- p - Gy (95_test_vectors.md). -/
def negGy : Nat := 0xB01CBD1C_01E58065_711814B5_83F061E9_D431CCA9_94CEA131_3449BF97_C840AE0A

/-- The key Q8 of VF15. -/
def q8x : Nat := 0x1B649AA9_32482262_421DFACB_785B7C73_666EAF95_CEDA7DEB_434D0A17_CC789906
def q8y : Nat := 0x6916630C_91D70B67_5DF6BA59_EC929456_21D2B908_23E7C4A2_184949E8_6ACEC64A

/-- The key Q9 of VF17. -/
def q9x : Nat := 0x1BBAB428_440A1BEF_66CFBE05_A7288BE8_A1A619CA_EFE53790_920AB935_5C8FB4DD
def q9y : Nat := 0x18BA7D05_69887ABA_49B0C4DE_85273B90_888A465A_FF07367A_FFC7650B_B7581262

/-! ## WellFormed: a pair operand of R7 is refused (R94), in every place; nothing else is -/

theorem test_wf_refuses_pvalid_rs1 : (Instr.pvalid 0 7).wf = false := by decide
theorem test_wf_refuses_padd_rd : (Instr.padd 7 0 0).wf = false := by decide
theorem test_wf_refuses_padd_rs1 : (Instr.padd 0 7 0).wf = false := by decide
theorem test_wf_refuses_padd_rs2 : (Instr.padd 0 0 7).wf = false := by decide
theorem test_wf_refuses_pdbl_rd : (Instr.pdbl 7 0).wf = false := by decide
theorem test_wf_refuses_pdbl_rs1 : (Instr.pdbl 0 7).wf = false := by decide
theorem test_wf_refuses_pmul_rd : (Instr.pmul 7 0 0).wf = false := by decide
theorem test_wf_refuses_pmul_rs1 : (Instr.pmul 0 7 0).wf = false := by decide
theorem test_wf_refuses_decomp_rd : (Instr.decomp 7).wf = false := by decide
theorem test_wf_refuses_compress_rs1 : (Instr.compress 7).wf = false := by decide
theorem test_wf_accepts_r7 : (Instr.pmul 6 6 7).wf = true ∧ (Instr.pvalid 7 6).wf = true ∧ (Instr.verify 7).wf = true ∧
    (Instr.madd 7 7 7 .n).wf = true := by decide

/-! ## Decode: RES | V | M | RS2 | RS1 | RD | OP, written out bit by bit (R91, R100) -/

theorem test_decode_madd : decode 0b0000000000000_0_1_111_000_101_00000001#32 = .command (.madd 5 0 7 .n) := by decide
theorem test_decode_msub : decode 0b0000000000000_0_0_010_001_000_00000010#32 = .command (.msub 0 1 2 .p) := by decide
theorem test_decode_mmul : decode 0b0000000000000_0_1_110_101_101_00000011#32 = .command (.mmul 5 5 6 .n) := by decide
theorem test_decode_montmul :
    decode 0b0000000000000_0_0_001_100_111_00000100#32 = .command (.montmul 7 4 1 .p) := by decide
theorem test_decode_minv_n_e :
    decode 0b0000000000000_1_1_000_010_110_00000101#32 = .command (.minv 6 2 .n .euclid) := by decide
theorem test_decode_minv_p_f :
    decode 0b0000000000000_0_0_000_001_000_00000101#32 = .command (.minv 0 1 .p .fermat) := by decide
theorem test_decode_mred : decode 0b0000000000000_0_1_000_011_100_00000110#32 = .command (.mred 4 3 .n) := by decide
theorem test_decode_ldc : decode 0b0000000000000_0_0_000_101_001_00000111#32 = .command (.ldc 1 .gy) := by decide
theorem test_decode_pvalid : decode 0b0000000000000_0_0_000_110_001_00010000#32 = .command (.pvalid 1 6) := by decide
theorem test_decode_padd : decode 0b0000000000000_0_0_010_000_100_00010001#32 = .command (.padd 4 0 2) := by decide
theorem test_decode_pdbl : decode 0b0000000000000_0_0_000_011_110_00010010#32 = .command (.pdbl 6 3) := by decide
theorem test_decode_pmul : decode 0b0000000000000_0_0_101_010_000_00010011#32 = .command (.pmul 0 2 5) := by decide
theorem test_decode_decomp : decode 0b0000000000000_0_0_000_000_011_00010100#32 = .command (.decomp 3) := by decide
theorem test_decode_compress : decode 0b0000000000000_0_0_000_100_000_00010101#32 = .command (.compress 4) := by decide
theorem test_decode_derint : decode 0b0000000000000_0_0_000_001_000_00100000#32 = .command (.derint 1) := by decide
theorem test_decode_dersig : decode 0b0000000000000_0_0_010_001_000_00100001#32 = .command (.dersig 1 2) := by decide
theorem test_decode_verify : decode 0b0000000000000_0_0_000_000_101_00110000#32 = .command (.verify 5) := by decide
theorem test_decode_verifyabi :
    decode 0b0000000000000_0_0_000_000_111_00110001#32 = .command (.verifyabi 7) := by decide

/-- The illegal words of 95_test_vectors.md section 8, each with the check it fails. -/
theorem test_decode_illegal_words :
    decode 0x0000_0000#32 = .illegal .unknownOpcode ∧ decode 0x0000_0008#32 = .illegal .unknownOpcode ∧
    decode 0x0000_00FF#32 = .illegal .unknownOpcode ∧ decode 0x0008_0001#32 = .illegal .reservedBits ∧
    decode 0x0004_0001#32 = .illegal (.nonZeroField .v) ∧ decode 0x0000_4005#32 = .illegal (.nonZeroField .rs2) ∧
    decode 0x0002_0007#32 = .illegal (.nonZeroField .m) ∧ decode 0x0000_0711#32 = .illegal (.pairSeven .rd) ∧
    decode 0x0000_3810#32 = .illegal (.pairSeven .rs1) ∧ decode 0x0000_3814#32 = .illegal (.nonZeroField .rs1) ∧
    decode 0x0000_0115#32 = .illegal (.nonZeroField .rd) ∧ decode 0x0000_4020#32 = .illegal (.nonZeroField .rs2) ∧
    decode 0x0000_0830#32 = .illegal (.nonZeroField .rs1) ∧ decode 0x0002_0030#32 = .illegal (.nonZeroField .m) := by
  decide

/-- An illegal word completes with ERR = 1 and STATUS = 0x102. -/
theorem test_illegal_status :
    look (step (State.reset.withFetchWord 32 0x0000_0711)) State.statusWord = some 0x0000_0102#32 := by decide

/-! ## Modular arithmetic -/

/-- M1: (p - 1) + 1 wraps to 0. -/
theorem test_madd_wraps : runReg (withRegs [(1, Config.p - 1), (2, 1)]) 0x0000_8801 0 = some (.ok, 0) := by
  decide +kernel

/-- M28: the destination is both sources. -/
theorem test_madd_aliased : runReg (withRegs [(1, 2)]) 0x0000_4901 1 = some (.ok, 4) := by decide +kernel

/-- M4: 0 - 1 is p - 1. -/
theorem test_msub_borrows : runReg (withRegs [(2, 1)]) 0x0000_8802 0 = some (.ok, Config.p - 1) := by decide +kernel

/-- M6: the second operand is n itself. -/
theorem test_msub_range : runReg (withRegs [(1, 3), (2, Config.n)]) 0x0002_8802 0 = some (.range, 0) := by
  decide +kernel

/-- M10: Gx * Gy mod p. -/
theorem test_mmul_gx_gy : runReg (withRegs [(1, Config.gx), (2, Config.gy)]) 0x0000_8803 0
    = some (.ok, 0x823CD15F_6DD3C719_33565064_513A6B2B_D183E554_C6A08622_F713EBBB_FACE98BE) := by decide +kernel

/-- M8: 2 * ((n + 1) / 2) mod n. -/
theorem test_mmul_mod_n : runReg (withRegs [(1, 2), (2, (Config.n + 1) / 2)]) 0x0002_8803 0 = some (.ok, 1) := by
  decide +kernel

/-- M12: 2^-256 mod n. -/
theorem test_montmul_ones : runReg (withRegs [(1, 1), (2, 1)]) 0x0002_8804 0
    = some (.ok, 0x60D06633_4905C1E9_07F8B604_1E607725_BADEF3E2_43566FAF_CE1BC8F7_9C197C79) := by decide +kernel

/-- M13: into Montgomery form with R2P. -/
theorem test_montmul_r2p : runReg (withRegs [(1, 7), (2, Config.r2p)]) 0x0000_8804 0
    = some (.ok, 0x00000006_FFFFFFF8_FFFFFFFF_FFFFFFFF_FFFFFFF9_00000000_00000000_00000007) := by decide +kernel

/-- M18: the inverse of 3 modulo p, by Fermat. -/
theorem test_minv_fermat : runReg (withRegs [(1, 3)]) 0x0000_0805 0
    = some (.ok, 0xAAAAAAAA_00000000_AAAAAAAA_AAAAAAAA_AAAAAAAB_55555555_55555555_55555555) := by decide +kernel

/-- M19: the inverse of 3 modulo n, by Euclid. -/
theorem test_minv_euclid : runReg (withRegs [(1, 3)]) 0x0006_0805 0
    = some (.ok, 0xAAAAAAAA_00000000_AAAAAAAA_AAAAAAAA_7DEF51C9_1A0FBF03_4D26872C_A84218E1) := by decide +kernel

/-- M25: MAX mod n. -/
theorem test_mred_max : runReg (withRegs [(1, 2 ^ 256 - 1)]) 0x0002_0806 0
    = some (.ok, 0x00000000_FFFFFFFF_00000000_00000000_43190552_58E8617B_0C46353D_039CDAAE) := by decide +kernel

/-- M26: p mod p. -/
theorem test_mred_p : runReg (withRegs [(1, Config.p)]) 0x0000_0806 0 = some (.ok, 0) := by decide +kernel

/-- LDC, K = 5 (GY) and K = 7 (R2N), to R3. -/
theorem test_ldc_gy : runReg State.reset 0x0000_2B07 3
    = some (.ok, 0x4FE342E2_FE1A7F9B_8EE7EB4A_7C0F9E16_2BCE3357_6B315ECE_CBB64068_37BF51F5) := by decide +kernel
theorem test_ldc_r2n : runReg State.reset 0x0000_3B07 3
    = some (.ok, 0x66E12D94_F3D95620_2845B239_2B6BEC59_4699799C_49BD6FA6_83244C95_BE79EEA2) := by decide +kernel

/-! ## DER -/

/-- DR4: a sign-guard byte. -/
theorem test_derint_guard : runOut (withRegs [(1, 0x80)]) 0x0000_0820 = some (4, [0x02#8, 0x02#8, 0x00#8, 0x80#8]) := by
  decide +kernel

/-- DR9: 2^255, the longest form. -/
theorem test_derint_longest : runOut (withRegs [(1, 2 ^ 255)]) 0x0000_0820
    = some (35, [0x02#8, 0x21#8, 0x00#8, 0x80#8] ++ List.replicate 31 0x00#8) := by decide +kernel

/-- DR15. -/
theorem test_dersig : runOut (withRegs [(1, 0x7F), (2, 0x80)]) 0x0000_8821
    = some (9, [0x30#8, 0x07#8, 0x02#8, 0x01#8, 0x7F#8, 0x02#8, 0x02#8, 0x00#8, 0x80#8]) := by decide +kernel

/-- DR17: the longest output, 72 bytes. -/
theorem test_dersig_longest : runOut (withRegs [(1, 2 ^ 256 - 1), (2, 2 ^ 256 - 1)]) 0x0000_8821
    = some (72, [0x30#8, 0x46#8] ++ ([0x02#8, 0x21#8, 0x00#8] ++ List.replicate 32 0xFF#8)
        ++ ([0x02#8, 0x21#8, 0x00#8] ++ List.replicate 32 0xFF#8)) := by decide +kernel

/-- The length function alone (section 3). -/
theorem test_derLen : derLen 127 = [0x7F#8] ∧ derLen 128 = [0x81#8, 0x80#8] ∧
    derLen 256 = [0x82#8, 0x01#8, 0x00#8] := by decide +kernel

/-! ## Points -/

/-- P5: (0, Y0) is on E; the answer is in R0 and in RESULT. -/
theorem test_pvalid_x_zero : look (step ((withRegs [(3, y0)]).withFetchWord 32 0x0000_1010))
    (fun t => (t.err, t.regVal 0, t.result)) = some (.ok, 1, true) := by decide +kernel

/-- P6: x = p is rejected, not reduced. -/
theorem test_pvalid_x_p : look (step ((withRegs [(2, Config.p), (3, y0)]).withFetchWord 32 0x0000_1010))
    (fun t => (t.err, t.regVal 0, t.result)) = some (.ok, 0, false) := by decide +kernel

/-- P8: 2G + G. -/
theorem test_padd_chord :
    runPair (withRegs [(0, twoG.1), (1, twoG.2), (2, Config.gx), (3, Config.gy)]) 0x0000_8411 4
      = some (.ok, threeG) := by decide +kernel

/-- P11: G + (-G) is O. -/
theorem test_padd_opposite :
    runPair (withRegs [(0, Config.gx), (1, Config.gy), (2, Config.gx), (3, negGy)]) 0x0000_8411 4
      = some (.ok, (0, 0)) := by decide +kernel

/-- P16: doubling (0, Y0). -/
theorem test_pdbl : runPair (withRegs [(1, y0)]) 0x0000_0212 2
    = some (.ok, (0xC2242BE3_59879ECF_8A92B8D9_79C6DC96_D9005A00_236BA20E_7EB2465F_E76829B4,
        0x43208408_5D73E7BF_62482588_0C5908A4_49085976_42FDE9E4_40B3B836_A1B905A6)) := by decide +kernel

/-- P15: (Gx, Gy + 1) is not on E. -/
theorem test_pdbl_invalid : runPair (withRegs [(0, Config.gx), (1, Config.gy + 1)]) 0x0000_0212 2
    = some (.point, (0, 0)) := by decide +kernel

/-- P20: 3G. -/
theorem test_pmul_three : runPair (withRegs [(2, Config.gx), (3, Config.gy), (5, 3)]) 0x0001_5013 0
    = some (.ok, threeG) := by decide +kernel

/-- P17: 0 * G is O. -/
theorem test_pmul_zero : runPair (withRegs [(0, 9), (2, Config.gx), (3, Config.gy)]) 0x0001_5013 0
    = some (.ok, (0, 0)) := by decide +kernel

/-- X3: the key 02 and 32 zeros, with its uncompressed output. -/
theorem test_decomp : look (step ((withIn (0x02#8 :: List.replicate 32 0x00#8) 33 State.reset).withFetchWord 32 0x0000_0214))
    (fun t => (t.err, t.pairVal 2, t.outLen.toNat, readBytes t.mem Config.outBase 65))
      = some (.ok, (0, y0), 65, 0x04#8 :: (List.replicate 32 0x00#8 ++ be32 y0)) := by decide +kernel

/-- X6: 1 + a + b is not a square. -/
theorem test_decomp_no_root :
    runPair (withIn ([0x02#8] ++ List.replicate 31 0x00#8 ++ [0x01#8]) 33 State.reset) 0x0000_0214 2
      = some (.pubkey, (0, 0)) := by decide +kernel

/-- X10: G compressed. -/
theorem test_compress : runOut (withRegs [(4, Config.gx), (5, Config.gy)]) 0x0000_2015
    = some (33, [0x03#8, 0x6b#8, 0x17#8, 0xd1#8, 0xf2#8, 0xe1#8, 0x2c#8, 0x42#8, 0x47#8, 0xf8#8, 0xbc#8, 0xe6#8, 0xe5#8,
        0x63#8, 0xa4#8, 0x40#8, 0xf2#8, 0x77#8, 0x03#8, 0x7d#8, 0x81#8, 0x2d#8, 0xeb#8, 0x33#8, 0xa0#8, 0xf4#8, 0xa1#8,
        0x39#8, 0x45#8, 0xd8#8, 0x98#8, 0xc2#8, 0x96#8]) := by decide +kernel

/-- X13: O compressed, without validation. -/
theorem test_compress_infinity : runOut State.reset 0x0000_2015
    = some (33, 0x02#8 :: List.replicate 32 0x00#8) := by decide +kernel

/-! ## Verification -/

/-- VF15: the point's x is n + 3, and r = 3 accepts. -/
theorem test_verify_x_above_n :
    look (step ((withRegs [(0, 0x1234), (1, 3), (2, 1), (3, q8x), (4, q8y)]).withFetchWord 32 0x0000_0530))
      (fun t => (t.err, t.regVal 5, t.result)) = some (.ok, 1, true) := by decide +kernel

/-- VF17: the point is O. -/
theorem test_verify_infinity :
    look (step ((withRegs [(0, 0x1234), (1, 0x77), (2, 1), (3, q9x), (4, q9y)]).withFetchWord 32 0x0000_0530))
      (fun t => (t.err, t.regVal 5, t.result)) = some (.ok, 0, false) := by decide +kernel

/-- VF15's fields as a blob of 160 bytes, each field big-endian. -/
def vf15Blob : List Byte := be32 0x1234 ++ be32 3 ++ be32 1 ++ be32 q8x ++ be32 q8y

/-- VF15 through the flat entry point, R7 and STATUS as in VA1. -/
theorem test_verifyabi : look (step ((withIn vf15Blob 160 State.reset).withFetchWord 32 0x0000_0731))
    (fun t => (t.regVal 7, t.statusWord)) = some (1, 0x0000_0006#32) := by decide +kernel

/-- VA2: a length of 159. -/
theorem test_verifyabi_short : look (step ((withIn vf15Blob 159 State.reset).withFetchWord 32 0x0000_0731))
    (fun t => (t.regVal 7, t.statusWord)) = some (0, 0x0000_0002#32) := by decide +kernel

/-! ## The bus (section 8), one transfer each -/

/-- One transfer from a state. -/
def transfer (e : HostEvent) (s : State) : CmdOutcome := step { s with inputs := [e] }

/-- B1: ID. -/
theorem test_bus_id : look (transfer (.read 0x000#12) State.reset) (·.prdata) = some 0x50323536#32 := by decide +kernel

/-- B2: word 0 holds the low bits. -/
theorem test_bus_reg_low : look (transfer (.write 0x100#12 1#32) State.reset) (·.regVal 0) = some 1 := by decide +kernel

/-- B3: word 7 holds the high bits. -/
theorem test_bus_reg_high : look (transfer (.write 0x11C#12 0x80000000#32) State.reset) (·.regVal 0) = some (2 ^ 255) := by
  decide +kernel

/-- B4: a misaligned write. -/
theorem test_bus_misaligned : look (transfer (.write 0x102#12 5#32) State.reset) (fun t => (t.pslverr, t.regVal 0))
    = some (true, 0) := by decide +kernel

/-- B6: OUT_BUF is read-only. -/
theorem test_bus_out_read_only : look (transfer (.write 0x300#12 5#32) State.reset) (fun t => (t.mem, t.pslverr))
    = some ([], false) := by decide +kernel

/-- B7: IN_LEN holds bits [7:0]. -/
theorem test_bus_inLen : look (transfer (.write 0x010#12 0x1A0#32) State.reset) (·.inLen.toNat) = some 0xA0 := by
  decide +kernel

/-- B8: the bytes of an IN_BUF word. -/
theorem test_bus_inBuf : look (transfer (.write 0x200#12 0x04030201#32) State.reset) (fun t => readBytes t.mem 0x200 4)
    = some [0x01#8, 0x02#8, 0x03#8, 0x04#8] := by decide +kernel

/-- B9: OUT_LEN reads 3 after DR2's output. -/
theorem test_bus_outLen : look (transfer (.read 0x014#12) ((withRegs []).setOut [0x02#8, 0x01#8, 0x01#8])) (·.prdata)
    = some 3#32 := by decide +kernel

/-- B9: OUT_BUF holds the output of DR2, and its first word reads 0x0001_0102. -/
theorem test_bus_outBuf : look (transfer (.read 0x300#12) ((withRegs []).setOut [0x02#8, 0x01#8, 0x01#8])) (·.prdata)
    = some 0x00010102#32 := by decide +kernel

/-- B10: IE is set, SRST reads 0. -/
theorem test_bus_ctrl : look (transfer (.write 0x004#12 1#32) State.reset) State.ctrlWord = some 1#32 := by decide +kernel

/-- PR6 (a): a write to a register while a command runs is dropped and sets WERR. -/
theorem test_bus_dropped : look (transfer (.write 0x104#12 7#32) ((withRegs [(0, 1)]).accept 0x1013#32))
    (fun t => (t.statusWord, t.regVal 0)) = some (0x0000_0009#32, 1) := by decide +kernel

/-- PR6: a soft reset of a running command; the IE bit of the same write is ignored. -/
theorem test_bus_soft_reset : look (transfer (.write 0x004#12 3#32) ((withRegs [(2, Config.gx)]).accept 0x1013#32))
    (fun t => t == { State.reset with pslverr := false }) = some true := by decide +kernel

/-! ## The host's notation (R104 to R106) -/

/-- The examples of R104, with MINV's two suffixes. -/
theorem test_assembler_forms : assemblerForm (.mmul 5 5 6 .n) = "MMUL.N r5, r5, r6" ∧
    assemblerForm (.padd 0 0 3) = "PADD p0, p0, p3" ∧ assemblerForm (.ldc 0 .gx) = "LDC r0, GX" ∧
    assemblerForm (.minv 6 2 .n .euclid) = "MINV.N.E r6, r2" := by decide +kernel

/-- The words of R104's examples. -/
theorem test_encode_examples : encode (.mmul 5 5 6 .n) = 0x0003_AD03#32 ∧ encode (.padd 0 0 3) = 0x0000_C011#32 ∧
    encode (.ldc 0 .gx) = 0x0000_2007#32 := by decide

/-- R105's condition: MDIV with rd = rs1 has no expansion. -/
theorem test_mdiv_condition : (Pseudo.mdiv .p 1 1 2).expand = none ∧
    (Pseudo.mdiv .p 0 1 2).expand = some [.exec (.minv 0 2 .p .fermat), .exec (.mmul 0 1 0 .p)] := by decide +kernel

/-- The first and last words of PR1's first LD256, H of VF1. -/
theorem test_ld256_words :
    (ld256Events 0 0xBA7816BF_8F01CFEA_414140DE_5DAE2223_B00361A3_96177A9C_B410FF61_F20015AD).head?
      = some (.write 0x100#12 0xF20015AD#32) ∧
    (ld256Events 0 0xBA7816BF_8F01CFEA_414140DE_5DAE2223_B00361A3_96177A9C_B410FF61_F20015AD).getLast?
      = some (.write 0x11C#12 0xBA7816BF#32) := by decide +kernel

/-- PR2's last LDBUF word, zero-padded. -/
theorem test_ldbuf_padding : ldbufEvents 0x21C [0x15#8, 0x8b#8, 0xa7#8, 0xf5#8, 0x0c#8]
    = [.write 0x21C#12 0xF5A78B15#32, .write 0x220#12 0x0000000C#32] := by decide +kernel

/-- R130's reference procedure on M12's and M13's operands. -/
theorem test_montgomery_reference :
    montMulReference Config.n 1 1 = 0x60D06633_4905C1E9_07F8B604_1E607725_BADEF3E2_43566FAF_CE1BC8F7_9C197C79 ∧
    montMulReference Config.p 7 Config.r2p
      = 0x00000006_FFFFFFF8_FFFFFFFF_FFFFFFFF_FFFFFFF9_00000000_00000000_00000007 := by decide +kernel

/-! ## Witnesses: states and operands that meet the hypotheses of each statement, clause by clause -/

/-- Idle after reset, with some coming events. -/
def idle (evs : List HostEvent) : State := { State.reset with inputs := evs }

/-- A command word in flight, with some coming events. -/
def running (w : Word) (evs : List HostEvent) : State :=
  { State.reset with cmd := w, busy := true, inputs := evs }

/-- rst_n held low, with some coming events. -/
def held (evs : List HostEvent) : State := { State.reset with rstN := false, inputs := evs }

/-- Completed, DONE set, WERR set, IE set, with some coming events. -/
def finished (evs : List HostEvent) : State :=
  { State.reset with done := true, result := true, werr := true, ie := true, inputs := evs }

theorem witness_DecodeInvertsEncode : (Instr.padd 6 6 6).wf = true ∧ (Instr.minv 7 7 .n .euclid).wf = true := by decide

theorem witness_EncodeInvertsDecode : decode 0x0001_C013#32 = .command (.pmul 0 0 7) := by decide

theorem witness_DecoderAcceptsExactlyTheTable :
    (∃ i, decode 0x0000_0711#32 = .command i) = False ∧ Opcode.padd.row.fits 0x0000_0711#32 = true ∧
    Opcode.padd.usage .rd = .pr ∧ (fieldsOf 0x0000_0711#32).value .rd = 7 := by
  refine ⟨?_, by decide, by decide, by decide⟩
  rw [show decode 0x0000_0711#32 = .illegal (.pairSeven .rd) by decide]
  simp

theorem witness_DecodeChecksInOrder_reserved : bitField 0x0008_0001#32 31 19 ≠ 0 ∧ bitField 0x8000_0001#32 31 19 ≠ 0 := by
  decide

theorem witness_DecodeChecksInOrder_opcode : bitField 0x0004_0008#32 31 19 = 0 ∧
    ∀ o : Opcode, o.value ≠ bitField 0x0004_0008#32 7 0 := by
  refine ⟨by decide, fun o => ?_⟩
  cases o <;> decide

theorem witness_DecodeChecksInOrder_field : bitField 0x0004_C005#32 31 19 = 0 ∧ Opcode.minv.value = bitField 0x0004_C005#32 7 0 ∧
    [Field.rd, .rs1, .rs2, .m, .v] = [.rd, .rs1] ++ .rs2 :: [.m, .v] ∧
    (∀ g ∈ [Field.rd, .rs1], ¬(Opcode.minv.usage g = .zero ∧ (fieldsOf 0x0004_C005#32).value g ≠ 0) ∧
      ¬(Opcode.minv.usage g = .pr ∧ (fieldsOf 0x0004_C005#32).value g = 7)) ∧
    Opcode.minv.usage .rs2 = .zero ∧ (fieldsOf 0x0004_C005#32).value .rs2 ≠ 0 := by decide

theorem witness_DecodeChecksInOrder_pair : bitField 0x0001_C011#32 31 19 = 0 ∧ Opcode.padd.value = bitField 0x0001_C011#32 7 0 ∧
    [Field.rd, .rs1, .rs2, .m, .v] = [.rd, .rs1] ++ .rs2 :: [.m, .v] ∧
    (∀ g ∈ [Field.rd, .rs1], ¬(Opcode.padd.usage g = .zero ∧ (fieldsOf 0x0001_C011#32).value g ≠ 0) ∧
      ¬(Opcode.padd.usage g = .pr ∧ (fieldsOf 0x0001_C011#32).value g = 7)) ∧
    Opcode.padd.usage .rs2 = .pr ∧ (fieldsOf 0x0001_C011#32).value .rs2 = 7 := by decide

theorem witness_DecodeChecksInOrder_command : bitField 0x0001_B611#32 31 19 = 0 ∧
    Opcode.padd.value = bitField 0x0001_B611#32 7 0 ∧
    ∀ f, ¬(Opcode.padd.usage f = .zero ∧ (fieldsOf 0x0001_B611#32).value f ≠ 0) ∧
      ¬(Opcode.padd.usage f = .pr ∧ (fieldsOf 0x0001_B611#32).value f = 7) := by
  refine ⟨by decide, by decide, fun f => ?_⟩
  cases f <;> decide

theorem witness_IllegalWordCompletesWithErrIllegal :
    bitField 0x0008_0001#32 31 19 ≠ 0 ∧ bitField 0x0000_0000#32 7 0 = 0x00 ∧ bitField 0x0000_0008#32 7 0 = 0x08 ∧
    bitField 0x0000_000F#32 7 0 = 0x0F ∧ bitField 0x0000_0016#32 7 0 = 0x16 ∧ bitField 0x0000_001F#32 7 0 = 0x1F ∧
    bitField 0x0000_0022#32 7 0 = 0x22 ∧ bitField 0x0000_002F#32 7 0 = 0x2F ∧ bitField 0x0000_0032#32 7 0 = 0x32 ∧
    bitField 0x0000_00FF#32 7 0 = 0xFF ∧
    (Opcode.madd.value = bitField 0x0004_0001#32 7 0 ∧ Opcode.madd.usage .v = .zero ∧
      (fieldsOf 0x0004_0001#32).value .v ≠ 0) ∧
    (Opcode.pvalid.value = bitField 0x0000_3810#32 7 0 ∧ Opcode.pvalid.usage .rs1 = .pr ∧
      (fieldsOf 0x0000_3810#32).value .rs1 = 7) := by decide

theorem witness_IllFormedPairCompletesWithErrIllegal : (Instr.compress 7).wf = false := by decide

theorem witness_StepRunsTheDecodedCommand :
    ((running 0x0820#32 []).busy = true ∧ (running 0x0820#32 []).rstN = true ∧
      decode (running 0x0820#32 []).cmd = .command (.derint 1) ∧ (running 0x0820#32 []).inputs = []) ∧
    ((running 0x0820#32 [.complete, .read 0]).busy = true ∧ (running 0x0820#32 [.complete, .read 0]).rstN = true ∧
      decode (running 0x0820#32 [.complete, .read 0]).cmd = .command (.derint 1) ∧
      (running 0x0820#32 [.complete, .read 0]).inputs = .complete :: [.read 0]) ∧
    decodeTableWord 32 0x0820 = some (.derint 1) := by decide

theorem witness_StepRunsTheDecodedCommand_idle : (idle []).inFlight = false ∧ (idle []).inputs = [] ∧
    (held [.complete]).inFlight = false ∧ (held [.complete]).inputs = .complete :: [] := by decide

theorem witness_ResetInputForcesResetValues : (running 0x0820#32 [.rstLow]).inputs = .rstLow :: [] ∧
    (held [.write 0x100#12 1#32]).rstN = false ∧ (held [.write 0x100#12 1#32]).inputs = .write 0x100#12 1#32 :: [] ∧
    (held [.read 0#12]).inputs = .read 0#12 :: [] := by decide

theorem witness_ResetInputForcesResetValues_rise : (held [.rstHigh]).inputs = .rstHigh :: [] := by decide

theorem witness_ResetInputForcesResetValues_held : (held [.complete]).rstN = false ∧ HoldsResetValues (held [.complete]) ∧
    ∃ t, step (held [.complete]) = .next t :=
  ⟨rfl, ⟨by decide, fun _ _ => rfl, fun _ _ => rfl, rfl, rfl, by decide, by decide, rfl, rfl, rfl⟩, ⟨_, rfl⟩⟩

theorem witness_ResetAbortsTheCommand :
    (running 0x0820#32 [.rstLow, .complete]).inputs = .rstLow :: .complete :: [] := by decide

theorem witness_SoftResetForcesResetValues_write : (3#32 : Word).getLsbD 1 = true ∧
    (running 0x0820#32 [.write 0x004#12 3#32]).WritesNext 0x004#12 3#32 := ⟨by decide, rfl, [], rfl⟩

theorem witness_SoftResetForcesResetValues_end : ∃ t, step (running 0x0000#32 [.complete]) = .next t ∧
    (running 0x0000#32 [.complete]).busy = true ∧ t.busy = false ∧
    ∀ rest, (running 0x0000#32 [.complete]).inputs ≠ .rstLow :: rest :=
  ⟨_, rfl, rfl, rfl, fun _ h => by simp [running] at h⟩

/-- A state of the invariant that is not the reset state: DECOMP's output of X3 stands, and a command is in flight. -/
def busyState : State :=
  { (withIn [0x02#8] 33 State.reset).setOut [0x02#8, 0x01#8, 0x01#8] with busy := true, cmd := 0x0820#32, inputs := [.complete] }

theorem witness_EveryStepKeepsTheInvariant_next : ∃ t, step busyState = .next t := ⟨_, rfl⟩

theorem witness_EveryStepKeepsTheInvariant : busyState.Inv where
  memWf := by decide +kernel
  memInBuffers := by decide +kernel
  busyCleared := fun _ => by decide +kernel
  resultOk := fun h => absurd h (by decide +kernel)
  outLenRange := by decide +kernel
  outZeroAfter := fun j h1 h2 => by
    have hlen : busyState.outLen.toNat = 3 := by decide +kernel
    have hmem : busyState.mem = [(0x200, 0x02#8), (0x300, 0x02#8), (0x301, 0x01#8), (0x302, 0x01#8)] := by decide +kernel
    rw [hlen] at h1
    simp only [State.outByte, hmem, readByte, Config.outBase]
    rw [if_neg (by omega), if_neg (by omega), if_neg (by omega), if_neg (by omega)]
    rfl
  heldInReset := fun h => absurd h (by decide +kernel)

theorem witness_CmdWriteAcceptsWhileIdle :
    ((idle [.write 0x00C#12 5#32]).rstN = true ∧ (idle [.write 0x00C#12 5#32]).inputs = .write 0x00C#12 5#32 :: [] ∧
      (idle [.write 0x00C#12 5#32]).busy = false) ∧
    ((running 0x0820#32 [.write 0x00C#12 5#32]).rstN = true ∧
      (running 0x0820#32 [.write 0x00C#12 5#32]).inputs = .write 0x00C#12 5#32 :: [] ∧
      (running 0x0820#32 [.write 0x00C#12 5#32]).busy = true) ∧
    decode (running 0x0820#32 [.complete]).cmd = .command (.derint 1) ∧
    decode (running 0x0000#32 []).cmd = .illegal .unknownOpcode := by decide

theorem witness_CmdWriteAcceptsWhileIdle_completes : (running 0x0820#32 [.complete]).CompletesNext ∧
    (running 0x0000#32 []).CompletesNext := ⟨⟨rfl, .inr ⟨[], rfl⟩⟩, ⟨rfl, .inl rfl⟩⟩

/-- The ends of every range of dropped offsets. -/
theorem witness_BusyAccessRules_dropped : droppedWhileBusy 0x00C#12 ∧ droppedWhileBusy 0x010#12 ∧
    droppedWhileBusy 0x100#12 ∧ droppedWhileBusy 0x1FC#12 ∧ droppedWhileBusy 0x200#12 ∧ droppedWhileBusy 0x29C#12 := by
  unfold droppedWhileBusy; decide

/-- The ends of every range of hidden offsets. -/
theorem witness_BusyAccessRules_hidden : hiddenWhileBusy 0x014#12 ∧ hiddenWhileBusy 0x100#12 ∧ hiddenWhileBusy 0x1FC#12 ∧
    hiddenWhileBusy 0x300#12 ∧ hiddenWhileBusy 0x37C#12 := by
  unfold hiddenWhileBusy; decide

theorem witness_BusyAccessRules : (running 0x0820#32 [.read 0x000#12]).busy = true ∧
    (running 0x0820#32 [.read 0x000#12]).rstN = true ∧ (running 0x0820#32 [.read 0x000#12]).inputs = .read 0x000#12 :: [] ∧
    ((0x29C#12).toNat % 4 = 0 ∧ 0x200 ≤ (0x29C#12).toNat ∧ (0x29C#12).toNat ≤ 0x29F) ∧
    (running 0x0820#32 [.write 0x004#12 1#32]).inputs = .write 0x004#12 1#32 :: [] ∧ (1#32 : Word).getLsbD 1 = false ∧
    (running 0x0820#32 [.write 0x004#12 2#32]).inputs = .write 0x004#12 2#32 :: [] ∧ (2#32 : Word).getLsbD 1 = true ∧
    (running 0x0820#32 [.write 0x008#12 8#32]).inputs = .write 0x008#12 8#32 :: [] := by decide

/-- The idle half of the access rules, a write and a read of each register it names. -/
theorem witness_BusyAccessRules_idle : (idle []).busy = false ∧ (idle []).rstN = true ∧
    (idle [.write 0x010#12 0x1A0#32]).inputs = .write 0x010#12 0x1A0#32 :: [] ∧
    (idle [.write 0x004#12 0xFFFFFFFD#32]).inputs = .write 0x004#12 0xFFFFFFFD#32 :: [] ∧
    (0xFFFFFFFD#32 : Word).getLsbD 1 = false ∧
    (idle [.read 0x000#12]).inputs = .read 0x000#12 :: [] ∧ (idle [.read 0x004#12]).inputs = .read 0x004#12 :: [] ∧
    (idle [.read 0x008#12]).inputs = .read 0x008#12 :: [] ∧ (idle [.read 0x00C#12]).inputs = .read 0x00C#12 :: [] ∧
    (idle [.read 0x010#12]).inputs = .read 0x010#12 :: [] ∧ (idle [.read 0x014#12]).inputs = .read 0x014#12 :: [] := by
  decide

theorem witness_BusyChangesOnlyAtItsEvents : (idle [.write 0x00C#12 5#32]).AcceptsNext ∧
    (running 0x0820#32 [.complete]).CompletesNext ∧ (running 0x0820#32 [.rstLow]).ResetsNext ∧
    (running 0x0820#32 [.write 0x004#12 2#32]).ResetsNext :=
  ⟨⟨rfl, _, rfl, _, rfl⟩, ⟨rfl, .inr ⟨_, rfl⟩⟩, .inl ⟨_, rfl⟩, .inr ⟨2#32, by decide, rfl, _, rfl⟩⟩

theorem witness_BusyChangesOnlyAtItsEvents_steps :
    (∃ t, step (idle [.write 0x00C#12 5#32]) = .next t ∧ (idle [.write 0x00C#12 5#32]).busy = false ∧ t.busy = true) ∧
    (∃ t, step (running 0x0000#32 [.complete]) = .next t ∧ (running 0x0000#32 [.complete]).busy = true ∧ t.busy = false) ∧
    (∃ t, step (running 0x0000#32 [.rstLow]) = .next t) :=
  ⟨⟨_, rfl, rfl, rfl⟩, ⟨_, rfl, rfl, rfl⟩, ⟨_, rfl⟩⟩

theorem witness_DoneChangesOnlyAtItsEvents :
    ((2#32 : Word).getLsbD 1 = true ∧ (finished [.write 0x008#12 2#32]).WritesNext 0x008#12 2#32) ∧
    (∃ t, step (finished [.write 0x008#12 2#32]) = .next t ∧ (finished [.write 0x008#12 2#32]).done = true ∧ t.done = false) ∧
    (∃ t, step (running 0x0000#32 []) = .next t ∧ (running 0x0000#32 []).done = false ∧ t.done = true) ∧
    busyState.Inv ∧ busyState.busy = true :=
  ⟨⟨by decide, rfl, _, rfl⟩, ⟨_, rfl, rfl, rfl⟩, ⟨_, rfl, rfl, rfl⟩, witness_EveryStepKeepsTheInvariant, rfl⟩

theorem witness_ResultBitFollowsTheBooleanResult_pvalid :
    look (exec (.pvalid 0 2) (withRegs [(2, Config.gx), (3, Config.gy)])) (fun t => (t.result, t.err)) = some (true, .ok) ∧
    look (exec (.pvalid 0 2) State.reset) (fun t => (t.result, t.err)) = some (false, .ok) := by decide +kernel

theorem witness_ResultBitFollowsTheBooleanResult_verify :
    look (exec (.verify 5) State.reset) (fun t => (t.result, t.regVal 5)) = some (false, 0) ∧
    look (exec (.verifyabi 7) State.reset) (fun t => (t.result, t.regVal 7)) = some (false, 0) ∧
    (look (step (idle [.write 0x00C#12 5#32])) (·.result)) = some false := by decide +kernel

theorem witness_WerrIsStickyAndCommandsIgnoreIt :
    (∃ t, step (running 0x0820#32 [.write 0x00C#12 5#32]) = .next t ∧
      (running 0x0820#32 [.write 0x00C#12 5#32]).busy = true ∧
      (running 0x0820#32 [.write 0x00C#12 5#32]).WritesNext 0x00C#12 5#32 ∧
      (running 0x0820#32 [.write 0x00C#12 5#32]).werr = false ∧ t.werr = true) ∧
    (∃ t, step (finished [.write 0x008#12 8#32]) = .next t ∧ (finished [.write 0x008#12 8#32]).werr = true ∧
      t.werr = false) ∧
    ∃ t, exec (.ldc 0 .p) (finished []) = .next t :=
  ⟨⟨_, rfl, rfl, ⟨rfl, _, rfl⟩, rfl, by decide +kernel⟩, ⟨_, rfl, rfl, rfl⟩, ⟨_, rfl⟩⟩

theorem witness_StatusWordAndItsWrite : (finished [.write 0x008#12 0xA#32]).rstN = true ∧
    (finished [.write 0x008#12 0xA#32]).inputs = .write 0x008#12 0xA#32 :: [] ∧
    (running 0x0820#32 [.write 0x008#12 0xA#32]).inputs = .write 0x008#12 0xA#32 :: [] ∧
    (finished []).statusWord = 0x0000_000E#32 := by decide

theorem witness_IrqRisesAndFallsAtItsEvents :
    (finished []).irq = true ∧
    look (step (finished [.write 0x008#12 2#32])) State.irq = some false ∧
    look (step (finished [.write 0x00C#12 0#32])) State.irq = some false ∧
    look (step (finished [.write 0x004#12 0#32])) State.irq = some false ∧
    look (step (finished [.rstLow])) State.irq = some false ∧
    look (step { running 0x0000#32 [.complete] with ie := true }) State.irq = some true ∧
    look (step { finished [.write 0x004#12 1#32] with ie := false }) State.irq = some true := by decide +kernel

theorem witness_MisalignedTransferChangesNothing : (idle [.read 0x101#12]).rstN = true ∧ (0x101#12).toNat % 4 ≠ 0 ∧
    (0xFFF#12).toNat % 4 ≠ 0 ∧ (idle [.read 0x101#12]).inputs = .read 0x101#12 :: [] ∧
    (idle [.write 0xFFF#12 5#32]).inputs = .write 0xFFF#12 5#32 :: [] := by decide

/-- The ends of every reserved range, and the read-only offsets. -/
theorem witness_ReservedAndReadOnlyAccess : reservedOffset 0x018#12 ∧ reservedOffset 0x0FC#12 ∧ reservedOffset 0x2A0#12 ∧
    reservedOffset 0x2FC#12 ∧ reservedOffset 0x380#12 ∧ reservedOffset 0xFFC#12 ∧ readOnlyOffset 0x000#12 ∧
    readOnlyOffset 0x014#12 ∧ readOnlyOffset 0x300#12 ∧ readOnlyOffset 0x37C#12 ∧ (0xFFC#12).toNat % 4 = 0 ∧
    (0x37C#12).toNat % 4 = 0 ∧ (idle [.read 0xFFC#12]).rstN = true ∧ (idle [.read 0xFFC#12]).inputs = .read 0xFFC#12 :: [] ∧
    (idle [.write 0x37C#12 5#32]).inputs = .write 0x37C#12 5#32 :: [] ∧
    ((3#32 : Word).getLsbD 0 = (0xFFFFFFFF#32 : Word).getLsbD 0 ∧ (3#32 : Word).getLsbD 1 = (0xFFFFFFFF#32 : Word).getLsbD 1) ∧
    (0x1A0#32 : Word).setWidth 8 = (0xA0#32 : Word).setWidth 8 := by
  unfold reservedOffset readOnlyOffset; decide

/-- Word 7 of R7, the last of the window. -/
theorem witness_RegisterWindowReadsAndWrites : regOffset 7 7 = 0x1FC#12 ∧ (idle [.read 0x1FC#12]).rstN = true ∧
    (idle [.read 0x1FC#12]).busy = false ∧ (idle [.read (regOffset 7 7)]).inputs = .read (regOffset 7 7) :: [] ∧
    (idle [.write (regOffset 0 0) 5#32]).inputs = .write (regOffset 0 0) 5#32 :: [] := by decide

/-- The first and last words of both buffers. -/
theorem witness_BufferWordsPackLittleEndian : BitVec.ofNat 12 (0x200 + 4 * 39) = 0x29C#12 ∧
    BitVec.ofNat 12 (0x300 + 4 * 31) = 0x37C#12 ∧ (idle []).rstN = true ∧ (idle []).busy = false ∧ (idle []).mem.wf = true ∧
    (idle [.read (BitVec.ofNat 12 (0x200 + 4 * 39))]).inputs = .read (BitVec.ofNat 12 (0x200 + 4 * 39)) :: [] ∧
    (idle [.read (BitVec.ofNat 12 (0x300 + 4 * 31))]).inputs = .read (BitVec.ofNat 12 (0x300 + 4 * 31)) :: [] ∧
    (idle [.write (BitVec.ofNat 12 (0x200 + 4 * 0)) 5#32]).inputs = .write (BitVec.ofNat 12 (0x200 + 4 * 0)) 5#32 :: [] := by
  decide

theorem witness_ReadsHaveNoSideEffectAndWritesRepeat : (idle [.read 0x101#12]).rstN = true ∧
    (idle [.read 0x101#12]).inputs = .read 0x101#12 :: [] ∧ (idle []).mem.wf = true ∧
    ¬((0x29C#12 : Offset) = 0x00C#12 ∧ (idle []).busy = false) ∧
    ¬((0x00C#12 : Offset) = 0x00C#12 ∧ (running 0#32 []).busy = false) := by decide

theorem witness_LoadRegisterThenReadItBack : (idle (ld256Events 7 (2 ^ 256 - 1) ++ [])).rstN = true ∧
    (idle (ld256Events 7 (2 ^ 256 - 1) ++ [])).busy = false ∧ 2 ^ 256 - 1 < 2 ^ 256 ∧
    (idle (ld256Events 7 (2 ^ 256 - 1) ++ [])).inputs = ld256Events 7 (2 ^ 256 - 1) ++ [] := by decide +kernel

theorem witness_HostExecRunsTheCommand : (idle ((HostStatement.exec (.verify 7)).events ++ [])).rstN = true ∧
    (idle ((HostStatement.exec (.verify 7)).events ++ [])).busy = false ∧ (Instr.verify 7).wf = true ∧
    (idle ((HostStatement.exec (.verify 7)).events ++ [])).inputs = (HostStatement.exec (.verify 7)).events ++ [] := by
  decide +kernel

theorem witness_CommandsWriteOnlyTheirDestinations : State.reset.mem.wf = true ∧
    (∃ t, exec (.ldc 7 .p) State.reset = .next t) ∧ (∃ t, exec (.derint 1) State.reset = .next t) :=
  ⟨rfl, ⟨_, rfl⟩, ⟨_, rfl⟩⟩

theorem witness_CompletionSetsStatus :
    look (exec (.minv 0 1 .p .fermat) State.reset) (·.err) = some .invZero ∧
    look (exec (.mred 0 1 .p) State.reset) (·.err) = some .ok := by decide +kernel

theorem witness_CommandsThatRaiseOnlyErrIllegal :
    Instr.pvalid 7 7 ∈ [Instr.mred 7 7 .n, .ldc 7 .gy, .pvalid 7 7, .compress 7, .derint 7, .dersig 7 6, .verify 7, .verifyabi 7] ∧
    Instr.dersig 7 6 ∈ [Instr.mred 7 7 .n, .ldc 7 .gy, .pvalid 7 7, .compress 7, .derint 7, .dersig 7 6, .verify 7, .verifyabi 7] := by
  decide

/-- Two states that agree on what R38 names and differ in CMD, WERR, IE, OUT_BUF and OUT_LEN. -/
theorem witness_ResultsDependOnlyOnTheInputs :
    State.reset.mem.wf = true ∧ ((finished []).setOut [0x05#8]).mem.wf = true ∧
    State.reset.regs = ((finished []).setOut [0x05#8]).regs ∧ State.reset.inLen = ((finished []).setOut [0x05#8]).inLen ∧
    (∀ j, j < Config.inSize → State.reset.inByte j = ((finished []).setOut [0x05#8]).inByte j) ∧
    look (exec (.derint 1) State.reset) (·.err) = some .ok ∧
    look (exec (.derint 1) ((finished []).setOut [0x05#8])) (·.err) = some .ok := by decide +kernel

theorem witness_HostCannotDisturbARunningCommand :
    (running 0x0000#32 []).busy = true ∧ (running 0x0000#32 []).rstN = true ∧
    [HostEvent.write 0x104#12 7#32, .read 0x100#12, .write 0x004#12 1#32].all plainTransfer = true ∧
    (∃ t, Host.Core.run Sys2Proof.core ([HostEvent.write 0x104#12 7#32, .read 0x100#12, .write 0x004#12 1#32].length + 1)
      { running 0x0000#32 [] with inputs := [.write 0x104#12 7#32, .read 0x100#12, .write 0x004#12 1#32] ++ [.complete] }
        = .next t) ∧
    ∃ u, Host.Core.run Sys2Proof.core 1 { running 0x0000#32 [] with inputs := [.complete] } = .next u :=
  ⟨rfl, rfl, by decide, ⟨_, rfl⟩, ⟨_, rfl⟩⟩

/-- Both clauses of MADD, MSUB, MMUL and MONTMUL, and of MINV's range check, at their boundaries. -/
theorem witness_binary_modular :
    (modulus .p ≤ (withRegs [(1, Config.p)]).regVal 1 ∧ modulus .n ≤ (withRegs [(2, Config.n)]).regVal 2) ∧
    ((withRegs [(1, Config.p - 1), (2, Config.p - 1)]).regVal 1 < modulus .p ∧
      (withRegs [(1, Config.p - 1), (2, Config.p - 1)]).regVal 2 < modulus .p) ∧
    ((withRegs [(1, Config.n - 1), (2, 0)]).regVal 1 < modulus .n ∧
      (withRegs [(1, Config.n - 1), (2, 0)]).regVal 2 < modulus .n) := by decide +kernel

theorem witness_MaddAddsModulo : (withRegs [(1, Config.p)]).regVal 1 = modulus .p ∧
    (withRegs [(1, Config.p - 1)]).regVal 1 < modulus .p ∧ (withRegs [(1, Config.p - 1)]).regVal 2 < modulus .p := by
  decide +kernel

theorem witness_MsubSubtractsModulo : (withRegs [(2, Config.n)]).regVal 2 = modulus .n ∧
    (withRegs [(2, Config.n - 1)]).regVal 1 < modulus .n ∧ (withRegs [(2, Config.n - 1)]).regVal 2 < modulus .n := by
  decide +kernel

theorem witness_MmulMultipliesModulo : (withRegs [(1, Config.n)]).regVal 1 = modulus .n ∧
    (withRegs [(1, Config.n - 1), (2, Config.n - 1)]).regVal 1 < modulus .n ∧
    (withRegs [(1, Config.n - 1), (2, Config.n - 1)]).regVal 2 < modulus .n := by decide +kernel

theorem witness_MontmulGivesTheMontgomeryProduct : (withRegs [(2, Config.p)]).regVal 2 = modulus .p ∧
    (withRegs [(1, Config.p - 1), (2, Config.r2p)]).regVal 1 < modulus .p ∧
    (withRegs [(1, Config.p - 1), (2, Config.r2p)]).regVal 2 < modulus .p := by decide +kernel

/-- One state for each expansion: an idle block with the expansion's events and R2 = 5, R3 = 3. -/
theorem witness_PseudoInstructionsGiveTheirValues :
    (withRegs [(2, 5), (3, 3)]).rstN = true ∧ (withRegs [(2, 5), (3, 3)]).busy = false ∧
    (withRegs [(2, 5), (3, 3)]).regVal 2 < modulus .p ∧ 0 < (withRegs [(2, 5), (3, 3)]).regVal 3 ∧
    (withRegs [(2, 5), (3, 3)]).regVal 3 < modulus .p ∧
    (Pseudo.msqr .p 1 2).expand = some [.exec (.mmul 1 2 2 .p)] ∧
    (Pseudo.mmov .p 1 2).expand = some [.exec (.mred 1 2 .p)] ∧
    (Pseudo.mdiv .p 1 2 3).expand = some [.exec (.minv 1 3 .p .fermat), .exec (.mmul 1 2 1 .p)] ∧
    (Pseudo.tomont .p 1 2 3).expand = some [.exec (.ldc 3 .r2p), .exec (.montmul 1 2 3 .p)] ∧
    (Pseudo.frommont .p 1 2 3).expand = some [.ld256 3 1, .exec (.montmul 1 2 3 .p)] ∧
    ({ withRegs [(2, 5), (3, 3)] with inputs := programEvents [.ld256 3 1, .exec (.montmul 1 2 3 .p)] ++ [] } : State).inputs
      = programEvents [.ld256 3 1, .exec (.montmul 1 2 3 .p)] ++ [] := by decide +kernel

theorem witness_MinvGivesTheInverse : modulus .p = (withRegs [(1, Config.p)]).regVal 1 ∧ State.reset.regVal 1 = 0 ∧
    0 < (withRegs [(1, 1)]).regVal 1 ∧ (withRegs [(1, 1)]).regVal 1 < modulus .n ∧
    0 < (withRegs [(1, Config.p - 1)]).regVal 1 ∧ (withRegs [(1, Config.p - 1)]).regVal 1 < modulus .p := by
  decide +kernel

theorem witness_DerintEncodesMinimally : State.reset.mem.wf = true ∧
    2 ≤ (derContent 0x80).length ∧ (derContent 0x80).getD 0 0 = 0x00#8 ∧
    (2 ^ 247 ≤ (withRegs [(1, 2 ^ 247)]).regVal 1 ∧ (withRegs [(1, 2 ^ 247)]).regVal 1 < 2 ^ 255) ∧
    (2 ^ 247 ≤ (withRegs [(1, 2 ^ 255 - 1)]).regVal 1 ∧ (withRegs [(1, 2 ^ 255 - 1)]).regVal 1 < 2 ^ 255) ∧
    (runOut (withRegs [(1, 2 ^ 247)]) 0x0820).map (·.1) = some 34 ∧
    (runOut (withRegs [(1, 2 ^ 255 - 1)]) 0x0820).map (·.1) = some 34 ∧
    (runOut (withRegs [(1, 2 ^ 247 - 1)]) 0x0820).map (·.1) = some 33 := by decide +kernel

theorem witness_DersigWrapsTwoIntegers : (withRegs [(1, 2 ^ 256 - 1), (2, 0)]).mem.wf = true := by decide +kernel

theorem witness_DerLengthForms : 127 ≤ 127 ∧ 128 ≤ 128 ∧ 128 < 256 ^ 126 ∧ 256 ^ 126 - 1 < 256 ^ 126 := by decide +kernel

theorem witness_PvalidTestsTheCurveEquation : (6 : Reg) ≠ 7 ∧ State.reset.regVal 6 = 0 ∧ State.reset.regVal (6 + 1) = 0 ∧
    isOnCurve Config.gx Config.gy = true := by decide +kernel

/-- An operand off the curve (P12) for each clause, a valid one, and a command that never raises ERR_POINT. -/
theorem witness_InvalidPointOperandIsErrPoint : (6 : Reg) ≠ 7 ∧
    ¬((withRegs [(0, Config.gx), (1, Config.gy + 1)]).pairVal 0 = (0, 0) ∨
      isOnCurve ((withRegs [(0, Config.gx), (1, Config.gy + 1)]).pairVal 0).1
        ((withRegs [(0, Config.gx), (1, Config.gy + 1)]).pairVal 0).2 = true) ∧
    Instr.compress 6 ∈ [Instr.pvalid 6 6, .compress 6, .verify 6, .verifyabi 6] ∧
    look (exec (.compress 6) (withRegs [(6, 1)])) (·.err) = some .ok := by decide +kernel

theorem witness_PaddAndPdblWriteTheSum : (6 : Reg) ≠ 7 ∧
    validPt ((withRegs [(0, Config.gx), (1, Config.gy + 1)]).pairVal 0) = false ∧
    validPt ((withRegs [(0, Config.gx), (1, Config.gy)]).pairVal 0) = true ∧
    validPt ((withRegs [(0, Config.gx), (1, Config.gy)]).pairVal 6) = true := by decide +kernel

theorem witness_GroupLawIsTheEllipticCurveGroup : Fact (Nat.Prime Config.p) ∧ Nonempty curveOverField.Point :=
  ⟨⟨p_prime⟩, ⟨.zero⟩⟩

theorem witness_GroupLawInvertsOnlyNonZero_double : isOnCurve Config.gx Config.gy = true ∧
    ¬(Config.gx = Config.gx ∧ (Config.gy + Config.gy) % Config.p = 0) := by decide +kernel

theorem witness_GroupLawInvertsOnlyNonZero_chord : isOnCurve Config.gx Config.gy = true ∧ isOnCurve 0 y0 = true ∧
    ¬(Config.gx = 0 ∧ (Config.gy + y0) % Config.p = 0) ∧ Config.gx ≠ 0 := by decide +kernel

theorem witness_PmulIsRepeatedAddition : (6 : Reg) ≠ 7 ∧
    validPt ((withRegs [(6, Config.gx), (7, Config.gy), (0, 2 ^ 256 - 1)]).pairVal 6) = true ∧
    validPt (State.reset.pairVal 0) = true ∧
    validPt ((withRegs [(0, Config.gx), (1, Config.gy + 1)]).pairVal 0) = false := by decide +kernel

/-- X3 for the first clause; a length of 32 (X9), a prefix of 4 (X7) for the second. -/
theorem witness_DecompFindsThePointOrErrPubkey : (6 : Reg) ≠ 7 ∧
    (withIn (0x02#8 :: List.replicate 32 0x00#8) 33 State.reset).mem.wf = true ∧
    (withIn (0x02#8 :: List.replicate 32 0x00#8) 33 State.reset).inLen.toNat = 33 ∧
    (withIn (0x02#8 :: List.replicate 32 0x00#8) 33 State.reset).inByte 0 = 0x02#8 ∧
    isOnCurve ((withIn (0x02#8 :: List.replicate 32 0x00#8) 33 State.reset).inField 1) y0 = true ∧
    y0 % 2 = ((withIn (0x02#8 :: List.replicate 32 0x00#8) 33 State.reset).inByte 0).toNat % 2 ∧
    (withIn [0x03#8] 32 State.reset).inLen.toNat ≠ 33 ∧
    ¬((withIn [0x04#8] 33 State.reset).inByte 0 = 0x02#8 ∨ (withIn [0x04#8] 33 State.reset).inByte 0 = 0x03#8) := by
  decide +kernel

theorem witness_CompressWritesPrefixAndX : (6 : Reg) ≠ 7 ∧ (withRegs [(6, 1), (7, 1)]).mem.wf = true := by decide +kernel

/-- COMPRESS of G, its 33 bytes in IN_BUF; and (1, 0), below p and off the curve. -/
theorem witness_DecompOfCompressGivesThePointBack : (4 : Reg) ≠ 7 ∧ (6 : Reg) ≠ 7 ∧
    (withRegs [(4, Config.gx), (5, Config.gy)]).mem.wf = true ∧
    look (exec (.compress 4) (withRegs [(4, Config.gx), (5, Config.gy)])) (fun t =>
      (List.range 33).all fun j => (withIn (compressedKey (Config.gx, Config.gy)) 33 State.reset).inByte j == t.outByte j)
        = some true ∧
    (withIn (compressedKey (Config.gx, Config.gy)) 33 State.reset).inLen.toNat = 33 ∧
    isOnCurve ((withRegs [(4, Config.gx), (5, Config.gy)]).pairVal 4).1
      ((withRegs [(4, Config.gx), (5, Config.gy)]).pairVal 4).2 = true ∧
    ((withRegs [(4, 1)]).pairVal 4).1 < Config.p ∧ ((withRegs [(4, 1)]).pairVal 4).2 < Config.p ∧
    isOnCurve ((withRegs [(4, 1)]).pairVal 4).1 ((withRegs [(4, 1)]).pairVal 4).2 = false := by decide +kernel

/-- VF15 accepts. -/
theorem witness_VerifyFollowsTheSixSteps : verifySig 0x1234 3 1 q8x q8y = true := by decide +kernel

/-- VF15's blob for the second clause, a length of 161 (VA3) for the first. -/
theorem witness_VerifyabiReadsTheBlob : (withIn vf15Blob 160 State.reset).inLen.toNat = 160 ∧
    (0x1234 < 2 ^ 256 ∧ 3 < 2 ^ 256 ∧ 1 < 2 ^ 256 ∧ q8x < 2 ^ 256 ∧ q8y < 2 ^ 256) ∧
    (∀ j, j < 160 → (withIn vf15Blob 160 State.reset).inByte j = vf15Blob.getD j 0) ∧
    (withIn vf15Blob 161 State.reset).inLen.toNat ≠ 160 := by decide +kernel

end Sys2Proof.Tests
end

section
/-! PROOFS. What one step does to STATUS and CTRL.IE: the offsets each bus target names, the bits of the two words, the
next state of a served transfer, and one inversion of the step (10_state.md section 4, 20_memory.md). -/

namespace Sys2Proof.Machine

/-! ### The address map read backwards -/

/-- The offsets a bus target names (R66); a word-aligned offset of no other target is reserved. -/
def BusTarget.namedBy (a : Nat) : BusTarget → Prop
  | .id => a = 0x000
  | .ctrl => a = 0x004
  | .status => a = 0x008
  | .cmd => a = 0x00C
  | .inLen => a = 0x010
  | .outLen => a = 0x014
  | .regWord _ _ => 0x100 ≤ a ∧ a ≤ 0x1FF
  | .inBuf addr => addr = a ∧ 0x200 ≤ a ∧ a ≤ 0x29F
  | .outBuf addr => addr = a ∧ 0x300 ≤ a ∧ a ≤ 0x37F
  | .reserved => a % 4 = 0 → (0x018 ≤ a ∧ a ≤ 0x0FF) ∨ (0x2A0 ≤ a ∧ a ≤ 0x2FF) ∨ 0x380 ≤ a

/-- What an offset names is named by it (R66). -/
theorem busTarget_namedBy (off : Offset) : (busTarget off).namedBy off.toNat := by
  unfold busTarget busTargetAt
  split_ifs <;> simp only [BusTarget.namedBy, true_and] <;> omega

theorem aligned_iff {off : Offset} : aligned off = true ↔ off.toNat % 4 = 0 := by simp [aligned]

/-- A write that BUSY drops sets WERR and does nothing else (R33, R37). -/
theorem writeTarget_dropped {s : State} {off : Offset} (hb : s.busy = true) (hd : droppedWhileBusy off) (v : Word) :
    writeTarget s v (busTarget off) = s.dropWrite := by
  obtain ⟨hal, hrange⟩ := hd
  have hn := busTarget_namedBy off
  cases ht : busTarget off with
  | cmd | inLen | regWord | inBuf => simp [writeTarget, hb]
  | id | ctrl | status | outLen | outBuf | reserved =>
    rw [ht] at hn
    simp only [BusTarget.namedBy] at hn
    omega

/-- What BUSY hides reads 0 (R37). -/
theorem readTarget_hidden {s : State} {off : Offset} (hb : s.busy = true) (hh : hiddenWhileBusy off) :
    readTarget s (busTarget off) = 0 := by
  obtain ⟨hal, hrange⟩ := hh
  have hn := busTarget_namedBy off
  cases ht : busTarget off with
  | outLen | regWord | outBuf => simp [readTarget, hb]
  | id | ctrl | status | cmd | inLen | inBuf | reserved =>
    rw [ht] at hn
    simp only [BusTarget.namedBy] at hn
    omega

/-- The IN_BUF window reads its bytes, BUSY or idle (R37, R68). -/
theorem readTarget_inBuf {s : State} {off : Offset} (h1 : 0x200 ≤ off.toNat) (h2 : off.toNat ≤ 0x29F)
    (ha : off.toNat % 4 = 0) : readTarget s (busTarget off) = wordOfBytes s.mem off.toNat := by
  have hn := busTarget_namedBy off
  cases ht : busTarget off with
  | inBuf addr =>
    rw [ht] at hn
    obtain ⟨rfl, -⟩ := hn
    rfl
  | id | ctrl | status | cmd | inLen | outLen | regWord | outBuf | reserved =>
    rw [ht] at hn
    simp only [BusTarget.namedBy] at hn
    omega

/-! ### The words of STATUS and CTRL -/

/-- An error code fits the four bits of ERR (R29, R290). -/
theorem ErrCode.code_lt (c : ErrCode) : c.code < 2 ^ 4 := by cases c <;> decide

/-- The number of STATUS, bit after bit from the lowest (R29). -/
theorem State.statusWord_eq_bits (s : State) : s.statusWord =
    BitVec.ofNat 32 (Nat.bit s.busy (Nat.bit s.done (Nat.bit s.result (Nat.bit s.werr (s.err.code * 2 ^ 4))))) := by
  simp only [State.statusWord, Nat.bit_val]
  congr 1
  omega

/-- The bits of ERR, above four zero bits (R29). -/
theorem ErrCode.testBit_code_shifted (c : ErrCode) (b : Nat) :
    (c.code * 2 ^ 4).testBit b = if 4 ≤ b ∧ b ≤ 7 then c.code.testBit (b - 4) else false := by
  rw [Nat.testBit_mul_two_pow]
  by_cases hlow : 4 ≤ b
  · by_cases hhigh : b ≤ 7
    · simp [hlow, hhigh]
    · have : c.code < 2 ^ (b - 4) := lt_of_lt_of_le c.code_lt (Nat.pow_le_pow_right (by decide) (by omega))
      simp [hhigh, Nat.testBit_lt_two_pow this]
  · simp [hlow]

/-- The layout of STATUS (R29). -/
theorem getLsbD_statusWord (s : State) (b : Nat) : s.statusWord.getLsbD b =
    if b = 0 then s.busy else if b = 1 then s.done else if b = 2 then s.result else if b = 3 then s.werr
    else if 8 ≤ b ∧ b ≤ 11 then s.err.code.testBit (b - 8) else false := by
  rw [State.statusWord_eq_bits, BitVec.getLsbD_ofNat]
  match b with
  | 0 | 1 | 2 | 3 => simp [Nat.testBit_bit_succ]
  | b + 4 =>
    simp only [Nat.testBit_bit_succ, ErrCode.testBit_code_shifted]
    by_cases hb : 4 ≤ b ∧ b ≤ 7
    · have : b + 4 - 8 = b - 4 := by omega
      simp [hb, this, show b + 4 < 32 by omega, show 8 ≤ b + 4 ∧ b + 4 ≤ 11 by omega]
    · simp [hb]

/-- Every bit of CTRL but IE reads 0 (R28). -/
theorem getLsbD_ctrlWord (s : State) (b : Nat) : s.ctrlWord.getLsbD b = if b = 0 then s.ie else false := by
  unfold State.ctrlWord
  cases s.ie <;> cases b <;> simp [BitVec.getLsbD_one]

/-! ### The next state of a served transfer -/

theorem readTarget_setInputs (s : State) (evs : List HostEvent) (target : BusTarget) :
    readTarget (s.setInputs evs) target = readTarget s target := by
  cases target <;> rfl

/-- A served read of an aligned offset changes only what the bus shows (R63, R72). -/
theorem step_read_aligned {s : State} {off : Offset} {rest : List HostEvent} (hr : s.rstN = true)
    (ha : aligned off = true) (h : s.inputs = .read off :: rest) :
    step s = .next { s with prdata := readTarget s (busTarget off), pslverr := false, inputs := rest } := by
  rw [step_read hr h, busRead_aligned ha, readTarget_setInputs]
  rfl

/-- A served write of an aligned offset (R63). -/
theorem step_write_aligned {s : State} {off : Offset} {v : Word} {rest : List HostEvent} (hr : s.rstN = true)
    (ha : aligned off = true) (h : s.inputs = .write off v :: rest) :
    step s = .next ((writeTarget (s.setInputs rest) v (busTarget off)).setSlverr false) := by
  rw [step_write hr h, busWrite_aligned ha]

/-- The reads of ID, CTRL, STATUS, CMD and IN_LEN, BUSY or idle (R37). -/
theorem step_read_special {s : State} {rest : List HostEvent} (hr : s.rstN = true) {off : Offset}
    (h : s.inputs = .read off :: rest) :
    (off = 0x000#12 → step s = .next { s with prdata := 0x50323536#32, pslverr := false, inputs := rest }) ∧
    (off = 0x004#12 → step s = .next { s with prdata := s.ctrlWord, pslverr := false, inputs := rest }) ∧
    (off = 0x008#12 → step s = .next { s with prdata := s.statusWord, pslverr := false, inputs := rest }) ∧
    (off = 0x00C#12 → step s = .next { s with prdata := s.cmd, pslverr := false, inputs := rest }) ∧
    (off = 0x010#12 → step s = .next { s with prdata := s.inLen.setWidth 32, pslverr := false, inputs := rest }) := by
  refine ⟨?_, ?_, ?_, ?_, ?_⟩ <;> (rintro rfl; exact step_read_aligned hr rfl h)

/-- An acceptance (R35). -/
theorem step_accept {s : State} {w : Word} {rest : List HostEvent} (hr : s.rstN = true) (hb : s.busy = false)
    (h : s.inputs = .write 0x00C#12 w :: rest) :
    step s = .next (((s.setInputs rest).accept w).setSlverr false) := by
  rw [step_write_aligned hr rfl h, show busTarget 0x00C#12 = .cmd from rfl]
  simp [writeTarget, hb]

/-- A write dropped under BUSY (R33, R37). -/
theorem step_dropped {s : State} {off : Offset} {v : Word} {rest : List HostEvent} (hr : s.rstN = true)
    (hb : s.busy = true) (hd : droppedWhileBusy off) (h : s.inputs = .write off v :: rest) :
    step s = .next ((s.setInputs rest).dropWrite.setSlverr false) := by
  rw [step_write_aligned hr (aligned_iff.2 hd.1) h, writeTarget_dropped (s := s.setInputs rest) hb hd]

/-- A write to STATUS, BUSY or idle (R29). -/
theorem step_writeStatus {s : State} {v : Word} {rest : List HostEvent} (hr : s.rstN = true)
    (h : s.inputs = .write 0x008#12 v :: rest) :
    step s = .next (((s.setInputs rest).clearStatus v).setSlverr false) := step_write_aligned hr rfl h

/-- A write to CTRL, BUSY or idle (R28, R334). -/
theorem step_writeCtrl {s : State} {v : Word} {rest : List HostEvent} (hr : s.rstN = true)
    (h : s.inputs = .write 0x004#12 v :: rest) :
    step s = .next (((s.setInputs rest).writeCtrl v).setSlverr false) := step_write_aligned hr rfl h

theorem writeCtrl_ie {v : Word} (h : v.getLsbD 1 = false) (s : State) : s.writeCtrl v = s.setIe (v.getLsbD 0) :=
  if_neg (Bool.eq_false_iff.1 h)

theorem writeCtrl_softReset {v : Word} (h : v.getLsbD 1 = true) (s : State) : s.writeCtrl v = s.resetBlock :=
  if_pos h

/-- A write to CTRL with SRST clear sets IE, BUSY or idle (R28). -/
theorem step_setIe {s : State} {v : Word} {rest : List HostEvent} (hr : s.rstN = true)
    (h : s.inputs = .write 0x004#12 v :: rest) (h1 : v.getLsbD 1 = false) :
    step s = .next { s with ie := v.getLsbD 0, pslverr := false, inputs := rest } := by
  rw [step_writeCtrl hr h, writeCtrl_ie h1]
  rfl

/-- A completion, at its place among the events or with none left (R350, R351). -/
theorem step_of_completesNext {s : State} (h : s.CompletesNext) :
    step s = completeInFlight (s.setInputs s.inputs.tail) := by
  obtain ⟨hf, hnil | ⟨rest, hrest⟩⟩ := h
  · have hs : s.setInputs s.inputs.tail = s := by simp [State.setInputs, State.ext_iff, hnil]
    rw [step_nil hnil, completionStep_inFlight hf, hs]
  · rw [step_complete hf hrest, hrest, List.tail_cons]

/-! ### STATUS and CTRL.IE over one step -/

/-- STATUS and CTRL.IE of `t` are those of `s` (R28, R29). -/
structure SameFlags (s t : State) : Prop where
  busy : t.busy = s.busy
  done : t.done = s.done
  result : t.result = s.result
  werr : t.werr = s.werr
  err : t.err = s.err
  ie : t.ie = s.ie

/-- A command leaves the STATUS of some completion, and IE and WERR as they were (R33, R300, R301). -/
theorem exec_flags {i : Instr} {s t : State} (h : exec i s = .next t) :
    ∃ code res, SameFlags (s.finish code res) t := by
  rcases exec_inversion h with ⟨c, -, rfl⟩ | ⟨rd, v, res, rfl, -⟩ | ⟨prd, q, rfl, -⟩ | ⟨bytes, rfl, -⟩ |
    ⟨prd, q, bytes, rfl, -⟩
  all_goals exact ⟨_, _, rfl, rfl, rfl, rfl, rfl, rfl⟩

/-- So does the completion of a word that encodes no command (R291). -/
theorem completeInFlight_flags {s t : State} (h : completeInFlight s = .next t) :
    ∃ code res, SameFlags (s.finish code res) t := by
  cases hd : decode s.cmd with
  | command i =>
    rw [completeInFlight_command hd] at h
    exact exec_flags h
  | illegal why =>
    rw [completeInFlight_illegal hd] at h
    cases h
    exact ⟨_, _, rfl, rfl, rfl, rfl, rfl, rfl⟩

/-- What a step can do to STATUS and CTRL.IE, by its event. -/
inductive StepEffect (s t : State) : Prop
  | completes (code : ErrCode) (res : Bool) (hc : s.CompletesNext) (ht : SameFlags (s.finish code res) t)
  | resets (hr : s.ResetsNext) (ht : SameFlags State.reset t)
  | accepts (w : Word) (hb : s.busy = false) (hw : s.WritesNext 0x00C#12 w) (ht : SameFlags (s.accept w) t)
  | clearsStatus (v : Word) (hw : s.WritesNext 0x008#12 v) (ht : SameFlags (s.clearStatus v) t)
  | dropsWrite (off : Offset) (v : Word) (hb : s.busy = true) (hd : droppedWhileBusy off) (hw : s.WritesNext off v)
      (ht : SameFlags s.dropWrite t)
  | setsIe (v : Word) (h1 : v.getLsbD 1 = false) (hw : s.WritesNext 0x004#12 v)
      (ht : SameFlags (s.setIe (v.getLsbD 0)) t)
  | keepsFlags (ht : SameFlags s t)

/-- A served write of an aligned offset, by what the offset names. -/
theorem writeTarget_effect {s : State} {off : Offset} {v : Word} (rest : List HostEvent) (hw : s.WritesNext off v)
    (ha : aligned off = true) :
    StepEffect s ((writeTarget (s.setInputs rest) v (busTarget off)).setSlverr false) := by
  have hn := busTarget_namedBy off
  have drops : s.busy = true → droppedWhileBusy off →
      StepEffect s ((writeTarget (s.setInputs rest) v (busTarget off)).setSlverr false) := fun hb hd => by
    rw [writeTarget_dropped (s := s.setInputs rest) hb hd]
    exact .dropsWrite off v hb hd hw ⟨rfl, rfl, rfl, rfl, rfl, rfl⟩
  have idle : s.busy = false → ¬(s.setInputs rest).busy = true := Bool.eq_false_iff.1
  have hal := aligned_iff.1 ha
  cases ht : busTarget off <;> rw [ht] at hn drops <;> simp only [BusTarget.namedBy] at hn
  case id | outLen | outBuf | reserved => exact .keepsFlags ⟨rfl, rfl, rfl, rfl, rfl, rfl⟩
  case status =>
    obtain rfl : off = 0x008#12 := BitVec.eq_of_toNat_eq hn
    exact .clearsStatus v hw ⟨rfl, rfl, rfl, rfl, rfl, rfl⟩
  case ctrl =>
    obtain rfl : off = 0x004#12 := BitVec.eq_of_toNat_eq hn
    rw [writeTarget]
    cases h1 : v.getLsbD 1 with
    | false =>
      rw [writeCtrl_ie h1]
      exact .setsIe v h1 hw ⟨rfl, rfl, rfl, rfl, rfl, rfl⟩
    | true =>
      rw [writeCtrl_softReset h1]
      exact .resets (.inr ⟨v, h1, hw⟩) ⟨rfl, rfl, rfl, rfl, rfl, rfl⟩
  case cmd =>
    cases hb : s.busy with
    | true => exact drops hb ⟨hal, by omega⟩
    | false =>
      obtain rfl : off = 0x00C#12 := BitVec.eq_of_toNat_eq hn
      rw [writeTarget, if_neg (idle hb)]
      exact .accepts v hb hw ⟨rfl, rfl, rfl, rfl, rfl, rfl⟩
  case inLen | regWord | inBuf =>
    cases hb : s.busy with
    | true => exact drops hb ⟨hal, by omega⟩
    | false =>
      rw [writeTarget, if_neg (idle hb)]
      exact .keepsFlags ⟨rfl, rfl, rfl, rfl, rfl, rfl⟩

/-- The place of a completion: with no command in flight STATUS stays (R332). -/
theorem completionStep_effect {s u t : State} (hu : SameFlags s u) (hf : u.inFlight = s.inFlight)
    (hc : s.inFlight = true → s.CompletesNext) (h : completionStep u = .next t) : StepEffect s t := by
  cases hfl : s.inFlight with
  | true =>
    rw [completionStep_inFlight (hf.trans hfl)] at h
    obtain ⟨code, res, ht⟩ := completeInFlight_flags h
    exact .completes code res (hc hfl) ⟨ht.busy, ht.done, ht.result, ht.werr.trans hu.werr, ht.err, ht.ie.trans hu.ie⟩
  | false =>
    rw [completionStep_idle (hf.trans hfl)] at h
    cases h
    exact .keepsFlags hu

/-- The inversion of the step: every step has one of the effects. -/
theorem step_effect {s t : State} (h : step s = .next t) : StepEffect s t := by
  cases hin : s.inputs with
  | nil =>
    rw [step_nil hin] at h
    exact completionStep_effect ⟨rfl, rfl, rfl, rfl, rfl, rfl⟩ rfl (fun hf => ⟨hf, .inl hin⟩) h
  | cons e rest =>
    cases e with
    | read off =>
      cases hr : s.rstN with
      | true =>
        rw [step_read hr hin, State.busRead] at h
        split at h <;> cases h <;> exact .keepsFlags ⟨rfl, rfl, rfl, rfl, rfl, rfl⟩
      | false =>
        rw [step_read_low hr hin] at h
        cases h
        exact .keepsFlags ⟨rfl, rfl, rfl, rfl, rfl, rfl⟩
    | write off v =>
      cases hr : s.rstN with
      | true =>
        rw [step_write hr hin] at h
        cases ha : aligned off with
        | true =>
          rw [busWrite_aligned ha] at h
          cases h
          exact writeTarget_effect rest ⟨hr, rest, hin⟩ ha
        | false =>
          rw [busWrite_misaligned ha] at h
          cases h
          exact .keepsFlags ⟨rfl, rfl, rfl, rfl, rfl, rfl⟩
      | false =>
        rw [step_write_low hr hin] at h
        cases h
        exact .keepsFlags ⟨rfl, rfl, rfl, rfl, rfl, rfl⟩
    | complete =>
      rw [step_cons hin] at h
      exact completionStep_effect (u := s.setInputs rest) ⟨rfl, rfl, rfl, rfl, rfl, rfl⟩ rfl
        (fun hf => ⟨hf, .inr ⟨rest, hin⟩⟩) h
    | rstLow =>
      rw [step_rstLow hin] at h
      cases h
      exact .resets (.inl ⟨rest, hin⟩) ⟨rfl, rfl, rfl, rfl, rfl, rfl⟩
    | rstHigh =>
      rw [step_rstHigh hin] at h
      cases h
      exact .keepsFlags ⟨rfl, rfl, rfl, rfl, rfl, rfl⟩

/-! ### The event that comes next fixes the flags -/

theorem flags_of_acceptsNext {s t : State} (h : step s = .next t) (ha : s.AcceptsNext) :
    ∃ w, SameFlags (s.accept w) t := by
  obtain ⟨hb, w, hr, rest, hin⟩ := ha
  rw [step_accept hr hb hin] at h
  cases h
  exact ⟨w, rfl, rfl, rfl, rfl, rfl, rfl⟩

theorem flags_of_completesNext {s t : State} (h : step s = .next t) (hc : s.CompletesNext) :
    ∃ code res, SameFlags (s.finish code res) t := by
  rw [step_of_completesNext hc] at h
  obtain ⟨code, res, ht⟩ := completeInFlight_flags h
  exact ⟨code, res, ht.busy, ht.done, ht.result, ht.werr, ht.err, ht.ie⟩

theorem flags_of_resetsNext {s t : State} (h : step s = .next t) (hr : s.ResetsNext) : SameFlags State.reset t := by
  rcases hr with ⟨rest, hin⟩ | ⟨v, h1, hr, rest, hin⟩
  · rw [step_rstLow hin] at h
    cases h
    exact ⟨rfl, rfl, rfl, rfl, rfl, rfl⟩
  · rw [step_writeCtrl hr hin, writeCtrl_softReset h1] at h
    cases h
    exact ⟨rfl, rfl, rfl, rfl, rfl, rfl⟩

theorem flags_of_writesStatus {s t : State} {v : Word} (h : step s = .next t) (hw : s.WritesNext 0x008#12 v) :
    SameFlags (s.clearStatus v) t := by
  obtain ⟨hr, rest, hin⟩ := hw
  rw [step_writeStatus hr hin] at h
  cases h
  exact ⟨rfl, rfl, rfl, rfl, rfl, rfl⟩

theorem flags_of_dropped {s t : State} {off : Offset} {v : Word} (h : step s = .next t) (hb : s.busy = true)
    (hd : droppedWhileBusy off) (hw : s.WritesNext off v) : SameFlags s.dropWrite t := by
  obtain ⟨hr, rest, hin⟩ := hw
  rw [step_dropped hr hb hd hin] at h
  cases h
  exact ⟨rfl, rfl, rfl, rfl, rfl, rfl⟩

end Sys2Proof.Machine
end

section
/-! PROOFS. A command's answer depends only on the registers, IN_LEN and IN_BUF (R38). -/

namespace Sys2Proof.Machine

/-- Two states that agree on the inputs of a command: the registers, IN_LEN and IN_BUF (R38). -/
structure SameInputs (s s' : State) : Prop where
  regs : s.regs = s'.regs
  inLen : s.inLen = s'.inLen
  inByte : ∀ j, j < Config.inSize → s.inByte j = s'.inByte j

theorem SameInputs.regVal {s s' : State} (h : SameInputs s s') (i : Reg) : s.regVal i = s'.regVal i := by
  simp only [State.regVal, State.reg, h.regs]

theorem SameInputs.pairVal {s s' : State} (h : SameInputs s s') (i : Reg) : s.pairVal i = s'.pairVal i := by
  simp only [State.pairVal, h.regVal]

/-- Runs of bytes that agree byte by byte are equal. -/
theorem readBytes_congr {m m' : Memory} {addr len : Nat}
    (h : ∀ j, j < len → readByte m (addr + j) = readByte m' (addr + j)) :
    readBytes m addr len = readBytes m' addr len := by
  induction len generalizing addr with
  | zero => rfl
  | succ len ih =>
    have hrest := ih (addr := addr + 1) fun j hj => by
      have := h (j + 1) (by omega)
      rwa [show addr + (j + 1) = addr + 1 + j by omega] at this
    simp only [readBytes, hrest, show readByte m addr = readByte m' addr from h 0 (by omega)]

/-- A 32-byte field that lies in IN_BUF. -/
theorem SameInputs.inField {s s' : State} (h : SameInputs s s') {j : Nat} (hj : j + 32 ≤ Config.inSize) :
    s.inField j = s'.inField j := by
  unfold State.inField
  rw [readBytes_congr (m' := s'.mem) fun k hk => ?_]
  simpa only [State.inByte, Nat.add_assoc] using h.inByte (j + k) (by omega)

theorem SameInputs.verifyRegs {s s' : State} (h : SameInputs s s') : s.verifyRegs = s'.verifyRegs := by
  simp only [State.verifyRegs, h.regVal]

theorem SameInputs.verifyBlob {s s' : State} (h : SameInputs s s') : s.verifyBlob = s'.verifyBlob := by
  unfold State.verifyBlob
  rw [h.inLen, h.inField (j := 0) (by decide), h.inField (j := 32) (by decide), h.inField (j := 64) (by decide),
    h.inField (j := 96) (by decide), h.inField (j := 128) (by decide)]

/-! ### The answer of a command as data -/

/-- What a completion writes: the registers after it, its output string if it has one, ERR and RESULT. -/
structure Effect where
  regs : Vector Word256 8
  out : Option (List Byte)
  err : ErrCode
  result : Bool

/-- The output string of an effect, where it has one (R39). -/
def State.putOut (s : State) : Option (List Byte) → State
  | none => s
  | some bytes => s.setOut bytes

/-- A completion with an effect. -/
def Effect.apply (e : Effect) (s : State) : State :=
  ({ s with regs := e.regs }.putOut e.out).finish e.err e.result

@[simp] theorem Effect.apply_regs (e : Effect) (s : State) : (e.apply s).regs = e.regs := by
  unfold Effect.apply; cases e.out <;> rfl

/-- No effect reads or changes WERR (R33). -/
theorem Effect.apply_werr (e : Effect) (s : State) (b : Bool) :
    (e.apply s).werr = s.werr ∧ e.apply { s with werr := b } = { e.apply s with werr := b } := by
  unfold Effect.apply; cases e.out <;> exact ⟨rfl, rfl⟩

/-- Two answers with one effect, on two states; without an error it has an output string exactly when `out` says so. -/
def AnswersAlike (out : Bool) (s s' : State) (o o' : CmdOutcome) : Prop :=
  ∃ e : Effect, (e.err = .ok → e.out.isSome = out) ∧ o = .next (e.apply s) ∧ o' = .next (e.apply s')

/-- One check on both sides. -/
theorem AnswersAlike.ite {s s' : State} {c : Prop} [Decidable c] {out : Bool} {a a' b b' : CmdOutcome}
    (ha : AnswersAlike out s s' a a') (hb : AnswersAlike out s s' b b') :
    AnswersAlike out s s' (if c then a else b) (if c then a' else b') := by
  split
  · exact ha
  · exact hb

section
variable {s s' : State} (h : SameInputs s s')
include h

/-- Completions that change the registers alike and write the same output are alike. -/
theorem SameInputs.alike_finish (f : Vector Word256 8 → Vector Word256 8) (bytes : Option (List Byte)) {out : Bool}
    (err : ErrCode) (res : Bool) (hout : err = .ok → bytes.isSome = out) :
    AnswersAlike out s s' (.next (({ s with regs := f s.regs }.putOut bytes).finish err res))
      (.next (({ s' with regs := f s'.regs }.putOut bytes).finish err res)) :=
  ⟨⟨f s.regs, bytes, err, res⟩, hout, rfl, by rw [h.regs]; rfl⟩

theorem SameInputs.alike_raise {out : Bool} {code : ErrCode} (hc : code ≠ .ok) :
    AnswersAlike out s s' (raise code s) (raise code s') :=
  h.alike_finish id none code false fun e => absurd e hc

theorem SameInputs.alike_setReg (rd : Reg) (v : Nat) (res : Bool) :
    AnswersAlike false s s' (complete res (s.setRegVal rd v)) (complete res (s'.setRegVal rd v)) :=
  h.alike_finish (fun r => r.set rd (BitVec.ofNat 256 v)) none .ok res fun _ => rfl

theorem SameInputs.alike_setPair (prd : Reg) (q : Nat × Nat) :
    AnswersAlike false s s' (complete false (s.setPairVal prd q)) (complete false (s'.setPairVal prd q)) :=
  h.alike_finish (fun r => (r.set prd (BitVec.ofNat 256 q.1)).set (pairSecond prd) (BitVec.ofNat 256 q.2)) none .ok
    false fun _ => rfl

theorem SameInputs.alike_setOut (bytes : List Byte) :
    AnswersAlike true s s' (complete false (s.setOut bytes)) (complete false (s'.setOut bytes)) :=
  h.alike_finish id (some bytes) .ok false fun _ => rfl

theorem SameInputs.alike_setPairOut (prd : Reg) (q : Nat × Nat) (bytes : List Byte) :
    AnswersAlike true s s' (complete false ((s.setPairVal prd q).setOut bytes))
      (complete false ((s'.setPairVal prd q).setOut bytes)) :=
  h.alike_finish (fun r => (r.set prd (BitVec.ofNat 256 q.1)).set (pairSecond prd) (BitVec.ofNat 256 q.2)) (some bytes)
    .ok false fun _ => rfl

theorem SameInputs.alike_withPairs (pairs : List Reg) {out : Bool} {a a' : CmdOutcome}
    (ha : AnswersAlike out s s' a a') : AnswersAlike out s s' (withPairs pairs s a) (withPairs pairs s' a') :=
  ha.ite (h.alike_raise (by decide))

theorem SameInputs.alike_binaryModular (f : Nat → Nat → Nat → Nat) (rd rs1 rs2 : Reg) (m : Modulus) :
    AnswersAlike false s s' (binaryModular f rd rs1 rs2 m s) (binaryModular f rd rs1 rs2 m s') := by
  simp only [binaryModular, h.regVal]
  exact .ite (h.alike_raise (by decide)) (h.alike_setReg ..)

/-- Every command answers alike on states that agree on its inputs (R38). -/
theorem SameInputs.exec_alike (i : Instr) : AnswersAlike (writesOut i) s s' (exec i s) (exec i s') := by
  cases i with
  | madd | msub | mmul | montmul => exact h.alike_binaryModular ..
  | minv rd rs1 m v =>
    simp only [exec, execMinv, h.regVal]
    exact .ite (h.alike_raise (by decide)) (.ite (h.alike_raise (by decide)) (h.alike_setReg ..))
  | mred rd rs1 m =>
    simp only [exec, execMred, h.regVal]
    exact h.alike_setReg ..
  | ldc rd k => exact h.alike_setReg ..
  | pvalid rd prs1 =>
    simp only [exec, execPvalid, h.pairVal]
    exact h.alike_withPairs _ (h.alike_setReg ..)
  | padd prd prs1 prs2 =>
    simp only [exec, execPadd, h.pairVal]
    exact h.alike_withPairs _
      (.ite (h.alike_raise (by decide)) (.ite (h.alike_raise (by decide)) (h.alike_setPair ..)))
  | pdbl prd prs1 =>
    simp only [exec, execPdbl, h.pairVal]
    exact h.alike_withPairs _ (.ite (h.alike_raise (by decide)) (h.alike_setPair ..))
  | pmul prd prs1 rs2 =>
    simp only [exec, execPmul, h.pairVal, h.regVal]
    exact h.alike_withPairs _ (.ite (h.alike_raise (by decide)) (h.alike_setPair ..))
  | decomp prd =>
    simp only [exec, execDecomp, h.inLen, h.inByte 0 (by decide), h.inField (j := 1) (by decide)]
    refine h.alike_withPairs _ (.ite (h.alike_raise (by decide)) ?_)
    cases decompress (s'.inByte 0).toNat (s'.inField 1) with
    | none => exact h.alike_raise (by decide)
    | some xy => exact h.alike_setPairOut ..
  | compress prs1 =>
    simp only [exec, execCompress, h.pairVal]
    exact h.alike_withPairs _ (h.alike_setOut _)
  | derint rs1 =>
    simp only [exec, execDerint, h.regVal]
    exact h.alike_setOut _
  | dersig rs1 rs2 =>
    simp only [exec, execDersig, h.regVal]
    exact h.alike_setOut _
  | verify rd =>
    simp only [exec, execVerify, completeVerify, h.verifyRegs]
    exact h.alike_setReg ..
  | verifyabi rd =>
    simp only [exec, execVerifyabi, completeVerify, h.verifyBlob]
    exact h.alike_setReg ..

end

end Sys2Proof.Machine
end

section
/-! PROOFS. STATUS, CMD and the access rules of 10_state.md section 4. -/

namespace Sys2Proof.Machine

/-- After a Boolean answer to a register RESULT is 1 exactly when the register holds 1. -/
theorem result_iff_regVal_of_boolean (s : State) (rd : Reg) (res : Bool) :
    ((s.setRegVal rd res.toNat).finish .ok res).result = true ↔
      ((s.setRegVal rd res.toNat).finish .ok res).regVal rd = 1 := by
  have hlt : res.toNat < 2 ^ 256 := lt_of_le_of_lt (Bool.toNat_le res) (by decide)
  rw [State.finish_result, State.regVal_finish, State.regVal_setRegVal _ _ _ hlt, if_pos rfl, Bool.toNat_eq_one]

/-- Settles O16: a write to CMD by BUSY, and the completion by what CMD decodes to. -/
theorem cmdWriteAcceptsWhileIdle : Obligations.CmdWriteAcceptsWhileIdle := by
  refine ⟨fun s w rest hr hin => ⟨fun hb => step_accept hr hb hin, fun hb => step_dropped hr hb ?_ hin⟩,
    fun s hc rest hrest => ⟨fun i hd => ?_, fun why hd => ?_⟩, fun s => rfl, rfl⟩
  · exact ⟨rfl, .inl rfl⟩
  · subst hrest
    rw [step_of_completesNext hc]
    exact completeInFlight_command (s := s.setInputs s.inputs.tail) hd
  · subst hrest
    rw [step_of_completesNext hc]
    exact completeInFlight_illegal (s := s.setInputs s.inputs.tail) hd

/-- Settles O17: each access by the target its offset names. -/
theorem busyAccessRules : Obligations.BusyAccessRules := by
  refine ⟨fun s rest hb hr => ⟨fun off v hd h => step_dropped hr hb hd h, fun off hh h => ?_, fun off h => ?_,
    fun v h h1 => step_setIe hr h h1, fun v h h1 => ?_, fun v h => step_writeStatus hr h⟩,
    fun s rest hb hr => ⟨fun v h => ?_, fun v h h1 => step_setIe hr h h1, fun off h => ?_⟩, getLsbD_ctrlWord⟩
  · rw [step_read_aligned hr (aligned_iff.2 hh.1) h, readTarget_hidden hb hh]
  · obtain ⟨hid, hctrl, hstatus, hcmd, hlen⟩ := step_read_special hr h
    refine ⟨hid, hctrl, hstatus, hcmd, hlen, fun ha h1 h2 => ?_⟩
    rw [step_read_aligned hr (aligned_iff.2 ha) h, readTarget_inBuf h1 h2 ha]
  · rw [step_writeCtrl hr h, writeCtrl_softReset h1]
    rfl
  · rw [step_write_aligned hr rfl h, show busTarget 0x010#12 = .inLen from rfl]
    simp [writeTarget, hb, State.setInputs, State.setSlverr]
  · obtain ⟨hid, hctrl, hstatus, hcmd, hlen⟩ := step_read_special hr h
    refine ⟨hid, hctrl, hstatus, hcmd, hlen, ?_⟩
    rintro rfl
    rw [step_read_aligned hr rfl h, show busTarget 0x014#12 = .outLen from rfl]
    simp [readTarget, hb]

/-- Settles O18: of the effects of a step only an acceptance sets BUSY, and only a completion or a reset clears it. -/
theorem busyChangesOnlyAtItsEvents : Obligations.BusyChangesOnlyAtItsEvents := by
  intro s t h
  refine ⟨fun ha => ?_, fun hc => ?_, fun hr => (flags_of_resetsNext h hr).busy, fun h0 h1 => ?_, fun h1 h0 => ?_⟩
  · obtain ⟨w, ht⟩ := flags_of_acceptsNext h ha
    exact ht.busy
  · obtain ⟨code, res, ht⟩ := flags_of_completesNext h hc
    exact ht.busy
  · cases step_effect h with
    | accepts w hb hw ht => exact ⟨hb, w, hw⟩
    | completes _ _ _ ht | resets _ ht => exact absurd (ht.busy.symm.trans h1) Bool.false_ne_true
    | clearsStatus _ _ ht | dropsWrite _ _ _ _ _ ht | setsIe _ _ _ ht | keepsFlags ht =>
      exact absurd (h0.symm.trans (ht.busy.symm.trans h1)) Bool.false_ne_true
  · cases step_effect h with
    | completes _ _ hc _ => exact .inl hc
    | resets hr _ => exact .inr hr
    | accepts _ _ _ ht => exact absurd (h0.symm.trans ht.busy) Bool.false_ne_true
    | clearsStatus _ _ ht | dropsWrite _ _ _ _ _ ht | setsIe _ _ _ ht | keepsFlags ht =>
      exact absurd (h0.symm.trans (ht.busy.trans h1)) Bool.false_ne_true

/-- Settles O19: of the effects of a step only a completion sets DONE, and only an acceptance, a STATUS write with bit 1
set or a reset clears it. -/
theorem doneChangesOnlyAtItsEvents : Obligations.DoneChangesOnlyAtItsEvents := by
  refine ⟨fun s t h => ⟨fun hc => ?_, ?_, fun h0 h1 => ?_, fun h1 h0 => ?_⟩, fun s hI hb => (hI.busyCleared hb).1⟩
  · obtain ⟨code, res, ht⟩ := flags_of_completesNext h hc
    exact ht.done
  · rintro (ha | ⟨v, hv, hw⟩ | hr)
    · obtain ⟨w, ht⟩ := flags_of_acceptsNext h ha
      exact ht.done
    · simp [(flags_of_writesStatus h hw).done, hv]
    · exact (flags_of_resetsNext h hr).done
  · cases step_effect h with
    | completes _ _ hc _ => exact hc
    | accepts _ _ _ ht | resets _ ht => exact absurd (ht.done.symm.trans h1) Bool.false_ne_true
    | clearsStatus v _ ht => simp [ht.done, h0] at h1
    | dropsWrite _ _ _ _ _ ht | setsIe _ _ _ ht | keepsFlags ht =>
      exact absurd (h0.symm.trans (ht.done.symm.trans h1)) Bool.false_ne_true
  · cases step_effect h with
    | accepts w hb hw _ => exact .inl ⟨hb, w, hw⟩
    | clearsStatus v hw ht => exact .inr (.inl ⟨v, by simpa [ht.done, h1] using h0, hw⟩)
    | resets hr _ => exact .inr (.inr hr)
    | completes _ _ _ ht => exact absurd (h0.symm.trans ht.done) Bool.false_ne_true
    | dropsWrite _ _ _ _ _ ht | setsIe _ _ _ ht | keepsFlags ht =>
      exact absurd (h0.symm.trans (ht.done.trans h1)) Bool.false_ne_true

/-- Settles O20: RESULT by the inversion of exec, and by the register each Boolean command writes. -/
theorem resultBitFollowsTheBooleanResult : Obligations.ResultBitFollowsTheBooleanResult := by
  refine ⟨fun i s t h ht => ?_, fun rd prs1 s t h herr => ?_, fun rd s t h => ?_, fun rd s t h => ?_,
    fun s t h => ?_⟩
  · rcases exec_inversion h with ⟨c, -, rfl⟩ | ⟨rd, v, res, rfl, -, -, hres⟩ | ⟨prd, q, rfl, -⟩ | ⟨bytes, rfl, -⟩ |
      ⟨prd, q, bytes, rfl, -⟩
    case inr.inl =>
      refine ⟨?_, rfl⟩
      cases hi : hasBooleanResult i with
      | true => rfl
      | false => exact absurd (ht.symm.trans (hres hi)) (by decide)
    all_goals exact absurd ht (by simp)
  · simp only [exec, execPvalid, withPairs] at h
    split at h <;> cases h
    · exact result_iff_regVal_of_boolean s rd _
    · exact absurd herr (by simp)
  · cases h
    exact result_iff_regVal_of_boolean s rd s.verifyRegs
  · cases h
    exact result_iff_regVal_of_boolean s rd s.verifyBlob
  · rintro (ha | hr)
    · obtain ⟨w, ht⟩ := flags_of_acceptsNext h ha
      exact ht.result
    · exact (flags_of_resetsNext h hr).result

/-- Settles O21: WERR by the effects of a step; a command's answer has one effect whatever WERR is. -/
theorem werrIsStickyAndCommandsIgnoreIt : Obligations.WerrIsStickyAndCommandsIgnoreIt := by
  refine ⟨fun s t h => ⟨fun hb off v hd hw => (flags_of_dropped h hb hd hw).werr, fun h0 h1 => ?_, fun h1 h0 => ?_⟩,
    fun i s t b h => ?_⟩
  · cases step_effect h with
    | dropsWrite off v hb hd hw _ => exact ⟨hb, off, v, hd, hw⟩
    | resets _ ht => exact absurd (ht.werr.symm.trans h1) Bool.false_ne_true
    | clearsStatus v _ ht => simp [ht.werr, h0] at h1
    | completes _ _ _ ht | accepts _ _ _ ht | setsIe _ _ _ ht | keepsFlags ht =>
      exact absurd (h0.symm.trans (ht.werr.symm.trans h1)) Bool.false_ne_true
  · cases step_effect h with
    | clearsStatus v hw ht => exact .inl ⟨v, by simpa [ht.werr, h1] using h0, hw⟩
    | resets hr _ => exact .inr hr
    | dropsWrite _ _ _ _ _ ht => exact absurd (h0.symm.trans ht.werr) Bool.false_ne_true
    | completes _ _ _ ht | accepts _ _ _ ht | setsIe _ _ _ ht | keepsFlags ht =>
      exact absurd (h0.symm.trans (ht.werr.trans h1)) Bool.false_ne_true
  · have hsame : SameInputs s { s with werr := b } := ⟨rfl, rfl, fun _ _ => rfl⟩
    obtain ⟨e, -, he, he'⟩ := hsame.exec_alike i
    obtain rfl : e.apply s = t := Host.Outcome.next.inj (he.symm.trans h)
    obtain ⟨hkept, hignored⟩ := e.apply_werr s b
    exact ⟨hkept, by rw [he', hignored]⟩

/-- Settles O22: the layout bit by bit, and the write at its offset. -/
theorem statusWordAndItsWrite : Obligations.StatusWordAndItsWrite :=
  ⟨getLsbD_statusWord, fun _ _ _ hr h => step_writeStatus hr h, by decide⟩

/-- Settles O34: both answers have one effect; the output string fills OUT_BUF whatever it held. -/
theorem resultsDependOnlyOnTheInputs : Obligations.ResultsDependOnlyOnTheInputs := by
  intro i s s' t t' hwf hwf' hregs hlen hin h h'
  obtain ⟨e, hout, he, he'⟩ := (SameInputs.mk hregs hlen hin).exec_alike i
  obtain rfl : e.apply s = t := Host.Outcome.next.inj (he.symm.trans h)
  obtain rfl : e.apply s' = t' := Host.Outcome.next.inj (he'.symm.trans h')
  refine ⟨by simp, rfl, rfl, rfl, rfl, fun hi hok => ?_⟩
  obtain ⟨bytes, hbytes⟩ := Option.isSome_iff_exists.1 ((hout hok).trans hi)
  simp only [Effect.apply, hbytes, State.putOut]
  exact ⟨rfl, fun j hj => (State.outByte_setOut _ bytes j hj hwf).trans (State.outByte_setOut _ bytes j hj hwf').symm⟩

end Sys2Proof.Machine
end

section
/-! PROOFS. The address map read forwards, the writes nothing takes, and the bytes of a buffer word (20_memory.md). -/

namespace Sys2Proof.Machine

/-! ### The target of an offset -/

/-- A reserved offset names nothing (R66, R71). -/
theorem busTarget_of_reservedOffset {off : Offset} (h : reservedOffset off) : busTarget off = .reserved := by
  unfold reservedOffset at h
  have hn := busTarget_namedBy off
  cases ht : busTarget off with
  | reserved => rfl
  | id | ctrl | status | cmd | inLen | outLen | regWord | inBuf | outBuf =>
    rw [ht] at hn
    simp only [BusTarget.namedBy] at hn
    omega

/-- The general-register window: register and word from the offset's digits (R67). -/
theorem busTarget_of_regWindow {off : Offset} (h1 : 0x100 ≤ off.toNat) (h2 : off.toNat ≤ 0x1FF) :
    busTarget off = .regWord (Fin.ofNat 8 ((off.toNat - 0x100) / 0x20)) (Fin.ofNat 8 ((off.toNat - 0x100) / 4)) := by
  simp (disch := omega) only [busTarget, busTargetAt, if_neg, if_pos]

/-- The IN_BUF window (R66, R68). -/
theorem busTarget_of_inBufWindow {off : Offset} (h1 : 0x200 ≤ off.toNat) (h2 : off.toNat ≤ 0x29F) :
    busTarget off = .inBuf off.toNat := by
  simp (disch := omega) only [busTarget, busTargetAt, if_neg, if_pos]

/-- The OUT_BUF window (R66, R68). -/
theorem busTarget_of_outBufWindow {off : Offset} (h1 : 0x300 ≤ off.toNat) (h2 : off.toNat ≤ 0x37F) :
    busTarget off = .outBuf off.toNat := by
  simp (disch := omega) only [busTarget, busTargetAt, if_neg, if_pos]

/-- An offset given by a number inside the window (R62). -/
theorem toNat_offset {a : Nat} (h : a < 2 ^ 12) : (BitVec.ofNat 12 a).toNat = a := by
  rw [BitVec.toNat_ofNat, Nat.mod_eq_of_lt h]

theorem regOffset_toNat (k : Reg) (i : Fin 8) : (regOffset k i.val).toNat = 0x100 + 0x20 * k.val + 4 * i.val :=
  toNat_offset (by omega)

theorem aligned_regOffset (k : Reg) (i : Fin 8) : aligned (regOffset k i.val) = true := by
  rw [aligned_iff, regOffset_toNat]
  omega

/-- Word i of R[k] is at its offset (R67). -/
theorem busTarget_regOffset (k : Reg) (i : Fin 8) : busTarget (regOffset k i.val) = .regWord k i := by
  have ha := regOffset_toNat k i
  rw [busTarget_of_regWindow (by omega) (by omega), ha]
  congr 1 <;> (ext; simp only [Fin.val_ofNat]; omega)

/-! ### Writes that nothing takes -/

/-- A write of a reserved or a read-only offset is ignored, BUSY or idle (R71). -/
theorem writeTarget_ignored {off : Offset} (h : reservedOffset off ∨ readOnlyOffset off) (s : State) (v : Word) :
    writeTarget s v (busTarget off) = s := by
  unfold reservedOffset readOnlyOffset at h
  have hn := busTarget_namedBy off
  cases ht : busTarget off with
  | id | outLen | outBuf | reserved => rfl
  | ctrl | status | cmd | inLen | regWord | inBuf =>
    rw [ht] at hn
    simp only [BusTarget.namedBy] at hn
    omega

/-- A served write that is ignored leaves only pslverr = 0 (R71). -/
theorem step_write_ignored {s : State} {off : Offset} {v : Word} {rest : List HostEvent} (hr : s.rstN = true)
    (ha : off.toNat % 4 = 0) (hi : reservedOffset off ∨ readOnlyOffset off) (h : s.inputs = .write off v :: rest) :
    step s = .next { s with pslverr := false, inputs := rest } := by
  rw [step_write_aligned hr (aligned_iff.2 ha) h, writeTarget_ignored hi]
  rfl

/-! ### The bytes of a word -/

/-- Byte `j` of the word of four buffer bytes (R68). -/
theorem extractLsb'_wordOfBytes (m : Memory) (addr : Nat) {j : Nat} (hj : j < 4) :
    (wordOfBytes m addr).extractLsb' (8 * j) 8 = readByte m (addr + j) := by
  have h0 := (readByte m addr).isLt
  have h1 := (readByte m (addr + 1)).isLt
  have h2 := (readByte m (addr + 2)).isLt
  have h3 := (readByte m (addr + 3)).isLt
  refine BitVec.eq_of_toNat_eq ?_
  rw [BitVec.extractLsb'_toNat, wordOfBytes, BitVec.toNat_ofNat, Nat.shiftRight_eq_div_pow]
  match j with
  | 0 | 1 | 2 | 3 => norm_num only [Nat.add_zero]; omega

/-- Byte `j` of the four bytes a word is written as (R68). -/
theorem bytesOfWord_getD (v : Word) {j : Nat} (hj : j < 4) :
    (bytesOfWord v).getD j 0 = v.extractLsb' (8 * j) 8 := by
  match j with
  | 0 | 1 | 2 | 3 => rfl

/-- A word written to a buffer, read back byte by byte: its four bytes, and every other byte as before (R68). -/
theorem readByte_writeWord {m : Memory} (hwf : m.wf = true) (addr : Nat) (v : Word) :
    (∀ j, j < 4 → readByte (writeBytes m addr (bytesOfWord v)) (addr + j) = v.extractLsb' (8 * j) 8) ∧
    ∀ a, a < addr ∨ addr + 4 ≤ a → readByte (writeBytes m addr (bytesOfWord v)) a = readByte m a := by
  have hlen : (bytesOfWord v).length = 4 := rfl
  refine ⟨fun j hj => ?_, fun a ha => ?_⟩
  · rw [readByte_writeBytes _ _ _ hwf, if_pos (by omega), Nat.add_sub_cancel_left, bytesOfWord_getD v hj]
  · rw [readByte_writeBytes _ _ _ hwf, if_neg (by omega)]

end Sys2Proof.Machine
end

section
/-! PROOFS. Transfers of the host interface: misaligned, reserved and read-only places, the register window and the
buffers (20_memory.md). -/

namespace Sys2Proof.Machine

/-- Settles O25: reserved offsets name nothing, ignored writes keep the state, and CTRL and IN_LEN read only their own
bits of the written word. -/
theorem reservedAndReadOnlyAccess : Obligations.ReservedAndReadOnlyAccess := by
  refine ⟨fun s off rest hr ha hres => ⟨fun h => ?_, fun v h => step_write_ignored hr ha (.inl hres) h⟩,
    fun s off v rest hr ha hro h => step_write_ignored hr ha (.inr hro) h, fun s v v' h0 h1 => ?_, fun s v v' hv => ?_⟩
  · rw [step_read_aligned hr (aligned_iff.2 ha) h, busTarget_of_reservedOffset hres]
    rfl
  · rw [busWrite_aligned rfl, busWrite_aligned rfl, show busTarget 0x004#12 = .ctrl from rfl]
    simp only [writeTarget, State.writeCtrl, h0, h1]
  · rw [busWrite_aligned rfl, busWrite_aligned rfl, show busTarget 0x010#12 = .inLen from rfl]
    simp only [writeTarget, hv]

/-- Settles O26: the window's target, then the bits of the word read and of the register written. -/
theorem registerWindowReadsAndWrites : Obligations.RegisterWindowReadsAndWrites := by
  refine fun s k i rest hr hb => ⟨fun h => ⟨wordOfReg (s.reg k) i, ?_, getLsbD_wordOfReg _ i⟩,
    fun v h => ⟨setWordOfReg (s.reg k) i v, ?_, getLsbD_setWordOfReg _ i v⟩⟩
  · rw [step_read_aligned hr (aligned_regOffset k i) h, busTarget_regOffset]
    simp [readTarget, hb]
  · rw [step_write_aligned hr (aligned_regOffset k i) h, busTarget_regOffset, writeTarget, if_neg (by simp [hb])]
    rfl

/-- Settles O27: each window's target, then the bytes of the word read and of the memory written. -/
theorem bufferWordsPackLittleEndian : Obligations.BufferWordsPackLittleEndian := by
  refine fun s w rest hr hb hwf => ⟨fun hw h => ⟨wordOfBytes s.mem (0x200 + 4 * w), ?_, fun j hj => ?_⟩,
    fun hw h => ⟨wordOfBytes s.mem (0x300 + 4 * w), ?_, fun j hj => ?_⟩,
    fun hw v h => ⟨writeBytes s.mem (0x200 + 4 * w) (bytesOfWord v), ?_, readByte_writeWord hwf _ v⟩⟩
  · have ha := toNat_offset (a := 0x200 + 4 * w) (by omega)
    rw [step_read_aligned hr (aligned_iff.2 (by omega)) h, readTarget_inBuf (by omega) (by omega) (by omega), ha]
  · rw [extractLsb'_wordOfBytes _ _ hj, State.inByte, Config.inBase, Nat.add_assoc]
  · have ha := toNat_offset (a := 0x300 + 4 * w) (by omega)
    rw [step_read_aligned hr (aligned_iff.2 (by omega)) h, busTarget_of_outBufWindow (by omega) (by omega), ha]
    simp [readTarget, hb]
  · rw [extractLsb'_wordOfBytes _ _ hj, State.outByte, Config.outBase, Nat.add_assoc]
  · have ha := toNat_offset (a := 0x200 + 4 * w) (by omega)
    rw [step_write_aligned hr (aligned_iff.2 (by omega)) h, busTarget_of_inBufWindow (by omega) (by omega), ha,
      writeTarget, if_neg (by simp [hb])]
    rfl

/-- Settles O24: a misaligned access changes only what the bus shows. -/
theorem misalignedTransferChangesNothing : Obligations.MisalignedTransferChangesNothing := by
  intro s off rest hr hoff
  have ha : aligned off = false := Bool.eq_false_iff.2 (mt aligned_iff.1 hoff)
  refine ⟨fun h => ?_, fun v h => ?_⟩
  · rw [step_read hr h, busRead_misaligned ha]
    rfl
  · rw [step_write hr h, busWrite_misaligned ha]
    rfl

end Sys2Proof.Machine
end

section
/-! PROOFS. The decoder's checks in the order of R102: what each check answers where it is the first that fails
(30_encoding.md). -/

namespace Sys2Proof

/-- Reserved bits are the first check (R98, R102). -/
theorem decode_of_reservedBits {w : Word} (hr : bitField w 31 19 ≠ 0) : decode w = .illegal .reservedBits :=
  if_pos hr

/-- The table of R100 finds nothing for a value no opcode has (R101). -/
theorem opcodeOfValue_none {op : Nat} (h : ∀ o : Opcode, o.value ≠ op) : opcodeOfValue op = none := by
  cases ho : opcodeOfValue op with
  | none => rfl
  | some o => exact absurd (opcodeOfValue_some ho) (h o)

/-- The opcode is the second check (R101, R102). -/
theorem decode_of_unknownOpcode {w : Word} (hr : bitField w 31 19 = 0) (ho : ∀ o : Opcode, o.value ≠ bitField w 7 0) :
    decode w = .illegal .unknownOpcode := by
  unfold decode
  rw [if_neg (not_not.2 hr), opcodeOfValue_none ho]

/-- The fields are the last check (R102). -/
theorem decode_of_failedField {w : Word} {o : Opcode} {why : Illegal} (hr : bitField w 31 19 = 0)
    (ho : o.value = bitField w 7 0) (hc : checkFields o (fieldsOf w) = some why) : decode w = .illegal why := by
  unfold decode
  rw [if_neg (not_not.2 hr), ← ho, opcodeOfValue_value]
  simp only [hc]

/-- A field passes when it is neither a non-zero unused field nor a pair of 7 (R94, R99). -/
theorem checkField_passes {o : Opcode} {fs : Fields} {f : Field}
    (h : ¬(o.usage f = .zero ∧ fs.value f ≠ 0) ∧ ¬(o.usage f = .pr ∧ fs.value f = 7)) : checkField o fs f = none := by
  unfold checkField
  rw [if_neg h.1, if_neg h.2]

theorem checkField_nonZeroField {o : Opcode} {fs : Fields} {f : Field} (hu : o.usage f = .zero)
    (hv : fs.value f ≠ 0) : checkField o fs f = some (.nonZeroField f) :=
  if_pos ⟨hu, hv⟩

theorem checkField_pairSeven {o : Opcode} {fs : Fields} {f : Field} (hu : o.usage f = .pr) (hv : fs.value f = 7) :
    checkField o fs f = some (.pairSeven f) := by
  unfold checkField
  rw [if_neg (by simp [hu]), if_pos ⟨hu, hv⟩]

/-- The first field that fails, after fields that pass, gives the reason (R102). -/
theorem checkFields_of_firstFailure {o : Opcode} {fs : Fields} {f : Field} {before after : List Field} {why : Illegal}
    (hl : [Field.rd, .rs1, .rs2, .m, .v] = before ++ f :: after)
    (hb : ∀ g ∈ before, ¬(o.usage g = .zero ∧ fs.value g ≠ 0) ∧ ¬(o.usage g = .pr ∧ fs.value g = 7))
    (hf : checkField o fs f = some why) : checkFields o fs = some why :=
  List.findSome?_eq_some_iff.2 ⟨before, f, after, hl, hf, fun g hg => checkField_passes (hb g hg)⟩

/-- Settles O5: the three checks one after another, the last by the first field that fails. -/
theorem decodeChecksInOrder : Obligations.DecodeChecksInOrder := by
  intro w
  refine ⟨decode_of_reservedBits, decode_of_unknownOpcode, fun hr o ho => ⟨fun f before after hl hb => ?_, fun h => ?_⟩⟩
  · have firstFails {why : Illegal} (hf : checkField o (fieldsOf w) f = some why) : decode w = .illegal why :=
      decode_of_failedField hr ho (checkFields_of_firstFailure hl hb hf)
    exact ⟨fun hu hv => firstFails (checkField_nonZeroField hu hv), fun hu hv => firstFails (checkField_pairSeven hu hv)⟩
  · exact decode_of_checks hr ho (checkFields_none.2 h)

end Sys2Proof
end

section
/-! PROOFS. The arithmetic behind the modular commands: products cancel modulo m, the Montgomery product and its
reference procedure, the one inverse, and the constants (40_modular.md). -/

namespace Sys2Proof.Machine

/-! ### Cancelling a factor -/

/-- A factor coprime to the modulus tells residues apart. -/
theorem eq_of_mul_mod_eq {m c a b : Nat} (hco : Nat.gcd m c = 1) (ha : a < m) (hb : b < m)
    (h : a * c % m = b * c % m) : a = b :=
  (Nat.ModEq.cancel_right_of_coprime hco h).eq_of_lt_of_lt ha hb

/-- The inverse of a residue is one number, whatever the method (R141). -/
theorem invBy_eq (v v' : InvMethod) (m : Modulus) (x : Nat) (h0 : 0 < x) (hx : x < modulus m) :
    invBy v (modulus m) x = invBy v' (modulus m) x := by
  obtain ⟨hlt, hmul⟩ := invBy_spec v m x h0 hx
  obtain ⟨hlt', hmul'⟩ := invBy_spec v' m x h0 hx
  rw [Nat.mul_comm] at hmul hmul'
  exact eq_of_mul_mod_eq (gcd_modulus m x h0 hx) hlt hlt' (hmul.trans hmul'.symm)

/-! ### The Montgomery product -/

theorem modulus_lt_radix (m : Modulus) : modulus m < Config.radix := modulus_lt m

/-- Both moduli are odd (R130). -/
theorem gcd_modulus_radix (m : Modulus) : Nat.gcd (modulus m) Config.radix = 1 :=
  ((Nat.coprime_primes (modulus_prime m) Nat.prime_two).2 (two_lt_modulus m).ne').pow_right 256

/-- The radix is no multiple of a modulus, so it has an inverse (R130). -/
theorem radix_mod_modulus_pos (m : Modulus) : 0 < Config.radix % modulus m := by
  have h1 := modulus_lt_radix m
  have h2 : Config.radix < 2 * modulus m := radix_lt_two_modulus m
  rw [Nat.mod_eq_sub_mod h1.le, Nat.mod_eq_of_lt (by omega)]
  omega

/-- The definition of the Montgomery product: a residue whose product with the radix is x * y (R130). -/
theorem montMul_spec (m : Modulus) (x y : Nat) :
    montMul (modulus m) x y < modulus m ∧
      montMul (modulus m) x y * Config.radix % modulus m = x * y % modulus m := by
  have hpos : 0 < modulus m := (modulus_prime m).pos
  obtain ⟨-, hinv⟩ := invMod_spec m _ (radix_mod_modulus_pos m) (Nat.mod_lt _ hpos)
  have hone : Config.radix * invMod (modulus m) (Config.radix % modulus m) ≡ 1 [MOD modulus m] :=
    ((Nat.mod_modEq _ _).mul_right _).symm.trans (hinv.trans (Nat.mod_eq_of_lt (modulus_prime m).one_lt).symm)
  refine ⟨Nat.mod_lt _ hpos, ?_⟩
  calc montMul (modulus m) x y * Config.radix
      ≡ x * y * invMod (modulus m) (Config.radix % modulus m) * Config.radix [MOD modulus m] :=
        (Nat.mod_modEq _ _).mul_right _
    _ = x * y * (Config.radix * invMod (modulus m) (Config.radix % modulus m)) := by ring
    _ ≡ x * y * 1 [MOD modulus m] := hone.mul_left _
    _ = x * y := Nat.mul_one _

/-- The value `mp` of the reference procedure: `m * mp ≡ -1 (mod 2^256)` (R130). -/
theorem radix_dvd_mul_montNegInv {m : Nat} (hlt : m < Config.radix) (hco : Nat.gcd m Config.radix = 1) :
    Config.radix ∣ m * montNegInv m + 1 := by
  have hinv : m * invMod Config.radix m ≡ 1 [MOD Config.radix] :=
    invEuclid_spec Config.radix m hlt hlt (Nat.gcd_comm .. ▸ hco)
  have hle : invMod Config.radix m ≤ Config.radix := (invEuclid_lt _ m (by omega)).le
  rw [montNegInv, Nat.mod_eq_of_lt hlt, ← Nat.modEq_zero_iff_dvd]
  calc m * (Config.radix - invMod Config.radix m) + 1
      ≡ m * (Config.radix - invMod Config.radix m) + m * invMod Config.radix m [MOD Config.radix] :=
        hinv.symm.add_left _
    _ = m * Config.radix := by rw [← Nat.mul_add, Nat.sub_add_cancel hle]
    _ ≡ 0 [MOD Config.radix] := Nat.modEq_zero_iff_dvd.2 (Nat.dvd_mul_left ..)

/-- The division of the reference procedure is exact (R130). -/
theorem radix_dvd_montgomery_sum {m : Nat} (hlt : m < Config.radix) (hco : Nat.gcd m Config.radix = 1) (T : Nat) :
    Config.radix ∣ T + T * montNegInv m % Config.radix * m := by
  rw [← Nat.modEq_zero_iff_dvd]
  calc T + T * montNegInv m % Config.radix * m
      ≡ T + T * montNegInv m * m [MOD Config.radix] := ((Nat.mod_modEq _ _).mul_right _).add_left _
    _ = T * (m * montNegInv m + 1) := by ring
    _ ≡ 0 [MOD Config.radix] := Nat.modEq_zero_iff_dvd.2 ((radix_dvd_mul_montNegInv hlt hco).mul_left T)

/-- The reference procedure gives a residue whose product with the radix is x * y: the exact quotient is below 2m, so
one subtraction is enough (R130). -/
theorem montMulReference_spec {m x y : Nat} (hlt : m < Config.radix) (hco : Nat.gcd m Config.radix = 1) (hx : x < m)
    (hy : y < m) :
    montMulReference m x y < m ∧ montMulReference m x y * Config.radix % m = x * y % m := by
  have hexact := Nat.div_mul_cancel (radix_dvd_montgomery_sum hlt hco (x * y))
  have hq : x * y * montNegInv m % Config.radix < Config.radix := Nat.mod_lt _ (by omega)
  simp only [montMulReference]
  generalize x * y * montNegInv m % Config.radix = q at *
  have hT : x * y < m * Config.radix := Nat.mul_lt_mul'' hx (hy.trans hlt)
  have hbound : (x * y + q * m) / Config.radix < 2 * m := by
    refine Nat.div_lt_of_lt_mul ?_
    calc x * y + q * m < m * Config.radix + Config.radix * m :=
          Nat.add_lt_add_of_lt_of_le hT (Nat.mul_le_mul_right _ hq.le)
      _ = Config.radix * (2 * m) := by ring
  generalize (x * y + q * m) / Config.radix = t at *
  split
  · next hge =>
    refine ⟨by omega, ?_⟩
    rw [Nat.sub_mul, Nat.sub_mul_mod (Nat.mul_le_mul_right _ hge), hexact, Nat.add_mul_mod_self_right]
  · next hbelow => exact ⟨Nat.lt_of_not_ge hbelow, by rw [hexact, Nat.add_mul_mod_self_right]⟩

/-! ### Reduction and the constants -/

/-- A 256-bit number is reduced by at most one subtraction (R150). -/
theorem mod_modulus_cases (m : Modulus) {x : Nat} (hx : x < 2 ^ 256) :
    x % modulus m = x ∨ x % modulus m + modulus m = x := by
  have h2 := radix_lt_two_modulus m
  rcases Nat.lt_or_ge x (modulus m) with hlt | hge
  · exact .inl (Nat.mod_eq_of_lt hlt)
  · right
    rw [Nat.mod_eq_sub_mod hge, Nat.mod_eq_of_lt (by omega), Nat.sub_add_cancel hge]

/-- a = p - 3 (R4). -/
theorem constStore_a : constStore .a = Config.p - 3 := by decide

/-- The Montgomery constant of p (R27). -/
theorem constStore_r2p : constStore .r2p = 2 ^ 512 % Config.p := by decide +kernel

/-- The Montgomery constant of n (R27). -/
theorem constStore_r2n : constStore .r2n = 2 ^ 512 % Config.n := by decide +kernel

end Sys2Proof.Machine
end

section
/-! PROOFS. The modular commands (40_modular.md): the words of each, its errors in their order and its result. -/

namespace Sys2Proof.Machine

/-! ### What a binary modular command answers -/

/-- An operand that is no residue is ERR_RANGE, and nothing is written (R120, R292). -/
theorem binaryModular_range (f : Nat → Nat → Nat → Nat) (rd : Reg) {r1 r2 : Reg} {m : Modulus} {s : State}
    (h : modulus m ≤ s.regVal r1 ∨ modulus m ≤ s.regVal r2) :
    binaryModular f rd r1 r2 m s = .next (s.finish .range false) :=
  if_pos h

/-- Two residues give the register result of the function, where that is a residue too (R120, R125). -/
theorem binaryModular_regResult {f : Nat → Nat → Nat → Nat} (rd : Reg) {r1 r2 : Reg} {m : Modulus} {s : State} {v : Nat}
    (h1 : s.regVal r1 < modulus m) (h2 : s.regVal r2 < modulus m) (hf : f (modulus m) (s.regVal r1) (s.regVal r2) = v)
    (hv : v < modulus m) :
    ∃ t, binaryModular f rd r1 r2 m s = .next t ∧ RegResult s t rd v false := by
  subst hf
  exact ⟨_, if_neg (by omega), regResult_finish s rd _ false (hv.trans (modulus_lt m))⟩

/-- Settles O36: the shape of the binary commands with R122's sum. -/
theorem maddAddsModulo : Obligations.MaddAddsModulo := by
  intro rd r1 r2 m s
  refine ⟨wordsOf (.madd rd r1 r2 m), binaryModular_range addMod rd, fun h1 h2 => ?_⟩
  exact binaryModular_regResult (f := addMod) rd h1 h2 rfl (Nat.mod_lt _ (modulus_prime m).pos)

/-- Settles O37: the shape of the binary commands with R123's difference of residues in its two cases. -/
theorem msubSubtractsModulo : Obligations.MsubSubtractsModulo := by
  intro rd r1 r2 m s
  refine ⟨wordsOf (.msub rd r1 r2 m), binaryModular_range subMod rd, fun h1 h2 => ?_⟩
  have hcases := subMod_of_lt (modulus m) _ _ h1 h2
  exact binaryModular_regResult rd h1 h2 hcases (hcases ▸ subMod_lt _ _ _ (modulus_prime m).pos)

/-- Settles O38: the shape of the binary commands with R124's product. -/
theorem mmulMultipliesModulo : Obligations.MmulMultipliesModulo := by
  intro rd r1 r2 m s
  refine ⟨wordsOf (.mmul rd r1 r2 m), binaryModular_range mulMod rd, fun h1 h2 => ?_⟩
  exact binaryModular_regResult (f := mulMod) rd h1 h2 rfl (Nat.mod_lt _ (modulus_prime m).pos)

/-- Settles O39: the Montgomery product and the reference procedure's value both have the defining product with the
radix, and the radix cancels modulo m. -/
theorem montmulGivesTheMontgomeryProduct : Obligations.MontmulGivesTheMontgomeryProduct := by
  intro rd r1 r2 m s
  refine ⟨wordsOf (.montmul rd r1 r2 m), binaryModular_range montMul rd, fun h1 h2 => ?_⟩
  obtain ⟨hlt, hmul⟩ := montMul_spec m (s.regVal r1) (s.regVal r2)
  have hunique {v : Nat} (hv : v < modulus m)
      (h : v * Config.radix % modulus m = s.regVal r1 * s.regVal r2 % modulus m) :
      v = montMul (modulus m) (s.regVal r1) (s.regVal r2) :=
    eq_of_mul_mod_eq (gcd_modulus_radix m) hv hlt (h.trans hmul.symm)
  obtain ⟨t, ht, hres⟩ := binaryModular_regResult rd h1 h2 rfl hlt
  obtain ⟨hreflt, hrefmul⟩ := montMulReference_spec (modulus_lt_radix m) (gcd_modulus_radix m) h1 h2
  exact ⟨t, _, ht, hres, hlt, hmul, fun v' => hunique, hunique hreflt hrefmul⟩

/-- Settles O40: the two checks in their order, then the inverse, which is not 0. -/
theorem minvGivesTheInverse : Obligations.MinvGivesTheInverse := by
  intro rd r1 m v s
  refine ⟨wordsOf (.minv rd r1 m v), fun h => if_pos h, fun h => ?_, fun h0 hx => ?_⟩
  · have hm : ¬modulus m ≤ s.regVal r1 := h ▸ (modulus_prime m).pos.not_ge
    exact (if_neg hm).trans (if_pos h)
  · obtain ⟨hlt, hinv⟩ := invBy_spec v m (s.regVal r1) h0 hx
    refine ⟨_, _, (if_neg hx.not_ge).trans (if_neg h0.ne'),
      regResult_finish s rd _ false (hlt.trans (modulus_lt m)), Nat.pos_of_ne_zero fun hy => ?_, hlt, hinv⟩
    simp [hy] at hinv

/-- Settles O41: the checks do not look at the method, and the inverse is one number. -/
theorem inversionMethodsAgree : Obligations.InversionMethodsAgree := by
  intro rd r1 m s
  simp only [exec, execMinv]
  split
  · rfl
  · next hrange =>
    split
    · rfl
    · next hzero => rw [invBy_eq .fermat .euclid m _ (Nat.pos_of_ne_zero hzero) (Nat.lt_of_not_ge hrange)]

/-- Settles O42: every operand gives its residue, at most one subtraction below it. -/
theorem mredReducesAnyValue : Obligations.MredReducesAnyValue := by
  intro rd r1 m s
  have hlt : s.regVal r1 % modulus m < 2 ^ 256 := (Nat.mod_le _ _).trans_lt (s.regVal_lt r1)
  obtain ⟨hdone, hval, hkept⟩ := regResult_finish s rd _ false hlt
  refine ⟨wordsOf (.mred rd r1 m), _, rfl, ⟨hdone, hval, hkept⟩, ?_⟩
  rw [hval]
  exact mod_modulus_cases m (s.regVal_lt r1)

/-- Settles O43: the constant of each index, the computed ones by their value. -/
theorem ldcLoadsTheConstants : Obligations.LdcLoadsTheConstants := by
  intro rd s k
  have hres {v : Nat} (hv : constStore k = v) :
      RegResult s ((s.setRegVal rd (constStore k)).finish .ok false) rd v false := by
    subst hv
    exact regResult_finish s rd _ false (constStore_lt k)
  refine ⟨wordsOf (.ldc rd k), _, rfl, hres ?_⟩
  cases k with
  | p | n | b | gx | gy => rfl
  | a => exact constStore_a
  | r2p => exact constStore_r2p
  | r2n => exact constStore_r2n

end Sys2Proof.Machine
end

section
/-! PROOFS. The DER encoder commands (41_der.md): the content of an INTEGER is the shortest string with a clear sign
bit, which fixes its length by the bit length of the operand. -/

namespace Sys2Proof.Machine

/-! ### The first byte of a string and its value -/

theorem beValue_cons (b : Byte) (l : List Byte) : beValue (b :: l) = b.toNat * 256 ^ l.length + beValue l := by
  induction l using List.reverseRecOn with
  | nil => simp [beValue]
  | append_singleton l c ih =>
    rw [← List.cons_append, beValue_append_singleton, beValue_append_singleton, ih, List.length_append,
      List.length_singleton, pow_succ]
    ring

theorem beValue_lt (l : List Byte) : beValue l < 256 ^ l.length := by
  induction l using List.reverseRecOn with
  | nil => simp [beValue]
  | append_singleton l b ih =>
    rw [beValue_append_singleton, List.length_append, List.length_singleton, pow_succ]
    have := b.isLt
    omega

/-- With fuel enough, the shortest string of a number other than 0 begins with a byte other than 0. -/
theorem beMinFuel_eq_cons (fuel v : Nat) (h : v < 256 ^ (fuel + 1)) :
    ∃ c cs, beMinFuel fuel v = c :: cs ∧ (v ≠ 0 → c ≠ 0) := by
  have single {v : Nat} (hv : v < 256) (h0 : v ≠ 0) : BitVec.ofNat 8 v ≠ 0 := fun hc => by
    have := congrArg BitVec.toNat hc
    rw [BitVec.toNat_ofNat, Nat.mod_eq_of_lt hv] at this
    exact h0 this
  induction fuel generalizing v with
  | zero => exact ⟨_, _, rfl, single h⟩
  | succ fuel ih =>
    simp only [beMinFuel]
    split
    · next hv => exact ⟨_, _, rfl, single hv⟩
    · next hv =>
      obtain ⟨c, cs, heq, hc⟩ := ih (v / 256) (by rw [pow_succ] at h; omega)
      exact ⟨c, cs ++ [BitVec.ofNat 8 v], by rw [heq, List.cons_append], fun _ => hc (by omega)⟩

/-- Only a one-byte shortest string may begin with 0x00 (00_scope.md section 5). -/
theorem beMin_eq_cons (v : Nat) : ∃ c cs, beMin v = c :: cs ∧ (cs ≠ [] → c ≠ 0) := by
  have hfuel : v < 256 ^ (v + 1) := (Nat.lt_succ_self v).trans (Nat.lt_pow_self (by decide))
  obtain ⟨c, cs, heq, hc⟩ := beMinFuel_eq_cons v v hfuel
  refine ⟨c, cs, heq, fun hcs => hc ?_⟩
  rintro rfl
  exact hcs (List.cons.inj heq).2.symm

/-! ### Minimal contents -/

/-- What makes a string the content of a DER INTEGER of a number: its sign bit is clear, and a leading 0x00 stands only
before a byte that needs it (R171). -/
structure MinimalContent (content : List Byte) : Prop where
  nonempty : 1 ≤ content.length
  signClear : (content.getD 0 0).toNat < 0x80
  guardNeeded : 2 ≤ content.length → content.getD 0 0 = 0x00#8 → 0x80 ≤ (content.getD 1 0).toNat

theorem derContent_minimal (v : Nat) : MinimalContent (derContent v) := by
  obtain ⟨c, cs, heq, hc⟩ := beMin_eq_cons v
  unfold derContent
  rw [heq]
  dsimp only
  split
  · next hlow =>
    refine ⟨by simp, hlow, fun hlen h0 => absurd h0 (hc ?_)⟩
    rintro rfl
    simp at hlen
  · next hhigh => exact ⟨by simp, by simp, fun _ _ => Nat.le_of_not_lt hhigh⟩

theorem beValue_derContent (v : Nat) : beValue (derContent v) = v := by
  obtain ⟨c, cs, heq, -⟩ := beMin_eq_cons v
  have hval : beValue (c :: cs) = v := heq ▸ beValue_beMin v
  unfold derContent
  rw [heq]
  dsimp only
  split
  · exact hval
  · rw [beValue_cons, hval]
    simp

theorem two_pow_low_bits (k : Nat) : 2 ^ (8 * k + 7) = 128 * 256 ^ k := by
  rw [pow_add, pow_mul]
  ring

/-- A clear sign bit leaves the value one bit short of the string's bits. -/
theorem MinimalContent.size_lt {content : List Byte} (h : MinimalContent content) :
    Nat.size (beValue content) < 8 * content.length := by
  obtain ⟨hne, hsign, -⟩ := h
  cases content with
  | nil => simp at hne
  | cons b l =>
    have hb : b.toNat < 128 := hsign
    have hvalue : beValue (b :: l) < 2 ^ (8 * l.length + 7) := by
      rw [beValue_cons, two_pow_low_bits]
      have := Nat.mul_le_mul_right (256 ^ l.length) (Nat.succ_le_of_lt hb)
      linarith [beValue_lt l]
    have := Nat.size_le.mpr hvalue
    rw [List.length_cons]
    omega

/-- A string without a spare byte has all bits of the later bytes in its value: its first byte is not 0, or the top bit
of its second is set. -/
theorem MinimalContent.le_size {content : List Byte} (h : MinimalContent content) :
    8 * (content.length - 1) ≤ Nat.size (beValue content) := by
  obtain ⟨-, -, hguard⟩ := h
  match content with
  | [] | [_] => simp
  | b :: c :: l =>
    have hfirst : 128 ≤ b.toNat * 256 + c.toNat := by
      by_cases hb : b = 0
      · have : 128 ≤ c.toNat := hguard (by simp) hb
        omega
      · have : b.toNat ≠ 0 := fun h0 => hb (BitVec.eq_of_toNat_eq h0)
        omega
    have hvalue : 2 ^ (8 * l.length + 7) ≤ beValue (b :: c :: l) := by
      calc 2 ^ (8 * l.length + 7) = 128 * 256 ^ l.length := two_pow_low_bits _
        _ ≤ (b.toNat * 256 + c.toNat) * 256 ^ l.length := Nat.mul_le_mul_right _ hfirst
        _ ≤ b.toNat * 256 ^ (c :: l).length + (c.toNat * 256 ^ l.length + beValue l) := by
          rw [List.length_cons, pow_succ]; linarith
        _ = beValue (b :: c :: l) := by rw [beValue_cons, beValue_cons]
    have := Nat.lt_size.mpr hvalue
    simp only [List.length_cons]
    omega

/-- The length of a content is fixed by the bit length of its number (R176). -/
theorem derContent_length_eq (v : Nat) : (derContent v).length = 1 + Nat.size v / 8 := by
  have hmin := derContent_minimal v
  have hlt := hmin.size_lt
  have hle := hmin.le_size
  rw [beValue_derContent] at hlt hle
  omega

/-! ### The encodings of 256-bit values in short form -/

/-- Tag, one length byte and content (R170, R172). -/
theorem derInt_eq {v : Nat} (h : v < 2 ^ 256) :
    derInt v = 0x02#8 :: BitVec.ofNat 8 (derContent v).length :: derContent v := by
  have := derContent_length v h
  rw [derInt, derLen_short _ (by omega), List.singleton_append]

/-- Tag, one length byte and the two integers (R170, R173). -/
theorem derSig_eq {r s : Nat} (hr : r < 2 ^ 256) (hs : s < 2 ^ 256) :
    derSig r s = 0x30#8 :: BitVec.ofNat 8 ((derInt r).length + (derInt s).length) :: (derInt r ++ derInt s) := by
  have := derInt_length r hr
  have := derInt_length s hs
  rw [derSig, derSigBody, List.length_append, derLen_short _ (by omega), List.singleton_append]

/-- The byte of a short length is the length (R170). -/
theorem toNat_shortLength {L : Nat} (h : L ≤ 127) : (BitVec.ofNat 8 L).toNat = L := by
  rw [BitVec.toNat_ofNat]
  omega

/-! ### The two commands -/

/-- A command that only writes an output string of at most 128 bytes gives the output result (R39, R301). -/
theorem complete_setOut_outResult {s : State} {bytes bytes' : List Byte} (heq : bytes = bytes')
    (hlen : bytes.length ≤ Config.outSize) (hwf : s.mem.wf = true) :
    ∃ t, complete false (s.setOut bytes) = .next t ∧ OutResult s t bytes' ∧ t.outLen.toNat = bytes.length := by
  subst heq
  have hout := outResult_finish s bytes hlen hwf
  have ⟨_, ⟨houtLen, _⟩, _⟩ := hout
  exact ⟨_, rfl, hout, houtLen⟩

/-- Settles O45: the content is minimal and spells the operand, and the bit length of the operand gives OUT_LEN. -/
theorem derintEncodesMinimally : Obligations.DerintEncodesMinimally := by
  intro r1 s hwf
  have hv := s.regVal_lt r1
  obtain ⟨hlen, -, hle⟩ := derInt_length _ hv
  have hcontent := derContent_length_eq (s.regVal r1)
  obtain ⟨hne, hsign, hguard⟩ := derContent_minimal (s.regVal r1)
  have h247 : 247 < Nat.size (s.regVal r1) ↔ 2 ^ 247 ≤ s.regVal r1 := Nat.lt_size
  have h255 : 255 < Nat.size (s.regVal r1) ↔ 2 ^ 255 ≤ s.regVal r1 := Nat.lt_size
  obtain ⟨t, ht, hout, houtLen⟩ := complete_setOut_outResult (derInt_eq hv) (hle.trans (by decide)) hwf
  refine ⟨wordsOf (.derint r1), t, _, _, ht, hout, toNat_shortLength (by omega), beValue_derContent _, hne, hsign,
    hguard, ?_⟩
  rw [houtLen]
  omega

/-- Settles O46: the two encodings in order under one length byte, their lengths bounded by those of 256-bit integers. -/
theorem dersigWrapsTwoIntegers : Obligations.DersigWrapsTwoIntegers := by
  intro r1 r2 s hwf
  have h1 := s.regVal_lt r1
  have h2 := s.regVal_lt r2
  obtain ⟨-, hge1, hle1⟩ := derInt_length _ h1
  obtain ⟨-, hge2, hle2⟩ := derInt_length _ h2
  obtain ⟨hlen, -, hle⟩ := derSig_length _ _ h1 h2
  obtain ⟨t, ht, hout, houtLen⟩ := complete_setOut_outResult (derSig_eq h1 h2) (hle.trans (by decide)) hwf
  refine ⟨wordsOf (.dersig r1 r2), t, _, ht, hout, ?_⟩
  rw [houtLen, toNat_shortLength (by omega)]
  omega

end Sys2Proof.Machine
end

section
/-! PROOFS. The curve equation and its square root (42_point.md rules R201 and R220): what the curve test says, that the
candidate is a root of every square, and that decompression finds exactly the point of the wanted parity. -/

namespace Sys2Proof.Machine

open Sys2Proof.Config (p)

theorem p_lt_two_pow : p < 2 ^ 256 := modulus_lt .p

/-! ### The curve test -/

theorem isOnCurve_iff {x y : Nat} : isOnCurve x y = true ↔ x < p ∧ y < p ∧ y * y % p = curveRhs x := by
  simp [isOnCurve, and_assoc]

/-- The test compares the two sides of R201's equation as integers modulo p. -/
theorem mul_self_mod_eq_curveRhs_iff (x y : Nat) : y * y % p = curveRhs x ↔
    ((y : Int) * y - (x * x * x + Config.a * x + Config.b)) % p = 0 := by
  rw [← Int.emod_eq_emod_iff_emod_sub_eq_zero, curveRhs]
  norm_cast

/-- O is not on the curve: b is no multiple of p (R201). -/
theorem isOnCurve_zero_zero : isOnCurve 0 0 = false := by decide

/-! ### The square root -/

/-- Modulo a prime of the form 4k + 3 the power (m+1)/4 of a square is a root of it: its square is y^(m+1), and
y^m = y by Fermat. -/
theorem powMod_quarter_mul_self {m : Nat} (hm : m.Prime) (h4 : m % 4 = 3) (hsize : m < 2 ^ 256) (y : Nat) :
    powMod m (y * y % m) ((m + 1) / 4) * powMod m (y * y % m) ((m + 1) / 4) ≡ y * y [MOD m] := by
  have : Fact m.Prime := ⟨hm⟩
  have hroot : powMod m (y * y % m) ((m + 1) / 4) ≡ (y * y) ^ ((m + 1) / 4) [MOD m] := by
    rw [powMod_eq _ _ _ (by omega)]
    exact (Nat.mod_modEq _ _).trans ((Nat.mod_modEq _ _).pow _)
  have hfermat : y ^ m ≡ y [MOD m] :=
    (ZMod.natCast_eq_natCast_iff _ _ _).1 (by rw [Nat.cast_pow, ZMod.pow_card])
  calc powMod m (y * y % m) ((m + 1) / 4) * powMod m (y * y % m) ((m + 1) / 4)
      ≡ (y * y) ^ ((m + 1) / 4) * (y * y) ^ ((m + 1) / 4) [MOD m] := hroot.mul hroot
    _ = y ^ (4 * ((m + 1) / 4)) := by ring
    _ = y ^ m * y := by rw [← pow_succ, Nat.mul_div_cancel' (by omega)]
    _ ≡ y * y [MOD m] := hfermat.mul_right y

/-- A residue of a prime has at most two square roots, opposite to each other. -/
theorem eq_or_add_eq_of_mul_self_modEq {m c y : Nat} (hm : m.Prime) (hc : c < m) (hy : y < m)
    (h : c * c ≡ y * y [MOD m]) : c = y ∨ c + y = m := by
  have : Fact m.Prime := ⟨hm⟩
  have hsquares : (c : ZMod m) * c = y * y := by exact_mod_cast (ZMod.natCast_eq_natCast_iff _ _ _).2 h
  rcases mul_self_eq_mul_self_iff.1 hsquares with heq | hneg
  · exact .inl (((ZMod.natCast_eq_natCast_iff _ _ _).1 heq).eq_of_lt_of_lt hc hy)
  · have hdvd : m ∣ c + y := by
      rw [← ZMod.natCast_eq_zero_iff, Nat.cast_add, hneg, neg_add_cancel]
    by_cases h0 : c + y = 0
    · exact .inl (by omega)
    · exact .inr (Nat.eq_of_dvd_of_lt_two_mul h0 hdvd (by omega))

/-- The candidate of a square is a root of it (R220). -/
theorem mulMod_sqrtCandidate (y : Nat) :
    mulMod p (sqrtCandidate (y * y % p)) (sqrtCandidate (y * y % p)) = y * y % p :=
  powMod_quarter_mul_self p_prime (by decide) p_lt_two_pow y

/-- The candidate of y's square is y or p - y. -/
theorem sqrtCandidate_eq_or_add_eq {y : Nat} (hy : y < p) :
    sqrtCandidate (y * y % p) = y ∨ sqrtCandidate (y * y % p) + y = p :=
  eq_or_add_eq_of_mul_self_modEq p_prime (powMod_lt _ _ _ p_prime.pos) hy (mulMod_sqrtCandidate y)

/-- Of two opposite roots exactly one has the wanted parity, p being odd (R220). -/
theorem rootOfParity_eq {pre y y0 : Nat} (hy : y < p) (hpar : y % 2 = pre % 2) (hroot : y0 = y ∨ y0 + y = p) :
    rootOfParity pre y0 = y := by
  have hodd : p % 2 = 1 := by decide
  unfold rootOfParity
  split
  · omega
  · rw [show p - y0 = y by omega, Nat.mod_eq_of_lt hy]

/-! ### Decompression -/

/-- Decompression gives a point exactly when it is on the curve, with the key's x and the wanted parity (R220). -/
theorem decompress_eq_some_iff {pre x : Nat} {q : Nat × Nat} : decompress pre x = some q ↔
    (pre = 2 ∨ pre = 3) ∧ q.1 = x ∧ isOnCurve x q.2 = true ∧ q.2 % 2 = pre % 2 := by
  constructor
  · intro h
    unfold decompress at h
    split_ifs at h with hpre hx hsquare hpar hcurve
    obtain rfl := Option.some.inj h
    exact ⟨by omega, rfl, by simpa using hcurve, by simpa using hpar⟩
  · obtain ⟨x', y⟩ := q
    dsimp only
    rintro ⟨hpre, rfl, hcurve, hpar⟩
    obtain ⟨hx, hy, heq⟩ := isOnCurve_iff.1 hcurve
    have hroot := rootOfParity_eq hy hpar (sqrtCandidate_eq_or_add_eq hy)
    have hsquare := mulMod_sqrtCandidate y
    rw [heq] at hroot hsquare
    unfold decompress
    rw [hroot, if_neg (by omega), if_neg hx.not_ge, if_neg (not_not.2 hsquare), if_neg (not_not.2 hpar),
      if_neg (by simp [hcurve])]

end Sys2Proof.Machine
end

section
/-! PROOFS. The point commands (42_point.md) but PMUL: the words of each, its errors and its result. -/

namespace Sys2Proof.Machine

/-- Pairs other than R7 pass the check of R94. -/
theorem withPairs_of_ne_seven {pairs : List Reg} (h : ∀ r ∈ pairs, r ≠ 7) (s : State) (run : CmdOutcome) :
    withPairs pairs s run = run :=
  withPairs_legal (by simpa [Reg.pairLegal] using h) s run

/-! ### PVALID -/

theorem exec_pvalid {r1 : Reg} (h1 : r1 ≠ 7) (rd : Reg) (s : State) :
    exec (.pvalid rd r1) s = complete (isOnCurve (s.pairVal r1).1 (s.pairVal r1).2)
      (s.setRegVal rd (isOnCurve (s.pairVal r1).1 (s.pairVal r1).2).toNat) :=
  withPairs_of_ne_seven (by simpa using h1) s _

/-- Settles O48: the answer of the curve test, its equation read over the integers. -/
theorem pvalidTestsTheCurveEquation : Obligations.PvalidTestsTheCurveEquation := by
  intro rd r1 s h1
  refine ⟨wordsOf (.pvalid rd r1), _, isOnCurve (s.regVal r1) (s.regVal (r1 + 1)), exec_pvalid h1 rd s,
    regResult_finish s rd _ _ ((Bool.toNat_le _).trans_lt (by decide)), ?_, fun hx hy => ?_⟩
  · rw [isOnCurve_iff, mul_self_mod_eq_curveRhs_iff]
  · rw [hx, hy, isOnCurve_zero_zero]

/-! ### PADD and PDBL -/

/-- A point whose coordinates a pair of registers can hold. -/
def CurvePoint.FitsPair (q : CurvePoint) : Prop := (pairOfPoint q).1 < 2 ^ 256 ∧ (pairOfPoint q).2 < 2 ^ 256

theorem pairOfPoint_pointOfPair (xy : Nat × Nat) : pairOfPoint (pointOfPair xy) = xy := by
  unfold pointOfPair
  split
  · next h => exact h.symm
  · rfl

theorem fitsPair_pointOfPair (s : State) (r : Reg) : (pointOfPair (s.pairVal r)).FitsPair := by
  unfold CurvePoint.FitsPair
  rw [pairOfPoint_pointOfPair]
  exact ⟨s.regVal_lt _, s.regVal_lt _⟩

theorem fitsPair_infinity : CurvePoint.infinity.FitsPair := ⟨by decide, by decide⟩

/-- The coordinates of R203's third point are residues. -/
theorem fitsPair_chordPoint (lam x1 y1 x2 : Nat) : (chordPoint lam x1 y1 x2).FitsPair :=
  ⟨(subMod_lt _ _ _ p_prime.pos).trans p_lt_two_pow, (subMod_lt _ _ _ p_prime.pos).trans p_lt_two_pow⟩

theorem fitsPair_addPoint {P Q : CurvePoint} (hP : P.FitsPair) (hQ : Q.FitsPair) :
    (addPoint P Q).FitsPair := by
  cases P with
  | infinity => exact hQ
  | affine x1 y1 =>
    cases Q with
    | infinity => exact hP
    | affine x2 y2 =>
      simp only [addPoint]
      split_ifs
      · exact fitsPair_infinity
      · exact fitsPair_chordPoint ..
      · exact fitsPair_chordPoint ..

/-- A command that only writes a point to a pair gives the pair result (R301). -/
theorem complete_setPairVal_pairResult {q : CurvePoint} (hq : q.FitsPair) (s : State) (rd : Reg) :
    ∃ t, complete false (s.setPairVal rd (pairOfPoint q)) = .next t ∧ PairResult s t rd (pairOfPoint q) :=
  ⟨_, rfl, pairResult_finish s rd _ hq.1 hq.2⟩

theorem exec_padd {rd r1 r2 : Reg} (hd : rd ≠ 7) (h1 : r1 ≠ 7) (h2 : r2 ≠ 7) (s : State) :
    exec (.padd rd r1 r2) s =
      if validPt (s.pairVal r1) = false ∨ validPt (s.pairVal r2) = false then raise .point s
      else complete false (s.setPairVal rd
        (pairOfPoint (addPoint (pointOfPair (s.pairVal r1)) (pointOfPair (s.pairVal r2))))) := by
  simp only [exec, execPadd]
  rw [withPairs_of_ne_seven (by simp [hd, h1, h2]), ite_or]

theorem exec_pdbl {rd r1 : Reg} (hd : rd ≠ 7) (h1 : r1 ≠ 7) (s : State) :
    exec (.pdbl rd r1) s =
      if validPt (s.pairVal r1) = false then raise .point s
      else complete false (s.setPairVal rd
        (pairOfPoint (addPoint (pointOfPair (s.pairVal r1)) (pointOfPair (s.pairVal r1))))) :=
  withPairs_of_ne_seven (by simp [hd, h1]) s _

/-- Settles O50: the check of the operands, then the sum, which fits a pair. -/
theorem paddAndPdblWriteTheSum : Obligations.PaddAndPdblWriteTheSum := by
  intro rd r1 r2 s hd h1
  have hfits (r r' : Reg) := fitsPair_addPoint (fitsPair_pointOfPair s r) (fitsPair_pointOfPair s r')
  refine ⟨fun h2 => ⟨wordsOf (.padd rd r1 r2), fun hbad => ?_, fun hv1 hv2 => ?_⟩, wordsOf (.pdbl rd r1),
    fun hbad => ?_, fun hv1 => ?_⟩
  · rw [exec_padd hd h1 h2, if_pos hbad, raise_eq]
  · rw [exec_padd hd h1 h2, if_neg (by simp [hv1, hv2])]
    exact complete_setPairVal_pairResult (hfits r1 r2) s rd
  · rw [exec_pdbl hd h1, if_pos hbad, raise_eq]
  · rw [exec_pdbl hd h1, if_neg (by simp [hv1])]
    exact complete_setPairVal_pairResult (hfits r1 r1) s rd

/-! ### DECOMP -/

@[simp] theorem State.pairVal_finish (s : State) (c : ErrCode) (res : Bool) (r : Reg) :
    (s.finish c res).pairVal r = s.pairVal r := rfl

@[simp] theorem State.pairVal_setOut (s : State) (bytes : List Byte) (r : Reg) :
    (s.setOut bytes).pairVal r = s.pairVal r := rfl

/-- A compressed key that decompresses gives the pair and its uncompressed form (R220, R221). -/
theorem exec_decomp_of_some {rd : Reg} {s : State} {xy : Nat × Nat} (hd : rd ≠ 7) (hlen : s.inLen.toNat = 33)
    (h : decompress (s.inByte 0).toNat (s.inField 1) = some xy) :
    exec (.decomp rd) s = .next (((s.setPairVal rd xy).setOut (uncompressedKey xy)).finish .ok false) := by
  simp only [exec, execDecomp]
  rw [withPairs_of_ne_seven (by simpa using hd), if_neg (not_not.2 hlen)]
  simp only [h, complete_eq]

/-- Another length, or a key that does not decompress, is ERR_PUBKEY (R220, R295). -/
theorem exec_decomp_of_none {rd : Reg} {s : State} (hd : rd ≠ 7)
    (h : s.inLen.toNat = 33 → decompress (s.inByte 0).toNat (s.inField 1) = none) :
    exec (.decomp rd) s = .next (s.finish .pubkey false) := by
  simp only [exec, execDecomp]
  rw [withPairs_of_ne_seven (by simpa using hd)]
  split
  · rfl
  · next hlen => rw [h (not_not.1 hlen), raise_eq]

/-- A pair and an output result together (R39, R301). -/
theorem pairOutResult_finish (s : State) (prd : Reg) {q : Nat × Nat} {bytes : List Byte} (hx : q.1 < 2 ^ 256)
    (hy : q.2 < 2 ^ 256) (hlen : bytes.length ≤ Config.outSize) (hwf : s.mem.wf = true) :
    CompletedWith s (((s.setPairVal prd q).setOut bytes).finish .ok false) false ∧
      (((s.setPairVal prd q).setOut bytes).finish .ok false).pairVal prd = q ∧
      RegsKeptBut s (((s.setPairVal prd q).setOut bytes).finish .ok false) [prd, pairSecond prd] ∧
      OutWritten s (((s.setPairVal prd q).setOut bytes).finish .ok false) bytes := by
  obtain ⟨-, hpair, hregs, -⟩ := pairResult_finish s prd q hx hy
  obtain ⟨-, hout, -⟩ := outResult_finish (s.setPairVal prd q) bytes hlen hwf
  exact ⟨⟨rfl, rfl, rfl, rfl, ⟨rfl, rfl, rfl, rfl, rfl, rfl, rfl, rfl⟩⟩, hpair, hregs, hout⟩

/-- The coordinates of a decompressed point are residues. -/
theorem decompress_lt {pre x : Nat} {xy : Nat × Nat} (h : decompress pre x = some xy) :
    xy.1 < 2 ^ 256 ∧ xy.2 < 2 ^ 256 := by
  obtain ⟨-, rfl, hcurve, -⟩ := decompress_eq_some_iff.1 h
  obtain ⟨hx, hy, -⟩ := isOnCurve_iff.1 hcurve
  exact ⟨hx.trans p_lt_two_pow, hy.trans p_lt_two_pow⟩

/-- The two values of the parity byte as numbers (R220). -/
theorem parityByte_iff {b : Byte} : b = 0x02#8 ∨ b = 0x03#8 ↔ b.toNat = 2 ∨ b.toNat = 3 := by
  simp [← BitVec.toNat_inj]

/-- Settles O55: decompression finds the point there is, and the pair and the output string are written; with no such
point it finds none. -/
theorem decompFindsThePointOrErrPubkey : Obligations.DecompFindsThePointOrErrPubkey := by
  intro rd s hd hwf
  refine ⟨wordsOf (.decomp rd), fun y hlen hpre hcurve hpar => ?_, fun hno => ?_⟩
  · have hsome : decompress (s.inByte 0).toNat (s.inField 1) = some (s.inField 1, y) :=
      decompress_eq_some_iff.2 ⟨parityByte_iff.1 hpre, rfl, hcurve, hpar⟩
    obtain ⟨hx, hy⟩ := decompress_lt hsome
    have hbytes : (uncompressedKey (s.inField 1, y)).length ≤ Config.outSize := by
      rw [uncompressedKey_length]
      decide
    exact ⟨_, exec_decomp_of_some hd hlen hsome, pairOutResult_finish s rd hx hy hbytes hwf⟩
  · refine exec_decomp_of_none hd fun hlen => Option.eq_none_iff_forall_ne_some.2 fun xy hsome => hno ?_
    obtain ⟨hpre, -, hcurve, hpar⟩ := decompress_eq_some_iff.1 hsome
    exact ⟨hlen, parityByte_iff.2 hpre, xy.2, hcurve, hpar⟩

/-! ### COMPRESS and its inverse -/

theorem exec_compress {r1 : Reg} (h1 : r1 ≠ 7) (s : State) :
    exec (.compress r1) s = complete false (s.setOut (compressedKey (s.pairVal r1))) :=
  withPairs_of_ne_seven (by simpa using h1) s _

/-- The first byte of a compressed key is 2 or 3, by the parity of y (R222). -/
theorem toNat_parityByte (y : Nat) : (BitVec.ofNat 8 (0x02 + y % 2)).toNat = 0x02 + y % 2 := by
  rw [BitVec.toNat_ofNat]
  omega

/-- Settles O56: the parity byte and the 32 bytes of x, as the output string. -/
theorem compressWritesPrefixAndX : Obligations.CompressWritesPrefixAndX := by
  intro r1 s h1 hwf
  exact ⟨wordsOf (.compress r1), _, _, _, exec_compress h1 s,
    outResult_finish s (compressedKey (s.pairVal r1)) (by rw [compressedKey_length]; decide) hwf,
    toNat_parityByte _, be32_length _, beValue_be32 _ (s.regVal_lt r1)⟩

/-- A run of bytes that agrees with a string byte by byte is the string. -/
theorem readBytes_eq {m : Memory} {addr : Nat} {l : List Byte}
    (h : ∀ j, j < l.length → readByte m (addr + j) = l.getD j 0) : readBytes m addr l.length = l := by
  refine List.ext_getElem (readBytes_length ..) fun j hj hj' => ?_
  have := readBytes_getD m addr l.length j hj'
  rw [h j hj'] at this
  simpa [List.getD_eq_getElem?_getD, hj, hj'] using this

/-- With a compressed key in IN_BUF, DECOMP reads the parity and x of its pair (R220, R222). -/
theorem inBuf_of_compressedKey {u : State} {xy : Nat × Nat} (hx : xy.1 < 2 ^ 256)
    (h : ∀ j, j < 33 → u.inByte j = (compressedKey xy).getD j 0) :
    (u.inByte 0).toNat = 2 + xy.2 % 2 ∧ u.inField 1 = xy.1 := by
  constructor
  · rw [h 0 (by decide)]
    exact toNat_parityByte xy.2
  · have hbytes : readBytes u.mem (Config.inBase + 1) (be32 xy.1).length = be32 xy.1 :=
      readBytes_eq fun j hj => by
        rw [be32_length] at hj
        have hbyte := h (j + 1) (by omega)
        rw [compressedKey, List.getD_cons_succ] at hbyte
        rw [Nat.add_assoc, Nat.add_comm 1 j]
        exact hbyte
    rw [be32_length] at hbytes
    rw [State.inField, hbytes, beValue_be32 _ hx]

@[simp] theorem State.outByte_finish (s : State) (c : ErrCode) (r : Bool) (j : Nat) :
    (s.finish c r).outByte j = s.outByte j := rfl

/-- The bytes of OUT_BUF after COMPRESS (R222). -/
theorem outByte_of_compress {r1 : Reg} {s t : State} (h1 : r1 ≠ 7) (hwf : s.mem.wf = true)
    (h : exec (.compress r1) s = .next t) {j : Nat} (hj : j < 33) :
    t.outByte j = (compressedKey (s.pairVal r1)).getD j 0 := by
  rw [exec_compress h1, complete_eq] at h
  obtain rfl := Host.Outcome.next.inj h
  have hout : j < Config.outSize := hj.trans (by decide)
  rw [State.outByte_finish, State.outByte_setOut _ _ _ hout hwf]

/-- Settles O57: a point on the curve is the one decompression finds; a pair off the curve is no point it can find. -/
theorem decompOfCompressGivesThePointBack : Obligations.DecompOfCompressGivesThePointBack := by
  intro r1 rd s t u h1 hd hwf hexec hlen hbytes
  obtain ⟨hpre, hx⟩ := inBuf_of_compressedKey (u := u) (xy := s.pairVal r1) (s.regVal_lt r1) fun j hj =>
    (hbytes j hj).trans (outByte_of_compress h1 hwf hexec hj)
  have hfound (hcurve : isOnCurve (s.pairVal r1).1 (s.pairVal r1).2 = true) :
      decompress (u.inByte 0).toNat (u.inField 1) = some (s.pairVal r1) := by
    rw [hpre, hx]
    exact decompress_eq_some_iff.2 ⟨by omega, rfl, hcurve, by omega⟩
  cases hdec : decompress (u.inByte 0).toNat (u.inField 1) with
  | none =>
    refine ⟨_, exec_decomp_of_none hd fun _ => hdec, fun hcurve => ?_, fun _ _ _ => .inl rfl⟩
    rw [hfound hcurve] at hdec
    cases hdec
  | some xy =>
    obtain ⟨hlt1, hlt2⟩ := decompress_lt hdec
    have hpair : (((u.setPairVal rd xy).setOut (uncompressedKey xy)).finish .ok false).pairVal rd = xy := by
      rw [State.pairVal_finish, State.pairVal_setOut, State.pairVal_setPairVal u rd hlt1 hlt2]
    refine ⟨_, exec_decomp_of_some hd hlen hdec, fun hcurve => ⟨rfl, ?_⟩, fun _ _ hoff => .inr ⟨rfl, ?_⟩⟩
    · rw [hpair]
      exact Option.some.inj (hdec.symm.trans (hfound hcurve))
    · obtain ⟨-, -, hcurve, -⟩ := decompress_eq_some_iff.1 hdec
      rw [hpair]
      intro hy
      rw [hx, hy, hoff] at hcurve
      cases hcurve

end Sys2Proof.Machine
end

section
/-! PROOFS. The group law of 42_point.md section 1 is the elliptic curve group over the field of p elements, so the
machine's double-and-add computes R204's repeated addition. -/

namespace Sys2Proof.Machine

open Sys2Proof.Config (p)
open WeierstrassCurve.Affine (Point)

/-! ### Arithmetic modulo p in the field -/

theorem subMod_eq_val {m : Nat} [NeZero m] (x y : Nat) : subMod m x y = ((x : ZMod m) - y).val := by
  rw [← subMod_cast m x y (NeZero.pos m), ZMod.val_natCast_of_lt (subMod_lt m x y (NeZero.pos m))]

theorem cast_mulMod (m x y : Nat) : ((mulMod m x y : Nat) : ZMod m) = x * y := by
  rw [mulMod, ZMod.natCast_mod, Nat.cast_mul]

section
variable [Fact (Nat.Prime p)]

/-- R203's inverse of a non-zero residue is the field's. -/
theorem cast_invMod {x : ZMod p} (hx : x ≠ 0) : ((invMod p x.val : Nat) : ZMod p) = x⁻¹ := by
  obtain ⟨-, hinv⟩ := invMod_spec .p x.val (Nat.pos_of_ne_zero ((ZMod.val_ne_zero x).2 hx)) x.val_lt
  have hmul : x * (invMod p x.val : Nat) = 1 := by
    have := congrArg (Nat.cast : Nat → ZMod p) hinv
    simpa [modulus] using this
  exact (inv_eq_of_mul_eq_one_right hmul).symm

theorem val_add_val_mod_eq_zero_iff (y1 y2 : ZMod p) : (y1.val + y2.val) % p = 0 ↔ y1 = -y2 := by
  rw [← ZMod.val_add, ZMod.val_eq_zero, eq_neg_iff_add_eq_zero]

/-! ### The chord and the tangent -/

theorem curveOverField_negY (x y : ZMod p) : curveOverField.negY x y = -y := by
  simp [curveOverField]

theorem cast_tangentSlope {x y : ZMod p} (hy : y ≠ -y) :
    ((tangentSlope x.val y.val : Nat) : ZMod p) = curveOverField.slope x x y y := by
  have h2 : 2 * y ≠ 0 := fun h => hy (by rw [eq_neg_iff_add_eq_zero, ← two_mul, h])
  have hval : 2 * y.val % p = (2 * y).val := by
    rw [ZMod.val_mul, ZMod.val_two_eq_two_mod]
    simp
  rw [tangentSlope, cast_mulMod, hval, cast_invMod h2,
    WeierstrassCurve.Affine.slope_of_Y_ne rfl (by rwa [curveOverField_negY]), curveOverField_negY, div_eq_mul_inv]
  simp [curveOverField, two_mul, sq, mul_assoc]

theorem cast_chordSlope {x1 x2 : ZMod p} (hx : x1 ≠ x2) (y1 y2 : ZMod p) :
    ((chordSlope x1.val y1.val x2.val y2.val : Nat) : ZMod p) = curveOverField.slope x1 x2 y1 y2 := by
  rw [chordSlope, cast_mulMod, subMod_eq_val, subMod_eq_val, ZMod.natCast_zmod_val x1, ZMod.natCast_zmod_val x2,
    cast_invMod (sub_ne_zero.2 hx.symm), WeierstrassCurve.Affine.slope_of_X_ne hx, ← neg_sub y2, ← neg_sub x2,
    neg_div_neg_eq, div_eq_mul_inv]
  simp

/-- The last three lines of R203 are Mathlib's coordinates of the sum on a line of that slope. -/
theorem chordPoint_val (lam : Nat) (x1 y1 x2 : ZMod p) :
    chordPoint lam x1.val y1.val x2.val =
      .affine (curveOverField.addX x1 x2 lam).val (curveOverField.addY x1 x2 y1 lam).val := by
  have hx3 : subMod p (subMod p (lam * lam) x1.val) x2.val = (curveOverField.addX x1 x2 lam).val := by
    simp [subMod_eq_val, curveOverField, sq]
  rw [chordPoint, hx3, subMod_eq_val, subMod_eq_val]
  congr 2
  simp only [WeierstrassCurve.Affine.addY, curveOverField_negY, WeierstrassCurve.Affine.negAddY]
  push_cast
  simp only [ZMod.natCast_zmod_val]
  ring

/-! ### The group -/

/-- The group law of R203 is the addition of the elliptic curve group. -/
theorem addPoint_pointOfGroup (P Q : curveOverField.Point) :
    addPoint (pointOfGroup P) (pointOfGroup Q) = pointOfGroup (P + Q) := by
  match P, Q with
  | .zero, Q => rfl
  | .some _ _ _, .zero => rfl
  | .some x1 y1 h1, .some x2 y2 h2 =>
    simp only [pointOfGroup, addPoint, (ZMod.val_injective p).eq_iff, val_add_val_mod_eq_zero_iff]
    split_ifs with hopposite hx
    · obtain ⟨hx, hy⟩ := hopposite
      exact congrArg pointOfGroup (Point.add_of_Y_eq hx (by rw [curveOverField_negY, hy])).symm
    · subst hx
      have hy : y1 ≠ curveOverField.negY x1 y2 := fun h => hopposite ⟨rfl, by rwa [curveOverField_negY] at h⟩
      obtain rfl := WeierstrassCurve.Affine.Y_eq_of_Y_ne h1.1 h2.1 rfl hy
      rw [Point.add_of_Y_ne hy, chordPoint_val, cast_tangentSlope (by rwa [curveOverField_negY] at hy)]
    · rw [Point.add_of_X_ne hx, chordPoint_val, cast_chordSlope hx]

/-- The curve is not singular: 4a^3 + 27b^2 is no multiple of p (R4, R8). -/
theorem curveOverField_Δ_ne_zero : curveOverField.Δ ≠ 0 := by
  have hdelta : curveOverField.Δ = -((64 * Config.a ^ 3 + 432 * Config.b ^ 2 : Nat) : ZMod p) := by
    simp only [curveOverField, WeierstrassCurve.Δ, WeierstrassCurve.b₂, WeierstrassCurve.b₄, WeierstrassCurve.b₆,
      WeierstrassCurve.b₈]
    push_cast
    ring
  rw [hdelta, neg_ne_zero, Ne, ZMod.natCast_eq_zero_iff]
  decide

/-- The curve test is the curve's equation over the field (R201). -/
theorem equation_of_isOnCurve {x y : Nat} (h : isOnCurve x y = true) : curveOverField.Equation (x : ZMod p) y := by
  obtain ⟨-, -, heq⟩ := isOnCurve_iff.1 h
  have hfield : ((y * y : Nat) : ZMod p) = ((x * x * x + Config.a * x + Config.b : Nat) : ZMod p) :=
    (ZMod.natCast_eq_natCast_iff' ..).2 heq
  push_cast at hfield
  rw [WeierstrassCurve.Affine.equation_iff]
  simp only [curveOverField]
  linear_combination hfield

/-- Every point of the curve is a point of the group (R8, R201). -/
theorem exists_pointOfGroup_eq_affine {x y : Nat} (h : isOnCurve x y = true) :
    ∃ P : curveOverField.Point, pointOfGroup P = .affine x y := by
  obtain ⟨hx, hy, -⟩ := isOnCurve_iff.1 h
  have hsmooth := (WeierstrassCurve.Affine.equation_iff_nonsingular_of_Δ_ne_zero curveOverField_Δ_ne_zero).1
    (equation_of_isOnCurve h)
  refine ⟨.some x y hsmooth, ?_⟩
  rw [pointOfGroup, ZMod.val_natCast_of_lt hx, ZMod.val_natCast_of_lt hy]

/-! ### Multiples -/

/-- R204's recursion takes the multiples of the group. -/
theorem mulByAdding_pointOfGroup (k : Nat) (P : curveOverField.Point) :
    mulByAdding k (pointOfGroup P) = pointOfGroup (k • P) := by
  induction k with
  | zero => rw [zero_nsmul]; rfl
  | succ k ih => rw [mulByAdding, ih, addPoint_pointOfGroup, succ_nsmul]

/-- Double-and-add takes the multiples of the group, for a factor that fits the bits. -/
theorem mulPointBits_pointOfGroup (P : curveOverField.Point) (bits : Nat) {k : Nat} (hk : k < 2 ^ bits) :
    mulPointBits (pointOfGroup P) bits k = pointOfGroup (k • P) := by
  induction bits generalizing k with
  | zero =>
    obtain rfl : k = 0 := by simpa using hk
    rw [zero_nsmul]; rfl
  | succ bits ih =>
    have hhalf : k / 2 < 2 ^ bits := by rw [Nat.pow_succ] at hk; omega
    have htwice : dblPoint (mulPointBits (pointOfGroup P) bits (k / 2)) = pointOfGroup ((k / 2 * 2) • P) := by
      rw [ih hhalf, dblPoint, addPoint_pointOfGroup, ← two_nsmul, ← mul_nsmul]
    simp only [mulPointBits, htwice]
    split
    · rw [addPoint_pointOfGroup, ← succ_nsmul]
      congr 2
      omega
    · congr 2
      omega

end

/-- On a point of the curve the machine's double-and-add gives R204's repeated addition. -/
theorem mulPoint_eq_mulByAdding {k x y : Nat} (hk : k < 2 ^ 256) (h : isOnCurve x y = true) :
    mulPoint k (.affine x y) = mulByAdding k (.affine x y) := by
  have : Fact (Nat.Prime p) := ⟨p_prime⟩
  obtain ⟨P, hP⟩ := exists_pointOfGroup_eq_affine h
  rw [← hP, mulPoint, mulPointBits_pointOfGroup P 256 hk, mulByAdding_pointOfGroup]

end Sys2Proof.Machine
end

section
/-! PROOFS. The verification predicate (43_verify.md rule R250): the machine's inverse is the only one, and its
multiples of G and Q are repeated additions. -/

namespace Sys2Proof.Machine

open Sys2Proof.Config (n)

/-- The base point is on the curve (R6). -/
theorem isOnCurve_basePoint : isOnCurve Config.gx Config.gy = true := by decide

/-- Verify's preconditions, and its answer from the point of step 4 (R250). -/
theorem verifySig_iff (H r s Qx Qy : Nat) : verifySig H r s Qx Qy = true ↔
    1 ≤ r ∧ r ≤ n - 1 ∧ 1 ≤ s ∧ s ≤ n - 1 ∧ isOnCurve Qx Qy = true ∧
      ∃ x y, verifyPoint H r s Qx Qy = .affine x y ∧ x % n = r := by
  unfold verifySig
  split
  · next hr => exact iff_of_false Bool.false_ne_true fun ⟨hr1, hr2, _⟩ => hr ⟨hr1, hr2⟩
  · next hr =>
    split
    · next hs => exact iff_of_false Bool.false_ne_true fun ⟨_, _, hs1, hs2, _⟩ => hs ⟨hs1, hs2⟩
    · next hs =>
      split
      · next hq => simp [hq]
      · next hq =>
        obtain ⟨hr1, hr2⟩ := not_not.1 hr
        obtain ⟨hs1, hs2⟩ := not_not.1 hs
        cases verifyPoint H r s Qx Qy <;> simp [hr1, hr2, hs1, hs2, hq]

/-- The point of step 4 for a key on the curve, its multiples by repeated addition (R204, R250). -/
theorem verifyPoint_eq {Qx Qy : Nat} (h : isOnCurve Qx Qy = true) (H r s : Nat) :
    verifyPoint H r s Qx Qy =
      addPoint (mulByAdding (H % n * invMod n s % n) (.affine Config.gx Config.gy))
        (mulByAdding (r * invMod n s % n) (.affine Qx Qy)) := by
  have hfits (k : Nat) : k % n < 2 ^ 256 := (Nat.mod_lt k n_prime.pos).trans (modulus_lt .n)
  rw [← mulPoint_eq_mulByAdding (hfits _) isOnCurve_basePoint, ← mulPoint_eq_mulByAdding (hfits _) h]
  rfl

/-- The inverse of step 2 is the one residue whose product with s is 1 (R250). -/
theorem inverse_mod_n_iff {s w : Nat} (h1 : 1 ≤ s) (h2 : s ≤ n - 1) :
    1 ≤ w ∧ w < n ∧ s * w % n = 1 ↔ w = invMod n s := by
  have hlt : s < n := Nat.lt_of_le_pred n_prime.pos h2
  obtain ⟨hinvlt, hinv⟩ := invMod_spec .n s h1 hlt
  constructor
  · rintro ⟨-, hw, hmul⟩
    rw [Nat.mul_comm] at hmul hinv
    exact eq_of_mul_mod_eq (gcd_modulus .n s h1 hlt) hw hinvlt (hmul.trans hinv.symm)
  · rintro rfl
    refine ⟨Nat.pos_of_ne_zero fun h0 => ?_, hinvlt, hinv⟩
    simp [modulus, h0] at hinv

/-- Settles O58: the preconditions as they stand, and the point of step 4 from the only inverse of s. -/
theorem verifyFollowsTheSixSteps : Obligations.VerifyFollowsTheSixSteps := by
  intro H r s Qx Qy
  rw [verifySig_iff]
  refine and_congr_right fun _ => and_congr_right fun _ => and_congr_right fun hs1 => and_congr_right fun hs2 =>
    and_congr_right fun hq => ?_
  rw [verifyPoint_eq hq]
  constructor
  · rintro ⟨x, y, hpoint, hx⟩
    obtain ⟨hw1, hw2, hw⟩ := (inverse_mod_n_iff hs1 hs2).2 rfl
    exact ⟨_, x, y, hw1, hw2, hw, hpoint, hx⟩
  · rintro ⟨w, x, y, hw1, hw2, hw, hpoint, hx⟩
    obtain rfl := (inverse_mod_n_iff hs1 hs2).1 ⟨hw1, hw2, hw⟩
    exact ⟨x, y, hpoint, hx⟩

end Sys2Proof.Machine
end

section
/-! PROOFS. The two verification commands (43_verify.md section 2): their words, and the answer in the register and
in RESULT. -/

namespace Sys2Proof.Machine

/-- A verification completes with its answer in R[rd] and RESULT, and changes nothing else but STATUS (R255, R260). -/
theorem completeVerify_regResult (rd : Reg) (res : Bool) (s : State) :
    ∃ t, completeVerify rd res s = .next t ∧ RegResult s t rd res.toNat res :=
  ⟨_, rfl, regResult_finish s rd _ res ((Bool.toNat_le res).trans_lt (by decide))⟩

/-- Settles O59: the shape of the verification commands with the answer of R255. -/
theorem verifyCommandAnswersInRegisterAndResult : Obligations.VerifyCommandAnswersInRegisterAndResult := by
  intro rd s
  obtain ⟨t, ht, hres⟩ := completeVerify_regResult rd s.verifyRegs s
  exact ⟨wordsOf (.verify rd), t, s.verifyRegs, ht, hres, rfl⟩

/-! ### The fields of the blob -/

/-- Where IN_BUF holds a string, the field at the place of a 32-byte big-endian value in it reads that value (R261). -/
theorem inField_of_inBuf {s : State} {bytes pre post : List Byte} {v : Nat} (hv : v < 2 ^ 256)
    (hbytes : ∀ j, j < bytes.length → s.inByte j = bytes.getD j 0) (hsplit : bytes = pre ++ (be32 v ++ post)) :
    s.inField pre.length = v := by
  have hread : readBytes s.mem (Config.inBase + pre.length) (be32 v).length = be32 v := by
    refine readBytes_eq fun k hk => ?_
    rw [Nat.add_assoc]
    refine (hbytes (pre.length + k) ?_).trans ?_
    · rw [hsplit, List.length_append, List.length_append]
      omega
    · rw [hsplit, List.getD_append_right _ _ _ _ (Nat.le_add_right ..), Nat.add_sub_cancel_left,
        List.getD_append _ _ _ _ hk]
  rw [be32_length] at hread
  rw [State.inField, hread, beValue_be32 v hv]

/-- A length other than 160 is answered 0 (R262). -/
theorem verifyBlob_of_otherLength {s : State} (h : s.inLen.toNat ≠ 160) : s.verifyBlob = false := if_pos h

/-- The answer for a 160-byte blob of five 32-byte big-endian values (R260, R261). -/
theorem verifyBlob_of_blob {s : State} {H r q x y : Nat} (hlen : s.inLen.toNat = 160) (hH : H < 2 ^ 256)
    (hr : r < 2 ^ 256) (hq : q < 2 ^ 256) (hx : x < 2 ^ 256) (hy : y < 2 ^ 256)
    (h : ∀ j, j < 160 → s.inByte j = (be32 H ++ be32 r ++ be32 q ++ be32 x ++ be32 y).getD j 0) :
    s.verifyBlob = verifySig H r q x y := by
  have hfield {v : Nat} (hv : v < 2 ^ 256) (pre post : List Byte)
      (hsplit : be32 H ++ be32 r ++ be32 q ++ be32 x ++ be32 y = pre ++ (be32 v ++ post)) :
      s.inField pre.length = v :=
    inField_of_inBuf hv (by simpa using h) hsplit
  have h0 : s.inField 0 = H := hfield hH [] (be32 r ++ be32 q ++ be32 x ++ be32 y) (by simp)
  have h32 : s.inField 32 = r := by
    simpa using hfield hr (be32 H) (be32 q ++ be32 x ++ be32 y) (by simp)
  have h64 : s.inField 64 = q := by
    simpa using hfield hq (be32 H ++ be32 r) (be32 x ++ be32 y) (by simp)
  have h96 : s.inField 96 = x := by
    simpa using hfield hx (be32 H ++ be32 r ++ be32 q) (be32 y) (by simp)
  have h128 : s.inField 128 = y := by
    simpa using hfield hy (be32 H ++ be32 r ++ be32 q ++ be32 x) [] (by simp)
  rw [State.verifyBlob, if_neg (not_not.2 hlen), h0, h32, h64, h96, h128]

/-- Settles O60: the shape of the verification commands, with the answer 0 for another length and otherwise that of the
blob's five fields. -/
theorem verifyabiReadsTheBlob : Obligations.VerifyabiReadsTheBlob := by
  intro rd s
  obtain ⟨t, ht, hres⟩ := completeVerify_regResult rd s.verifyBlob s
  exact ⟨wordsOf (.verifyabi rd), t, s.verifyBlob, ht, hres, verifyBlob_of_otherLength,
    fun _ _ _ _ _ => verifyBlob_of_blob⟩

end Sys2Proof.Machine
end

section
/-! PROOFS. Completions, errors and the interrupt line (60_exceptions.md): words that encode no command, STATUS after a
command, the commands with no error of their own, ERR_POINT, and irq over one step. -/

namespace Sys2Proof

/-! ### Words that encode no command -/

/-- Every opcode lies outside the illegal values that R101 lists. -/
theorem Opcode.value_listed (o : Opcode) : (0x01 ≤ o.value ∧ o.value ≤ 0x07) ∨ (0x10 ≤ o.value ∧ o.value ≤ 0x15) ∨
    (0x20 ≤ o.value ∧ o.value ≤ 0x21) ∨ (0x30 ≤ o.value ∧ o.value ≤ 0x31) := by
  cases o <;> decide

namespace Machine

/-- Settles O6: a word that decodes to a command has none of the listed faults; any other completes with ERR_ILLEGAL. -/
theorem illegalWordCompletesWithErrIllegal : Obligations.IllegalWordCompletesWithErrIllegal := by
  intro s w hbad
  cases hd : decode w with
  | illegal why => exact step_placeCommand_illegal hd
  | command i =>
    exfalso
    obtain ⟨hreserved, o, ho, hchecks, -⟩ := decode_command hd
    rcases hbad with hbit | hop | ⟨o', f, ho', hfield⟩
    · exact hbit hreserved
    · have := o.value_listed
      omega
    · obtain rfl : o' = o := Opcode.value_injective (ho'.trans ho.symm)
      obtain ⟨hzero, hpair⟩ := checkFields_none.1 hchecks f
      exact hfield.elim hzero hpair

/-! ### STATUS after a command -/

/-- Settles O32, by the inversion of exec: an error is one `finish`, and every other end of a command is a result written
before its `finish`. -/
theorem completionSetsStatus : Obligations.CompletionSetsStatus := by
  intro i s t h
  rcases exec_inversion h with ⟨c, hc, rfl⟩ | ⟨rd, v, res, rfl, -, -, hres⟩ | ⟨prd, q, rfl, -⟩ | ⟨bytes, rfl, -⟩ |
    ⟨prd, q, bytes, rfl, -⟩
  case inl => exact ⟨fun _ => rfl, fun hok => absurd hok hc⟩
  all_goals
    refine ⟨fun herr => absurd rfl herr, fun _ => ⟨⟨rfl, rfl, rfl, rfl, ⟨rfl, rfl, rfl, rfl, rfl, rfl, rfl, rfl⟩⟩, ?_⟩⟩
  case inr.inl => exact hres
  all_goals exact fun _ => rfl

/-! ### The commands with no error of their own -/

/-- A command that completes whenever its pairs are legal has ERR_ILLEGAL as its only error (R94, R301). -/
theorem withPairs_complete_err (pairs : List Reg) (res : Bool) (s u : State) :
    ∃ t, withPairs pairs s (complete res u) = .next t ∧ t.err = if pairs.all Reg.pairLegal then .ok else .illegal := by
  cases hp : pairs.all Reg.pairLegal with
  | true => exact ⟨_, withPairs_legal hp s _, rfl⟩
  | false => exact ⟨_, withPairs_illegal hp s _, rfl⟩

/-- Settles O33: each command is a completion, behind the check of its pairs where it has one. -/
theorem commandsThatRaiseOnlyErrIllegal : Obligations.CommandsThatRaiseOnlyErrIllegal := by
  intro s rd r1 r2 m k i hi
  simp only [List.mem_cons, List.not_mem_nil, or_false] at hi
  rcases hi with rfl | rfl | rfl | rfl | rfl | rfl | rfl | rfl
  case inr.inr.inl => exact withPairs_complete_err [r1] _ s _
  case inr.inr.inr.inl => exact withPairs_complete_err [r1] _ s _
  all_goals exact ⟨_, rfl, rfl⟩

/-! ### ERR_POINT -/

/-- A pair that is neither (0, 0) nor on the curve fails the check of R202. -/
theorem validPt_eq_false {xy : Nat × Nat} (h : ¬(xy = (0, 0) ∨ isOnCurve xy.1 xy.2 = true)) : validPt xy = false := by
  simpa [validPt] using h

theorem exec_pmul {rd r1 : Reg} (hd : rd ≠ 7) (h1 : r1 ≠ 7) (r2 : Reg) (s : State) :
    exec (.pmul rd r1 r2) s =
      if validPt (s.pairVal r1) = false then raise .point s
      else complete false (s.setPairVal rd (pairOfPoint (mulPoint (s.regVal r2) (pointOfPair (s.pairVal r1))))) :=
  withPairs_of_ne_seven (by simp [hd, h1]) s _

/-- Settles O49: the three commands that check their operands, by the check of each; the four others raise nothing but
ERR_ILLEGAL. -/
theorem invalidPointOperandIsErrPoint : Obligations.InvalidPointOperandIsErrPoint := by
  refine ⟨fun rd r1 r2 s hd h1 => ⟨fun h2 hbad => ?_, fun hbad => ⟨?_, ?_⟩⟩, fun rd r1 s t i hi h => ?_⟩
  · rw [exec_padd hd h1 h2, if_pos (hbad.imp validPt_eq_false validPt_eq_false), raise_eq]
  · rw [exec_pdbl hd h1, if_pos (validPt_eq_false hbad), raise_eq]
  · rw [exec_pmul hd h1, if_pos (validPt_eq_false hbad), raise_eq]
  · have hmem : i ∈ [Instr.mred rd r1 .p, .ldc rd .p, .pvalid rd r1, .compress r1, .derint r1, .dersig r1 r1,
        .verify rd, .verifyabi rd] := by
      simp only [List.mem_cons, List.not_mem_nil, or_false] at hi
      rcases hi with rfl | rfl | rfl | rfl <;> simp
    obtain ⟨t', ht', herr⟩ := commandsThatRaiseOnlyErrIllegal s rd r1 r1 .p .p i hmem
    obtain rfl : t' = t := Host.Outcome.next.inj (ht'.symm.trans h)
    rw [herr]
    split <;> decide

/-! ### The interrupt line -/

/-- irq is high exactly when IE and DONE are (R310). -/
theorem irq_iff {s : State} : s.irq = true ↔ s.ie = true ∧ s.done = true := Bool.and_eq_true_iff

/-- irq depends on STATUS and CTRL alone (R310). -/
theorem SameFlags.irq {s t : State} (h : SameFlags s t) : t.irq = s.irq := by
  simp only [State.irq, h.ie, h.done]

@[simp] theorem irq_finish (s : State) (code : ErrCode) (res : Bool) : (s.finish code res).irq = s.ie :=
  Bool.and_true s.ie

@[simp] theorem irq_accept (s : State) (w : Word) : (s.accept w).irq = false := Bool.and_false s.ie

@[simp] theorem irq_clearStatus (s : State) (v : Word) : (s.clearStatus v).irq = (s.irq && !v.getLsbD 1) :=
  (Bool.and_assoc s.ie s.done _).symm

@[simp] theorem irq_setIe (s : State) (on : Bool) : (s.setIe on).irq = (on && s.done) := rfl

/-- Settles O23: irq after each effect of a step. -/
theorem irqRisesAndFallsAtItsEvents : Obligations.IrqRisesAndFallsAtItsEvents := by
  refine ⟨fun s => irq_iff, fun s t h => ⟨fun h1 h0 => ?falls, fun h0 h1 => ?rises, fun hc => ?completes⟩⟩
  case falls =>
    obtain ⟨hie, hdone⟩ := irq_iff.1 h1
    cases step_effect h with
    | clearsStatus v hw ht =>
      rw [ht.irq, irq_clearStatus, h1] at h0
      exact .inl ⟨v, by simpa using h0, hw⟩
    | accepts w hb hw _ => exact .inr (.inl ⟨hb, w, hw⟩)
    | setsIe v _ hw ht =>
      rw [ht.irq, irq_setIe, hdone] at h0
      exact .inr (.inr (.inl ⟨v, by simpa using h0, hw⟩))
    | resets hr _ => exact .inr (.inr (.inr hr))
    | completes code res _ ht =>
      rw [ht.irq, irq_finish, hie] at h0
      cases h0
    | dropsWrite _ _ _ _ _ ht | keepsFlags ht => exact absurd (h0.symm.trans (ht.irq.trans h1)) Bool.false_ne_true
  case rises =>
    cases step_effect h with
    | completes code res hc ht =>
      rw [ht.irq, irq_finish] at h1
      exact .inl ⟨hc, h1⟩
    | setsIe v hsrst hw ht =>
      rw [ht.irq, irq_setIe, Bool.and_eq_true_iff] at h1
      obtain ⟨hie, hdone⟩ := h1
      exact .inr ⟨v, hie, hsrst, hw, hdone⟩
    | accepts w _ _ ht =>
      rw [ht.irq, irq_accept] at h1
      cases h1
    | clearsStatus v _ ht =>
      rw [ht.irq, irq_clearStatus, h0] at h1
      cases h1
    | resets _ ht => exact absurd (ht.irq.symm.trans h1) Bool.false_ne_true
    | dropsWrite _ _ _ _ _ ht | keepsFlags ht =>
      exact absurd (h0.symm.trans (ht.irq.symm.trans h1)) Bool.false_ne_true
  case completes =>
    obtain ⟨code, res, ht⟩ := flags_of_completesNext h hc
    rw [ht.irq, irq_finish]

end Machine

end Sys2Proof
end

section
/-! PROOFS. The two resets (70_reset_and_hazards.md): the table of reset values says nothing of the block's environment
(rst_n, the bus outputs, the coming events), and a reset leaves the reset state in some environment. -/

namespace Sys2Proof.Machine

theorem HoldsResetValues.busy {s : State} (h : HoldsResetValues s) : s.busy = false := by
  have hbit := getLsbD_statusWord s 0
  rw [h.status, if_pos rfl] at hbit
  exact hbit.symm.trans BitVec.getLsbD_zero

/-- The reset input, the bus outputs and the coming events are not of the table of 10_state.md section 6. -/
theorem HoldsResetValues.withEnvironment {s : State} (h : HoldsResetValues s) (rstN : Bool) (prdata : Word)
    (pslverr : Bool) (inputs : List HostEvent) :
    HoldsResetValues { s with rstN := rstN, prdata := prdata, pslverr := pslverr, inputs := inputs } where
  regs := h.regs
  inBuf := h.inBuf
  outBuf := h.outBuf
  inLen := h.inLen
  outLen := h.outLen
  ctrl := h.ctrl
  status := h.status
  cmd := h.cmd
  idle := by simp [State.inFlight, h.busy]
  irq := h.irq

/-- Settles O10: each item of the table at the reset state. -/
theorem resetStateHoldsResetValues : Obligations.ResetStateHoldsResetValues where
  regs i := by simp [State.regVal]
  inBuf _ _ := rfl
  outBuf _ _ := rfl
  inLen := rfl
  outLen := rfl
  ctrl := rfl
  status := rfl
  cmd := rfl
  idle := rfl
  irq := rfl

theorem holdsResetValues_resetBlock (s : State) : HoldsResetValues s.resetBlock :=
  resetStateHoldsResetValues.withEnvironment s.rstN s.prdata s.pslverr s.inputs

theorem holdsResetValues_assertReset (s : State) : HoldsResetValues s.assertReset :=
  resetStateHoldsResetValues.withEnvironment false s.prdata s.pslverr s.inputs

/-- While rst_n is low nothing that can happen changes a reset value (R330). -/
theorem HoldsResetValues.step_low {s t : State} (h : HoldsResetValues s) (hr : s.rstN = false)
    (hstep : step s = .next t) : HoldsResetValues t := by
  have hdropped (rest : List HostEvent) : HoldsResetValues (s.setInputs rest) :=
    h.withEnvironment s.rstN s.prdata s.pslverr rest
  cases hin : s.inputs with
  | nil =>
    rw [step_nil hin, completionStep_idle h.idle] at hstep
    cases hstep
    exact h
  | cons e rest =>
    cases e with
    | read off =>
      rw [step_read_low hr hin] at hstep
      cases hstep
      exact hdropped rest
    | write off v =>
      rw [step_write_low hr hin] at hstep
      cases hstep
      exact hdropped rest
    | complete =>
      rw [step_complete_idle h.idle hin] at hstep
      cases hstep
      exact hdropped rest
    | rstLow =>
      rw [step_rstLow hin] at hstep
      cases hstep
      exact holdsResetValues_assertReset _
    | rstHigh =>
      rw [step_rstHigh hin] at hstep
      cases hstep
      exact h.withEnvironment true s.prdata s.pslverr rest

/-- LDC loads its constant from every state (R160). -/
theorem exec_ldc_regVal (rd : Reg) (k : ConstName) (s : State) :
    ∃ t, exec (.ldc rd k) s = .next t ∧ t.regVal rd = constStore k := by
  obtain ⟨-, hval, -⟩ := regResult_finish s rd (constStore k) false (constStore_lt k)
  exact ⟨_, rfl, hval⟩

/-- Settles O11: the fall of rst_n, a transfer while it is low, a step from held reset values, and its rise. -/
theorem resetInputForcesResetValues : Obligations.ResetInputForcesResetValues := by
  refine ⟨fun s rest hin => ?falls, fun s e rest hr hin he => ?blocked, fun s t hr h => h.step_low hr,
    fun s rest hin => step_rstHigh hin⟩
  case falls =>
    exact ⟨_, step_rstLow hin, holdsResetValues_assertReset _, rfl, rfl, rfl, fun rd k => exec_ldc_regVal rd k _⟩
  case blocked =>
    rcases he with ⟨off, rfl⟩ | ⟨off, v, rfl⟩
    · exact step_read_low hr hin
    · exact step_write_low hr hin

/-- Settles O13: the write as a served write to CTRL; BUSY by the events that clear it. -/
theorem softResetForcesResetValues : Obligations.SoftResetForcesResetValues := by
  refine ⟨fun s v h1 hw => ?reset, fun s => getLsbD_ctrlWord s 1, fun s t h hb hb' hfall => ?ends⟩
  case reset =>
    obtain ⟨hr, rest, hin⟩ := hw
    rw [step_writeCtrl hr hin, writeCtrl_softReset h1]
    exact ⟨_, rfl, (holdsResetValues_resetBlock _).withEnvironment s.rstN s.prdata false rest, rfl, rfl, rfl⟩
  case ends =>
    obtain ⟨-, -, -, -, hends⟩ := busyChangesOnlyAtItsEvents s t h
    rcases hends hb hb' with hc | ⟨rest, hin⟩ | hsoft
    · exact .inl hc
    · exact absurd hin (hfall rest)
    · exact .inr hsoft

end Sys2Proof.Machine
end

section
/-! PROOFS. The decoder against the encoder and the opcode table (30_encoding.md): a command's fields, the bits a row
fixes, and the two round trips. -/

namespace Sys2Proof

/-! ### The fields of a command -/

/-- An opcode with the fields of a command of it builds that command (R100). -/
theorem Instr.build_fields (i : Instr) : i.opcode.build i.fields = i := by
  have hm : ∀ m : Modulus, modulusOfBit m.bit = m := by intro m; cases m <;> rfl
  have hv : ∀ v : InvMethod, methodOfBit v.bit = v := by intro v; cases v <;> rfl
  have hk : ∀ k : ConstName, constOfIndex k.index = k := by intro k; cases k <;> rfl
  cases i <;> simp only [Instr.opcode, Instr.fields, Opcode.build, hm, hv, hk]

/-- A command holds 0 in a field its opcode does not use (R99). -/
theorem Instr.value_of_usage_zero (i : Instr) (f : Field) : i.opcode.usage f = .zero → i.fields.value f = 0 := by
  cases i <;> cases f <;> simp [Instr.opcode, Opcode.usage, Instr.fields, Fields.value]

theorem Field.forall_iff {P : Field → Prop} : (∀ f, P f) ↔ P .rd ∧ P .rs1 ∧ P .rs2 ∧ P .m ∧ P .v :=
  ⟨fun h => ⟨h _, h _, h _, h _, h _⟩, fun ⟨hd, h1, h2, hm, hv⟩ f => by cases f <;> assumption⟩

/-- A command is well formed when no field of usage `pr` holds 7 (R94). -/
theorem Instr.wf_iff (i : Instr) : i.wf = true ↔ ∀ f, i.opcode.usage f = .pr → i.fields.value f ≠ 7 := by
  have hseven (r : Reg) : r.pairLegal = true ↔ r.val ≠ 7 := by simp [Reg.pairLegal, Fin.ext_iff]
  cases i <;>
    simp [Field.forall_iff, Instr.wf, Instr.pairs, hseven, Instr.opcode, Opcode.usage, Instr.fields, Fields.value]

/-- The fields of a command pass the checks of R102 exactly when it is well formed. -/
theorem Instr.checkFields_fields_iff (i : Instr) : checkFields i.opcode i.fields = none ↔ i.wf = true := by
  rw [checkFields_none, i.wf_iff]
  refine forall_congr' fun f => ?_
  have hzero : ¬(i.opcode.usage f = .zero ∧ i.fields.value f ≠ 0) := fun ⟨hu, hne⟩ =>
    hne (i.value_of_usage_zero f hu)
  rw [and_iff_right hzero, not_and]

/-! ### The two round trips -/

/-- Settles O2: the word holds the opcode and the fields, the fields pass the checks, and they build the command. -/
theorem decodeInvertsEncode : Obligations.DecodeInvertsEncode := by
  intro i hwf
  obtain ⟨hreserved, hop, hfields⟩ := packWord_bits i.opcode.value i.fields i.opcode.value_lt
  have hdecode := decode_of_checks (w := encode i) hreserved hop.symm (by
    rw [encode, hfields]; exact i.checkFields_fields_iff.2 hwf)
  rwa [encode, hfields, i.build_fields] at hdecode

/-- Settles O3: an accepted word's fields are its command's, and they passed the checks. -/
theorem encodeInvertsDecode : Obligations.EncodeInvertsDecode := by
  intro w i h
  obtain ⟨henc, -, hchecks⟩ := encode_of_decode h
  obtain ⟨-, -, hfields⟩ := packWord_bits i.opcode.value i.fields i.opcode.value_lt
  refine ⟨i.checkFields_fields_iff.1 ?_, henc⟩
  rwa [← henc, encode, hfields] at hchecks

/-- Settles O1: the decoder evaluated on each word. -/
theorem writtenOutWordsDecode : Obligations.WrittenOutWordsDecode := by
  unfold Obligations.WrittenOutWordsDecode
  decide

/-! ### The rows of the opcode table -/

/-- The highest and the lowest bit of a field (R92). -/
def Field.bits : Field → Nat × Nat
  | .rd => (10, 8)
  | .rs1 => (13, 11)
  | .rs2 => (16, 14)
  | .m => (17, 17)
  | .v => (18, 18)

theorem value_fieldsOf (w : Word) (f : Field) : (fieldsOf w).value f = bitField w f.bits.1 f.bits.2 := by
  have hbit : ∀ x, x < 2 → (x == 1).toNat = x := by decide
  cases f with
  | rd | rs1 | rs2 => exact Nat.mod_mod _ _
  | m | v => exact hbit _ (Nat.mod_lt _ (by decide))

/-- All bits `hi` down to `lo` are fixed by a row. -/
def TableRow.covers (r : TableRow) (hi lo : Nat) : Prop := r.mask / 2 ^ lo % 2 ^ (hi - lo + 1) = 2 ^ (hi - lo + 1) - 1

/-- In a word that fits a row the bits that the row fixes are those of its match. -/
theorem bitField_of_fits {r : TableRow} {w : Word} {hi lo : Nat} (hfits : r.fits w = true) (hc : r.covers hi lo) :
    bitField w hi lo = r.value / 2 ^ lo % 2 ^ (hi - lo + 1) := by
  have hand : w.toNat &&& r.mask = r.value := by simpa [TableRow.fits] using hfits
  unfold TableRow.covers at hc
  rw [← hand, Nat.and_div_two_pow, Nat.and_mod_two_pow, hc, Nat.and_two_pow_sub_one_eq_mod, Nat.mod_mod]
  rfl

/-- A row fixes the reserved bits, the opcode and every field of usage `0`, each to its value (R100). -/
theorem Opcode.row_covers (o : Opcode) : o.row.covers 31 19 ∧ o.row.covers 7 0 ∧
    ∀ f, o.usage f = .zero → o.row.covers f.bits.1 f.bits.2 ∧
      o.row.value / 2 ^ f.bits.2 % 2 ^ (f.bits.1 - f.bits.2 + 1) = 0 := by
  rw [Field.forall_iff]
  unfold TableRow.covers
  cases o <;> decide

theorem Opcode.row_value (o : Opcode) : o.row.value / 2 ^ 19 % 2 ^ (31 - 19 + 1) = 0 ∧
    o.row.value / 2 ^ 0 % 2 ^ (7 - 0 + 1) = o.value := by
  cases o <;> decide

/-- A word that fits a row has clear reserved bits, the row's opcode, and 0 in every field of usage `0` (R98, R99). -/
theorem checks_of_fits {o : Opcode} {w : Word} (h : o.row.fits w = true) :
    bitField w 31 19 = 0 ∧ o.value = bitField w 7 0 ∧ ∀ f, o.usage f = .zero → (fieldsOf w).value f = 0 := by
  obtain ⟨hres, hop, hzero⟩ := o.row_covers
  obtain ⟨hvres, hvop⟩ := o.row_value
  refine ⟨(bitField_of_fits h hres).trans hvres, ((bitField_of_fits h hop).trans hvop).symm, fun f hu => ?_⟩
  obtain ⟨hcovers, hvalue⟩ := hzero f hu
  rw [value_fieldsOf, bitField_of_fits h hcovers, hvalue]

/-- Settles O4: an accepted word is its command's, which fits the row; a word that fits a row passes every check. -/
theorem decoderAcceptsExactlyTheTable : Obligations.DecoderAcceptsExactlyTheTable := by
  intro w
  constructor
  · rintro ⟨i, h⟩
    obtain ⟨henc, -, hchecks⟩ := encode_of_decode h
    refine ⟨i.opcode, by rw [← henc, TableRow.fits, encode_fits, beq_self_eq_true], fun f hu h7 => ?_⟩
    exact (checkFields_none.1 hchecks f).2 ⟨hu, h7⟩
  · rintro ⟨o, hfits, hpairs⟩
    obtain ⟨hreserved, hop, hzero⟩ := checks_of_fits hfits
    exact ⟨_, decode_of_checks hreserved hop (checkFields_none.2 fun f =>
      ⟨fun ⟨hu, hne⟩ => hne (hzero f hu), fun ⟨hu, h7⟩ => hpairs f hu h7⟩)⟩

end Sys2Proof
end

section
/-! PROOFS. What every command, every step and every run answers: a next state, and what a command leaves as it was
(60_exceptions.md R296, R302; 10_state.md). -/

namespace Sys2Proof.Machine

/-! ### A next state -/

/-- Every command answers a next state: no fault and no refusal (R296, R302). -/
theorem exec_next (i : Instr) (s : State) : ∃ t, exec i s = .next t := by
  have hsame : SameInputs s s := ⟨rfl, rfl, fun _ _ => rfl⟩
  obtain ⟨e, -, he, -⟩ := hsame.exec_alike i
  exact ⟨_, he⟩

theorem completeInFlight_next (s : State) : ∃ t, completeInFlight s = .next t := by
  cases hd : decode s.cmd with
  | command i =>
    rw [completeInFlight_command hd]
    exact exec_next i s
  | illegal why => exact ⟨_, completeInFlight_illegal hd⟩

theorem completionStep_next (s : State) : ∃ t, completionStep s = .next t := by
  cases hf : s.inFlight with
  | true =>
    rw [completionStep_inFlight hf]
    exact completeInFlight_next s
  | false => exact ⟨_, completionStep_idle hf⟩

theorem eventStep_next (e : HostEvent) (s : State) : ∃ t, eventStep e s = .next t := by
  cases e with
  | complete => exact completionStep_next s
  | read | write | rstLow | rstHigh => exact ⟨_, rfl⟩

theorem step_next (s : State) : ∃ t, step s = .next t := by
  cases hin : s.inputs with
  | nil =>
    rw [step_nil hin]
    exact completionStep_next s
  | cons e rest =>
    rw [step_cons hin]
    exact eventStep_next e _

/-! ### Runs, step after step -/

@[simp] theorem run_zero (s : State) : Host.Core.run Sys2Proof.core 0 s = .next s := rfl

theorem run_succ_of_core {M : Host.Core} {s t : M.State} (h : M.step s = .next t) (k : Nat) :
    M.run (k + 1) s = M.run k t := by
  rw [Host.Core.run, h]

/-- A run takes its first step, then goes on. -/
theorem run_succ {s t : State} (h : step s = .next t) (k : Nat) :
    Host.Core.run Sys2Proof.core (k + 1) s = Host.Core.run Sys2Proof.core k t :=
  run_succ_of_core (M := Sys2Proof.core) h k

/-- A run goes on from where a shorter one ends. -/
theorem run_add {j : Nat} {s t : State} (h : Host.Core.run Sys2Proof.core j s = .next t) (k : Nat) :
    Host.Core.run Sys2Proof.core (j + k) s = Host.Core.run Sys2Proof.core k t := by
  induction j generalizing s with
  | zero =>
    cases h
    rw [Nat.zero_add]
  | succ j ih =>
    obtain ⟨u, hu⟩ := step_next s
    rw [run_succ hu] at h
    rw [Nat.add_right_comm, run_succ hu, ih h]

/-- Settles O9: a step answers a next state, so by induction a run does. -/
theorem everyRunGoesOn : Obligations.EveryRunGoesOn := by
  intro k
  induction k with
  | zero => exact fun s => ⟨s, rfl⟩
  | succ k ih =>
    intro s
    obtain ⟨t, ht⟩ := step_next s
    rw [run_succ ht]
    exact ih t

/-! ### Steps at a completion -/

/-- Settles O8: the place of a completion with a command in flight, after the acceptance of a placed word, and with none
in flight. -/
theorem stepRunsTheDecodedCommand : Obligations.StepRunsTheDecodedCommand := by
  refine ⟨fun s i hb hr hd => ?inFlight, fun s nbits w i hd => ?placed, fun s hf => ?idle⟩
  case inFlight =>
    have hf : s.inFlight = true := by simp [State.inFlight, hb, hr]
    refine ⟨fun hin => ?_, fun rest hin => ?_⟩
    · rw [step_nil hin, completionStep_inFlight hf, completeInFlight_command hd]
    · rw [step_complete hf hin]
      exact completeInFlight_command (s := s.setInputs rest) hd
  case placed =>
    have hdecode : decode (tableWord nbits w) = .command i := by
      unfold decodeTableWord at hd
      split at hd <;> cases hd
      assumption
    rw [step_complete (s := s.withFetchWord nbits w) (rest := s.inputs) rfl rfl]
    exact completeInFlight_command (s := (s.withFetchWord nbits w).setInputs s.inputs) hdecode
  case idle =>
    exact ⟨fun hin => by rw [step_nil hin, completionStep_idle hf], fun rest hin => step_complete_idle hf hin⟩

/-- Settles O12: the reset leaves no command in flight, so the completion after it does nothing. -/
theorem resetAbortsTheCommand : Obligations.ResetAbortsTheCommand := by
  intro s rest hin
  refine ⟨(s.setInputs rest).assertReset, ?_, holdsResetValues_assertReset _, rfl, rfl⟩
  rw [run_succ (step_rstLow hin), run_succ (step_complete_idle (rest := rest) rfl rfl)]
  rfl

/-! ### The frame of a command -/

/-- Settles O7: a command with no pairs is well formed; every other checks its pairs first. -/
theorem illFormedPairCompletesWithErrIllegal : Obligations.IllFormedPairCompletesWithErrIllegal := by
  intro i s hwf
  cases i with
  | madd | msub | mmul | montmul | minv | mred | ldc | derint | dersig | verify | verifyabi => cases hwf
  | pvalid | padd | pdbl | pmul | decomp | compress => exact withPairs_illegal hwf s _

theorem regsKeptBut_setRegVal (s : State) (rd : Reg) (v : Nat) : RegsKeptBut s (s.setRegVal rd v) [rd] := by
  intro i hi
  rw [State.reg_setRegVal, if_neg]
  rintro rfl
  exact hi (List.mem_singleton_self _)

theorem regsKeptBut_setPairVal (s : State) (prd : Reg) (q : Nat × Nat) :
    RegsKeptBut s (s.setPairVal prd q) [prd, pairSecond prd] := by
  intro i hi
  simp only [List.mem_cons, List.not_mem_nil, or_false, not_or] at hi
  obtain ⟨h1, h2⟩ := hi
  exact State.reg_setPairVal_other s prd i q (Ne.symm h1) (Ne.symm h2)

/-- What no command changes (R22, R23, R28, R33, R35). -/
theorem exec_sameSurroundings {i : Instr} {s t : State} (h : exec i s = .next t) : SameSurroundings s t := by
  rcases exec_inversion h with ⟨c, -, rfl⟩ | ⟨rd, v, res, rfl, -⟩ | ⟨prd, q, rfl, -⟩ | ⟨bytes, rfl, -⟩ |
    ⟨prd, q, bytes, rfl, -⟩
  all_goals exact ⟨rfl, rfl, rfl, rfl, rfl, rfl, rfl, rfl⟩

/-- A command writes no register but its destinations (R20). -/
theorem exec_regsKeptBut {i : Instr} {s t : State} (h : exec i s = .next t) : RegsKeptBut s t (destinations i) := by
  rcases exec_inversion h with ⟨c, -, rfl⟩ | ⟨rd, v, res, rfl, hd, -⟩ | ⟨prd, q, rfl, hd, -⟩ | ⟨bytes, rfl, -⟩ |
    ⟨prd, q, bytes, rfl, hd, -⟩
  · exact fun _ _ => rfl
  · exact hd ▸ regsKeptBut_setRegVal s rd v
  · exact hd ▸ regsKeptBut_setPairVal s prd q
  · exact fun _ _ => rfl
  · exact hd ▸ regsKeptBut_setPairVal s prd q

/-- A command that writes no output leaves OUT_LEN and the memory (R39). -/
theorem exec_outKept {i : Instr} {s t : State} (h : exec i s = .next t) (hout : writesOut i = false) :
    t.outLen = s.outLen ∧ t.mem = s.mem := by
  rcases exec_inversion h with ⟨c, -, rfl⟩ | ⟨rd, v, res, rfl, -⟩ | ⟨prd, q, rfl, -⟩ | ⟨bytes, rfl, -, hwrites, -⟩ |
    ⟨prd, q, bytes, rfl, -, hwrites, -⟩
  case inr.inr.inr.inl | inr.inr.inr.inr => exact absurd (hout.symm.trans hwrites) Bool.false_ne_true
  all_goals exact ⟨rfl, rfl⟩

/-- No command writes a byte outside OUT_BUF (R22). -/
theorem exec_memKeptOutsideOut {i : Instr} {s t : State} (hwf : s.mem.wf = true) (h : exec i s = .next t) :
    MemKeptOutsideOut s t := by
  rcases exec_inversion h with ⟨c, -, rfl⟩ | ⟨rd, v, res, rfl, -⟩ | ⟨prd, q, rfl, -⟩ | ⟨bytes, rfl, -⟩ |
    ⟨prd, q, bytes, rfl, -⟩
  case inr.inr.inr.inl => exact fun addr hout => s.readByte_setOut_other bytes addr hout hwf
  case inr.inr.inr.inr => exact fun addr hout => (s.setPairVal prd q).readByte_setOut_other bytes addr hout hwf
  all_goals exact fun _ _ => rfl

/-- Settles O31: the four parts of the frame. -/
theorem commandsWriteOnlyTheirDestinations : Obligations.CommandsWriteOnlyTheirDestinations := by
  intro i s t hwf h
  refine ⟨exec_regsKeptBut h, exec_sameSurroundings h, exec_memKeptOutsideOut hwf h, fun hout => ?_⟩
  obtain ⟨hlen, hmem⟩ := exec_outKept h hout
  exact ⟨hlen, fun addr => by rw [hmem]⟩

end Sys2Proof.Machine
end

section
/-! PROOFS. The invariant of the block: it holds at reset, and every operation on the state keeps it, so every step
does. -/

namespace Sys2Proof.Machine

/-- Settles O14: each part at the reset state. -/
theorem invariantHoldsAtReset : Obligations.InvariantHoldsAtReset where
  memWf := rfl
  memInBuffers := rfl
  busyCleared h := absurd h Bool.false_ne_true
  resultOk _ := rfl
  outLenRange := .inl rfl
  outZeroAfter _ _ _ := rfl
  heldInReset h := absurd h.symm Bool.false_ne_true

/-- The reset values meet the invariant whatever rst_n, the bus outputs and the coming events are. -/
theorem inv_reset_withEnvironment (rstN : Bool) (prdata : Word) (pslverr : Bool) (inputs : List HostEvent) :
    State.Inv { State.reset with rstN := rstN, prdata := prdata, pslverr := pslverr, inputs := inputs } :=
  { invariantHoldsAtReset with heldInReset := fun _ => rfl }

/-- The state with other bus outputs and other coming events. -/
def State.withEnvironment (s : State) (prdata : Word) (pslverr : Bool) (inputs : List HostEvent) : State :=
  { s with prdata := prdata, pslverr := pslverr, inputs := inputs }

section
variable {s : State} (hI : s.Inv)
include hI

/-- The bus outputs and the coming events are not of the invariant. -/
theorem State.Inv.withEnvironment (prdata : Word) (pslverr : Bool) (inputs : List HostEvent) :
    (s.withEnvironment prdata pslverr inputs).Inv where
  memWf := hI.memWf
  memInBuffers := hI.memInBuffers
  busyCleared := hI.busyCleared
  resultOk := hI.resultOk
  outLenRange := hI.outLenRange
  outZeroAfter := hI.outZeroAfter
  heldInReset hr := congrArg (State.withEnvironment · prdata pslverr inputs) (hI.heldInReset hr)

/-- With rst_n high the invariant speaks only of the memory, OUT_LEN and STATUS. -/
theorem State.Inv.of_memory_kept {t : State} (hr : t.rstN = true) (hmem : t.mem = s.mem) (hlen : t.outLen = s.outLen)
    (hbusy : t.busy = true → t.done = false ∧ t.result = false ∧ t.err = .ok)
    (hresult : t.result = true → t.err = .ok) : t.Inv where
  memWf := hmem ▸ hI.memWf
  memInBuffers := hmem ▸ hI.memInBuffers
  busyCleared := hbusy
  resultOk := hresult
  outLenRange := hlen ▸ hI.outLenRange
  outZeroAfter j h1 h2 := by
    rw [State.outByte, hmem]
    exact hI.outZeroAfter j (hlen ▸ h1) h2
  heldInReset h := absurd (hr.symm.trans h) Bool.noConfusion

/-- A bus word written to IN_BUF (R68). -/
theorem State.Inv.writeInBuf (hr : s.rstN = true) {addr : Nat} (v : Word) (h1 : Config.inBase ≤ addr)
    (h2 : addr + 4 ≤ Config.inBase + Config.inSize) :
    State.Inv { s with mem := writeBytes s.mem addr (bytesOfWord v) } where
  memWf := wf_writeBytes _ _ hI.memWf
  memInBuffers := inBuffers_writeWord v h1 h2 hI.memInBuffers
  busyCleared := hI.busyCleared
  resultOk := hI.resultOk
  outLenRange := hI.outLenRange
  outZeroAfter j hj hsize := by
    have hbelow : Config.inBase + Config.inSize ≤ Config.outBase := by decide
    obtain ⟨-, hother⟩ := readByte_writeWord hI.memWf addr v
    exact (hother _ (.inr (by omega))).trans (hI.outZeroAfter j hj hsize)
  heldInReset h := absurd (hr.symm.trans h) Bool.noConfusion

/-! ### Commands -/

theorem State.Inv.finish (hr : s.rstN = true) {code : ErrCode} {res : Bool} (hres : res = true → code = .ok) :
    (s.finish code res).Inv :=
  hI.of_memory_kept hr rfl rfl (fun hb => absurd hb Bool.false_ne_true) hres

theorem State.Inv.setRegVal (hr : s.rstN = true) (rd : Reg) (v : Nat) : (s.setRegVal rd v).Inv :=
  hI.of_memory_kept hr rfl rfl hI.busyCleared hI.resultOk

theorem State.Inv.setPairVal (hr : s.rstN = true) (prd : Reg) (q : Nat × Nat) : (s.setPairVal prd q).Inv :=
  (hI.setRegVal hr prd q.1).setRegVal hr (pairSecond prd) q.2

/-- An output string of an admitted length, then 0x00 to the end of OUT_BUF (R25, R39). -/
theorem State.Inv.setOut (hr : s.rstN = true) {bytes : List Byte} (h3 : 3 ≤ bytes.length) (h72 : bytes.length ≤ 72) :
    (s.setOut bytes).Inv where
  memWf := wf_writeBytes _ _ hI.memWf
  memInBuffers := inBuffers_writeBytes _ (fun j hj => by
    rw [outImage_length] at hj
    simp [inOutBuf, hj]) hI.memInBuffers
  busyCleared := hI.busyCleared
  resultOk := hI.resultOk
  outLenRange := by
    rw [State.setOut_outLen, BitVec.toNat_ofNat, Nat.mod_eq_of_lt (by omega)]
    exact .inr ⟨h3, h72⟩
  outZeroAfter j hj hsize := by
    rw [State.setOut_outLen, BitVec.toNat_ofNat, Nat.mod_eq_of_lt (by omega)] at hj
    rw [State.outByte_setOut s bytes j hsize hI.memWf, List.getD_eq_default _ _ hj]
  heldInReset h := absurd (hr.symm.trans h) Bool.noConfusion

theorem State.Inv.exec {i : Instr} {t : State} (hr : s.rstN = true) (h : exec i s = .next t) : t.Inv := by
  rcases exec_inversion h with ⟨c, -, rfl⟩ | ⟨rd, v, res, rfl, -⟩ | ⟨prd, q, rfl, -⟩ | ⟨bytes, rfl, -, -, h3, h72⟩ |
    ⟨prd, q, bytes, rfl, -, -, h3, h72⟩
  · exact hI.finish hr fun hf => absurd hf Bool.false_ne_true
  · exact (hI.setRegVal hr rd v).finish hr fun _ => rfl
  · exact (hI.setPairVal hr prd q).finish hr fun _ => rfl
  · exact (hI.setOut hr h3 h72).finish hr fun _ => rfl
  · exact ((hI.setPairVal hr prd q).setOut hr h3 h72).finish hr fun _ => rfl

theorem State.Inv.completionStep {t : State} (h : completionStep s = .next t) : t.Inv := by
  cases hf : s.inFlight with
  | false =>
    rw [completionStep_idle hf] at h
    cases h
    exact hI
  | true =>
    obtain ⟨-, hr⟩ := Bool.and_eq_true_iff.1 hf
    rw [completionStep_inFlight hf] at h
    cases hd : decode s.cmd with
    | command i =>
      rw [completeInFlight_command hd] at h
      exact hI.exec hr h
    | illegal why =>
      rw [completeInFlight_illegal hd] at h
      cases h
      exact hI.finish hr fun hf => absurd hf Bool.false_ne_true

/-! ### Transfers -/

theorem State.Inv.busRead (off : Offset) : (s.busRead off).Inv := by
  unfold State.busRead
  split <;> exact hI.withEnvironment _ _ s.inputs

/-- A write of an aligned offset, by what the offset names. -/
theorem State.Inv.writeTarget (hr : s.rstN = true) {off : Offset} (ha : aligned off = true) (v : Word) :
    (writeTarget s v (busTarget off)).Inv := by
  have hdrop : s.dropWrite.Inv := hI.of_memory_kept hr rfl rfl hI.busyCleared hI.resultOk
  cases ht : busTarget off with
  | id | outLen | outBuf | reserved => exact hI
  | ctrl =>
    rw [Machine.writeTarget, State.writeCtrl]
    split
    · exact inv_reset_withEnvironment s.rstN s.prdata s.pslverr s.inputs
    · exact hI.of_memory_kept hr rfl rfl hI.busyCleared hI.resultOk
  | status =>
    refine hI.of_memory_kept hr rfl rfl (fun hb => ?_) hI.resultOk
    obtain ⟨hdone, hrest⟩ := hI.busyCleared hb
    exact ⟨by simp [Machine.writeTarget, hdone], hrest⟩
  | cmd =>
    rw [Machine.writeTarget]
    split
    · exact hdrop
    · exact hI.of_memory_kept hr rfl rfl (fun _ => ⟨rfl, rfl, rfl⟩) fun _ => rfl
  | inLen | regWord =>
    rw [Machine.writeTarget]
    split
    · exact hdrop
    · exact hI.of_memory_kept hr rfl rfl hI.busyCleared hI.resultOk
  | inBuf addr =>
    rw [Machine.writeTarget]
    split
    · exact hdrop
    · obtain ⟨-, h1, h2⟩ := busTarget_inBuf ha ht
      exact hI.writeInBuf hr v h1 h2

theorem State.Inv.busWrite (hr : s.rstN = true) (off : Offset) (v : Word) : (s.busWrite off v).Inv := by
  cases ha : aligned off with
  | false =>
    rw [busWrite_misaligned ha]
    exact hI.withEnvironment s.prdata true s.inputs
  | true =>
    rw [busWrite_aligned ha]
    exact (hI.writeTarget hr ha v).withEnvironment _ false _

/-- A transfer while rst_n is low is not served (R330). -/
theorem State.Inv.serve {after t : State} (hafter : s.rstN = true → after.Inv) (h : serve s after = .next t) :
    t.Inv := by
  cases hr : s.rstN with
  | true =>
    rw [serve_high hr] at h
    cases h
    exact hafter hr
  | false =>
    rw [serve_low hr] at h
    cases h
    exact hI

end

/-- Settles O15: the invariant of the state with its event taken off, then the operation of that event. -/
theorem everyStepKeepsTheInvariant : Obligations.EveryStepKeepsTheInvariant := by
  intro s t hI h
  cases hin : s.inputs with
  | nil =>
    rw [step_nil hin] at h
    exact hI.completionStep h
  | cons e rest =>
    have hI' : (s.setInputs rest).Inv := hI.withEnvironment s.prdata s.pslverr rest
    rw [step_cons hin] at h
    cases e with
    | read off => exact hI'.serve (fun _ => hI'.busRead off) h
    | write off v => exact hI'.serve (fun hr => hI'.busWrite hr off v) h
    | complete => exact hI'.completionStep h
    | rstLow =>
      cases h
      exact inv_reset_withEnvironment false s.prdata s.pslverr rest
    | rstHigh =>
      cases h
      exact hI'.of_memory_kept rfl rfl rfl hI'.busyCleared hI'.resultOk

end Sys2Proof.Machine
end

section
/-! PROOFS. Sequences of transfers (20_memory.md section 5, 30_encoding.md section 4, 10_state.md section 5): a write
made twice, the eight writes of LD256, EXEC, and transfers beside a running command. -/

namespace Sys2Proof.Machine

/-! ### A write made twice -/

/-- No target's write reads or changes pslverr (R64). -/
theorem writeTarget_setSlverr (s : State) (e : Bool) (v : Word) (target : BusTarget) :
    writeTarget (s.setSlverr e) v target = (writeTarget s v target).setSlverr e := by
  cases target with
  | id | status | outLen | outBuf | reserved => rfl
  | ctrl =>
    simp only [writeTarget, State.writeCtrl]
    split <;> rfl
  | cmd | inLen | regWord | inBuf =>
    cases hb : s.busy <;> simp only [writeTarget, State.setSlverr_busy, hb, if_true, Bool.false_eq_true, if_false] <;>
      rfl

theorem setReg_setReg (s : State) (k : Reg) (v w : Word256) : (s.setReg k v).setReg k w = s.setReg k w := by
  simp [State.setReg]

theorem setWordOfReg_setWordOfReg (r : Word256) (i : Fin 8) (w : Word) :
    setWordOfReg (setWordOfReg r i w) i w = setWordOfReg r i w := by
  refine BitVec.eq_of_getLsbD_eq fun b hb => ?_
  simp only [getLsbD_setWordOfReg _ _ _ b hb]
  split <;> rfl

/-- A byte string written twice at one place (R68). -/
theorem writeBytes_writeBytes {m : Memory} (hwf : m.wf = true) (addr : Nat) (vs : List Byte) :
    writeBytes (writeBytes m addr vs) addr vs = writeBytes m addr vs := by
  have hwf' := wf_writeBytes addr vs hwf
  refine memory_ext (wf_writeBytes addr vs hwf') hwf' fun a => ?_
  simp only [readByte_writeBytes addr a vs hwf', readByte_writeBytes addr a vs hwf]
  split <;> rfl

/-- Every write but an acceptance, made twice, leaves what it leaves once (R72). -/
theorem writeTarget_writeTarget {s : State} (hwf : s.mem.wf = true) (v : Word) {target : BusTarget}
    (hcmd : target = .cmd → s.busy = true) :
    writeTarget (writeTarget s v target) v target = writeTarget s v target := by
  cases target with
  | id | outLen | outBuf | reserved => rfl
  | ctrl =>
    simp only [writeTarget, State.writeCtrl]
    split <;> rfl
  | status => simp [writeTarget, State.clearStatus]
  | cmd => simp [writeTarget, hcmd rfl, State.dropWrite]
  | inLen => cases hb : s.busy <;> simp [writeTarget, hb, State.dropWrite]
  | regWord k i =>
    cases hb : s.busy <;> simp [writeTarget, hb, State.dropWrite, setReg_setReg, setWordOfReg_setWordOfReg]
  | inBuf addr => cases hb : s.busy <;> simp [writeTarget, hb, State.dropWrite, writeBytes_writeBytes hwf]

/-- Settles O28: a read writes the bus outputs; a write by the target of its offset. -/
theorem readsHaveNoSideEffectAndWritesRepeat : Obligations.ReadsHaveNoSideEffectAndWritesRepeat := by
  refine ⟨fun s off rest hr hin => ?reads, fun s off v hwf hacc => ?writes⟩
  case reads =>
    cases ha : aligned off with
    | true => exact ⟨_, _, step_read_aligned hr ha hin⟩
    | false =>
      rw [step_read hr hin, busRead_misaligned ha]
      exact ⟨_, _, rfl⟩
  case writes =>
    cases ha : aligned off with
    | false => simp only [busWrite_misaligned ha]
    | true =>
      have hcmd : busTarget off = .cmd → s.busy = true := fun ht => by
        have hn := busTarget_namedBy off
        rw [ht] at hn
        exact Bool.eq_true_of_not_eq_false fun hb => hacc ⟨BitVec.eq_of_toNat_eq hn, hb⟩
      simp only [busWrite_aligned ha, writeTarget_setSlverr, writeTarget_writeTarget hwf v hcmd]
      rfl

/-! ### LD256 -/

/-- A register with some of its words written from a value, one after another (R67, R106). -/
def loadWords (v : Nat) (r : Word256) (is : List (Fin 8)) : Word256 :=
  is.foldl (fun r i => setWordOfReg r i (wordOfNat v i.val)) r

theorem getLsbD_wordOfNat (v i b : Nat) (hb : b < 32) : (wordOfNat v i).getLsbD b = v.testBit (32 * i + b) := by
  rw [wordOfNat, BitVec.getLsbD_ofNat, Nat.testBit_div_two_pow, Nat.add_comm b]
  simp [hb]

/-- Bit by bit: the bits of the written words are the value's, every other is the register's. -/
theorem getLsbD_loadWords (v : Nat) (r : Word256) (is : List (Fin 8)) {b : Nat} (hb : b < 256) :
    (loadWords v r is).getLsbD b = if ∃ i ∈ is, i.val = b / 32 then v.testBit b else r.getLsbD b := by
  induction is generalizing r with
  | nil => simp [loadWords]
  | cons i is ih =>
    have hrest := ih (setWordOfReg r i (wordOfNat v i.val))
    rw [getLsbD_setWordOfReg _ _ _ b hb] at hrest
    rw [show loadWords v r (i :: is) = loadWords v (setWordOfReg r i (wordOfNat v i.val)) is from rfl, hrest]
    by_cases hi : i.val = b / 32
    · rw [if_pos (show 32 * i.val ≤ b ∧ b < 32 * i.val + 32 by omega), getLsbD_wordOfNat _ _ _ (by omega),
        Nat.add_sub_cancel' (by omega)]
      simp [hi]
    · rw [if_neg (show ¬(32 * i.val ≤ b ∧ b < 32 * i.val + 32) by omega)]
      simp [hi]

/-- All eight words written are the value (R106). -/
theorem loadWords_finRange (v : Nat) (r : Word256) : loadWords v r (List.finRange 8) = BitVec.ofNat 256 v := by
  refine BitVec.eq_of_getLsbD_eq fun b hb => ?_
  have hword : ∃ i ∈ List.finRange 8, i.val = b / 32 := ⟨⟨b / 32, by omega⟩, List.mem_finRange _, rfl⟩
  rw [getLsbD_loadWords v r _ hb, if_pos hword, BitVec.getLsbD_ofNat]
  simp [hb]

/-- A served write of a register word on an idle block (R67). -/
theorem step_writeRegWord {s : State} {k : Reg} {i : Fin 8} {w : Word} {rest : List HostEvent} (hr : s.rstN = true)
    (hb : s.busy = false) (h : s.inputs = .write (regOffset k i.val) w :: rest) :
    step s = .next (((s.setReg k (setWordOfReg (s.reg k) i w)).setInputs rest).setSlverr false) := by
  rw [step_write_aligned hr (aligned_regOffset k i) h, busTarget_regOffset, writeTarget, if_neg (by simp [hb])]
  rfl

theorem setReg_reg (s : State) (k : Reg) : s.setReg k (s.reg k) = s := by
  simp [State.setReg, State.reg]

/-- The writes of some words of a register, run one after another; pslverr is 0 after the first (R64). -/
theorem run_writeRegWords {s : State} {k : Reg} (v : Nat) (is : List (Fin 8)) {rest : List HostEvent}
    (hr : s.rstN = true) (hb : s.busy = false)
    (h : s.inputs = is.map (fun i => .write (regOffset k i.val) (wordOfNat v i.val)) ++ rest) :
    Host.Core.run Sys2Proof.core is.length s =
      .next (((s.setReg k (loadWords v (s.reg k) is)).setInputs rest).setSlverr (s.pslverr && is.isEmpty)) := by
  induction is generalizing s with
  | nil =>
    have hin : s.inputs = rest := h
    simp [loadWords, setReg_reg, ← hin, State.setInputs, State.setSlverr]
  | cons i is ih =>
    rw [List.length_cons, run_succ (step_writeRegWord hr hb h)]
    refine (ih ?_ ?_ ?_).trans ?_
    · exact hr
    · exact hb
    · rfl
    · simp [loadWords, State.setReg, State.setInputs, State.setSlverr, State.reg]

/-- The eight writes of LD256 (R106). -/
theorem run_ld256 {s : State} {k : Reg} {v : Nat} {rest : List HostEvent} (hr : s.rstN = true) (hb : s.busy = false)
    (h : s.inputs = ld256Events k v ++ rest) :
    Host.Core.run Sys2Proof.core 8 s = .next (((s.setRegVal k v).setInputs rest).setSlverr false) := by
  have hrun := run_writeRegWords v (List.finRange 8) hr hb h
  rwa [loadWords_finRange, List.length_finRange, show (List.finRange 8).isEmpty = false from rfl,
    Bool.and_false] at hrun

theorem wordOfReg_ofNat (v : Nat) (i : Fin 8) : wordOfReg (BitVec.ofNat 256 v) i = wordOfNat v i.val := by
  refine BitVec.eq_of_getLsbD_eq fun b hb => ?_
  rw [getLsbD_wordOfReg _ _ _ hb, getLsbD_wordOfNat _ _ _ hb, BitVec.getLsbD_ofNat]
  simp [show 32 * i.val + b < 256 by omega]

/-- Settles O29: the eight writes, then each word of the register they leave. -/
theorem loadRegisterThenReadItBack : Obligations.LoadRegisterThenReadItBack := by
  intro s k v rest hr hb _ hin
  refine ⟨run_ld256 hr hb hin, fun i => ?_⟩
  rw [busTarget_regOffset, readTarget, if_neg (show ¬(s.setRegVal k v).busy = true from Bool.eq_false_iff.1 hb),
    State.reg_setRegVal, if_pos rfl, wordOfReg_ofNat]

/-! ### EXEC -/

/-- Settles O30: the acceptance, the completion of the word just accepted, and the read of STATUS after it. -/
theorem hostExecRunsTheCommand : Obligations.HostExecRunsTheCommand := by
  intro s i rest hr hb hwf hin
  obtain ⟨t, ht⟩ := exec_next i { s.accept (encode i) with pslverr := false, inputs := .read statusOffset :: rest }
  have hsame := exec_sameSurroundings ht
  obtain ⟨code, res, hflags⟩ := exec_flags ht
  have hcomplete :
      step (((s.setInputs (.complete :: .read statusOffset :: rest)).accept (encode i)).setSlverr false) = .next t := by
    rw [step_complete (rest := .read statusOffset :: rest) (by simp [State.inFlight, hr]) rfl]
    exact (completeInFlight_command (decodeInvertsEncode i hwf)).trans ht
  have hread : step t = .next { t with prdata := t.statusWord, pslverr := false, inputs := rest } :=
    step_read_aligned (hsame.rstN.trans hr) rfl hsame.inputs
  refine ⟨t, ht, ?_, ?_, ?_⟩
  · rw [run_succ (step_accept (rest := .complete :: .read statusOffset :: rest) hr hb hin), run_succ hcomplete, run_succ hread, run_zero]
  · rw [getLsbD_statusWord, if_pos rfl, hflags.busy, State.finish_busy]
  · rw [getLsbD_statusWord, if_neg Nat.one_ne_zero, if_pos rfl, hflags.done, State.finish_done]

/-! ### Transfers beside a running command -/

/-- What a running command reads and what its completion writes, and rst_n, agree; IE, WERR, DONE, ERR, RESULT, the bus
outputs and the coming events may differ. -/
structure SameCommand (s t : State) : Prop where
  regs : t.regs = s.regs
  mem : t.mem = s.mem
  inLen : t.inLen = s.inLen
  outLen : t.outLen = s.outLen
  cmd : t.cmd = s.cmd
  busy : t.busy = s.busy
  rstN : t.rstN = s.rstN

theorem SameCommand.trans {s t u : State} (h : SameCommand s t) (h' : SameCommand t u) : SameCommand s u :=
  ⟨h'.regs.trans h.regs, h'.mem.trans h.mem, h'.inLen.trans h.inLen, h'.outLen.trans h.outLen, h'.cmd.trans h.cmd,
    h'.busy.trans h.busy, h'.rstN.trans h.rstN⟩

/-- A write that resets nothing cannot touch a running command (R37). -/
theorem writeTarget_sameCommand {s : State} {off : Offset} {v : Word} (hb : s.busy = true)
    (hplain : plainTransfer (.write off v) = true) : SameCommand s (writeTarget s v (busTarget off)) := by
  have hn := busTarget_namedBy off
  cases ht : busTarget off with
  | id | status | outLen | outBuf | reserved => exact ⟨rfl, rfl, rfl, rfl, rfl, rfl, rfl⟩
  | ctrl =>
    rw [ht] at hn
    obtain rfl : off = 0x004#12 := BitVec.eq_of_toNat_eq hn
    have h1 : v.getLsbD 1 = false := by simpa [plainTransfer] using hplain
    rw [writeTarget, writeCtrl_ie h1]
    exact ⟨rfl, rfl, rfl, rfl, rfl, rfl, rfl⟩
  | cmd | inLen | regWord | inBuf =>
    rw [writeTarget, if_pos hb]
    exact ⟨rfl, rfl, rfl, rfl, rfl, rfl, rfl⟩

/-- No write takes or adds a coming event (R73). -/
theorem writeTarget_inputs (s : State) (v : Word) (target : BusTarget) :
    (writeTarget s v target).inputs = s.inputs := by
  cases target with
  | id | status | outLen | outBuf | reserved => rfl
  | ctrl =>
    rw [writeTarget, State.writeCtrl]
    split <;> rfl
  | cmd | inLen | regWord | inBuf =>
    rw [writeTarget]
    split <;> rfl

theorem step_plainTransfer {s : State} {e : HostEvent} {rest : List HostEvent} (hb : s.busy = true)
    (hr : s.rstN = true) (hplain : plainTransfer e = true) (hin : s.inputs = e :: rest) :
    ∃ t, step s = .next t ∧ t.inputs = rest ∧ SameCommand s t := by
  cases e with
  | complete | rstLow | rstHigh => cases hplain
  | read off =>
    rw [step_read hr hin, State.busRead]
    split <;> exact ⟨_, rfl, rfl, rfl, rfl, rfl, rfl, rfl, rfl, rfl⟩
  | write off v =>
    cases ha : aligned off with
    | false =>
      rw [step_write hr hin, busWrite_misaligned ha]
      exact ⟨_, rfl, rfl, rfl, rfl, rfl, rfl, rfl, rfl, rfl⟩
    | true =>
      have hsame : SameCommand (s.setInputs rest) (writeTarget (s.setInputs rest) v (busTarget off)) :=
        writeTarget_sameCommand hb hplain
      exact ⟨_, step_write_aligned hr ha hin, writeTarget_inputs _ v _, hsame.regs, hsame.mem, hsame.inLen,
        hsame.outLen, hsame.cmd, hsame.busy, hsame.rstN⟩

/-- Transfers that reset nothing, run one after another (R37, R76). -/
theorem run_plainTransfers {s : State} (evs : List HostEvent) {rest : List HostEvent} (hb : s.busy = true)
    (hr : s.rstN = true) (hplain : evs.all plainTransfer = true) (hin : s.inputs = evs ++ rest) :
    ∃ t, Host.Core.run Sys2Proof.core evs.length s = .next t ∧ t.inputs = rest ∧ SameCommand s t := by
  induction evs generalizing s with
  | nil => exact ⟨s, rfl, hin, rfl, rfl, rfl, rfl, rfl, rfl, rfl⟩
  | cons e evs ih =>
    obtain ⟨he, hevs⟩ := Bool.and_eq_true_iff.1 hplain
    obtain ⟨t, hstep, hin', hsame⟩ := step_plainTransfer hb hr he hin
    obtain ⟨u, hrun, hrest, hsame'⟩ := ih (hsame.busy.trans hb) (hsame.rstN.trans hr) hevs hin'
    exact ⟨u, (run_succ hstep _).trans hrun, hrest, hsame.trans hsame'⟩

/-- A completion has one effect on states with the same command. -/
theorem SameCommand.completeInFlight_alike {s t : State} (h : SameCommand s t) :
    ∃ e : Effect, completeInFlight s = .next (e.apply s) ∧ completeInFlight t = .next (e.apply t) := by
  have hinputs : SameInputs s t := ⟨h.regs.symm, h.inLen.symm, fun j _ => by rw [State.inByte, State.inByte, h.mem]⟩
  cases hd : decode s.cmd with
  | command i =>
    obtain ⟨e, -, hs, ht⟩ := hinputs.exec_alike i
    exact ⟨e, (completeInFlight_command hd).trans hs, (completeInFlight_command (h.cmd ▸ hd)).trans ht⟩
  | illegal why =>
    refine ⟨⟨s.regs, none, .illegal, false⟩, completeInFlight_illegal hd, ?_⟩
    rw [completeInFlight_illegal (h.cmd ▸ hd), ← h.regs]
    rfl

/-- An effect leaves the same command state where it finds the same, and the same STATUS but WERR. -/
theorem SameCommand.apply {s t : State} (h : SameCommand s t) (e : Effect) :
    SameCommand (e.apply s) (e.apply t) ∧ (e.apply t).done = (e.apply s).done ∧ (e.apply t).err = (e.apply s).err ∧
      (e.apply t).result = (e.apply s).result := by
  obtain ⟨regs, out, err, result⟩ := e
  cases out with
  | none => exact ⟨⟨rfl, h.mem, h.inLen, h.outLen, h.cmd, rfl, h.rstN⟩, rfl, rfl, rfl⟩
  | some bytes =>
    have hmem := congrArg (writeBytes · Config.outBase (outImage bytes)) h.mem
    exact ⟨⟨rfl, hmem, h.inLen, rfl, h.cmd, rfl, h.rstN⟩, rfl, rfl, rfl⟩

/-- The one step at the place of a completion, with a command in flight. -/
theorem run_complete {s : State} {rest : List HostEvent} (hb : s.busy = true) (hr : s.rstN = true)
    (hin : s.inputs = .complete :: rest) {e : Effect}
    (he : completeInFlight (s.setInputs rest) = .next (e.apply (s.setInputs rest))) :
    Host.Core.run Sys2Proof.core 1 s = .next (e.apply (s.setInputs rest)) := by
  rw [run_succ ((step_complete (by simp [State.inFlight, hb, hr]) hin).trans he), run_zero]

/-- Settles O35: the transfers keep what the command reads and writes, so its completion has one effect. -/
theorem hostCannotDisturbARunningCommand : Obligations.HostCannotDisturbARunningCommand := by
  intro s t u evs hb hr hplain ht hu
  obtain ⟨s', hrun, hin', hsame⟩ :=
    run_plainTransfers (s := { s with inputs := evs ++ [.complete] }) evs hb hr hplain rfl
  have hsame' : SameCommand (s.setInputs []) (s'.setInputs []) :=
    ⟨hsame.regs, hsame.mem, hsame.inLen, hsame.outLen, hsame.cmd, hsame.busy, hsame.rstN⟩
  obtain ⟨e, hat_once, hafter⟩ := hsame'.completeInFlight_alike
  rw [run_add hrun, run_complete (hsame.busy.trans hb) (hsame.rstN.trans hr) hin' hafter] at ht
  have hu' := (run_complete (s := { s with inputs := [.complete] }) hb hr rfl hat_once).symm.trans hu
  cases ht
  cases hu'
  obtain ⟨hend, hdone, herr, hresult⟩ := hsame'.apply e
  exact ⟨hend.regs, hend.mem, hend.inLen, hend.outLen, hend.cmd, hend.busy, hdone, herr, hresult⟩

end Sys2Proof.Machine
end

section
/-! PROOFS. The pseudo-instructions of R105: each expansion run command after command, and the residue it computes. -/

namespace Sys2Proof.Machine

/-! ### Residues -/

/-- A quotient times its divisor gives the dividend back (R105, R140). -/
theorem mul_invBy_mul_mod (v : InvMethod) (m : Modulus) {x y : Nat} (hx : x < modulus m) (h0 : 0 < y)
    (hy : y < modulus m) : x * invBy v (modulus m) y % modulus m * y % modulus m = x := by
  obtain ⟨-, hinv⟩ := invBy_spec v m y h0 hy
  have hone : y * invBy v (modulus m) y ≡ 1 [MOD modulus m] :=
    hinv.trans (Nat.mod_eq_of_lt (modulus_prime m).one_lt).symm
  refine Nat.ModEq.eq_of_lt_of_lt ?_ (Nat.mod_lt _ (modulus_prime m).pos) hx
  calc x * invBy v (modulus m) y % modulus m * y % modulus m
      ≡ x * invBy v (modulus m) y * y [MOD modulus m] := (Nat.mod_modEq _ _).trans ((Nat.mod_modEq _ _).mul_right y)
    _ = x * (y * invBy v (modulus m) y) := by ring
    _ ≡ x * 1 [MOD modulus m] := hone.mul_left x
    _ = x := Nat.mul_one x

/-- R27's constants are the square of the Montgomery radix. -/
theorem constStore_montConst (m : Modulus) : constStore (montConst m) = Config.radix * Config.radix % modulus m := by
  cases m <;> decide +kernel

/-- The Montgomery product with 2^512 mod m multiplies by the radix (R105, R130). -/
theorem montMul_montConst (m : Modulus) (x : Nat) :
    montMul (modulus m) x (constStore (montConst m)) = x * Config.radix % modulus m := by
  obtain ⟨hlt, hmul⟩ := montMul_spec m x (constStore (montConst m))
  refine eq_of_mul_mod_eq (gcd_modulus_radix m) hlt (Nat.mod_lt _ (modulus_prime m).pos) (hmul.trans ?_)
  rw [constStore_montConst, Nat.mul_mod_mod, Nat.mod_mul_mod, Nat.mul_assoc]

/-! ### One command of an expansion -/

/-- A command of an expansion is done: the block is idle again, without an error, `rd` holds the result and every other
register what it held. -/
structure CommandDone (s t : State) (rest : List HostEvent) (rd : Reg) (v : Nat) : Prop where
  rstN : t.rstN = true
  busy : t.busy = false
  inputs : t.inputs = rest
  err : t.err = .ok
  value : t.regVal rd = v
  kept : ∀ r, r ≠ rd → t.regVal r = s.regVal r

/-- EXEC of a command that gives a register result wherever the registers are as they are now (R106, R340). -/
theorem run_exec_regResult {s : State} {i : Instr} {rest : List HostEvent} {rd : Reg} {v : Nat} (hr : s.rstN = true)
    (hb : s.busy = false) (hwf : i.wf = true) (hin : s.inputs = (HostStatement.exec i).events ++ rest)
    (hres : ∀ u : State, (∀ r, u.regVal r = s.regVal r) → ∃ t, exec i u = .next t ∧ RegResult u t rd v false) :
    ∃ t, Host.Core.run Sys2Proof.core 3 s = .next t ∧ CommandDone s t rest rd v := by
  obtain ⟨t, ht, hrun, -⟩ := hostExecRunsTheCommand s i rest hr hb hwf hin
  obtain ⟨t', ht', hdone, hval, hkept, -⟩ :=
    hres { s.accept (encode i) with pslverr := false, inputs := .read statusOffset :: rest } fun r => rfl
  obtain rfl : t' = t := Host.Outcome.next.inj (ht'.symm.trans ht)
  refine ⟨_, hrun, hdone.same.rstN.trans hr, hdone.busy, rfl, hdone.err, hval, fun r hne => ?_⟩
  exact congrArg BitVec.toNat (hkept r (mt List.mem_singleton.1 hne))

section
variable {s : State} {rest : List HostEvent} (hr : s.rstN = true) (hb : s.busy = false) (rd : Reg)
include hr hb

/-- EXEC of a binary modular command on two residues. -/
theorem run_exec_binaryModular {f : Nat → Nat → Nat → Nat} {i : Instr} {r1 r2 : Reg} {m : Modulus} {v : Nat}
    (hwf : i.wf = true) (hexec : ∀ u, exec i u = binaryModular f rd r1 r2 m u)
    (hin : s.inputs = (HostStatement.exec i).events ++ rest) (h1 : s.regVal r1 < modulus m)
    (h2 : s.regVal r2 < modulus m) (hf : f (modulus m) (s.regVal r1) (s.regVal r2) = v) (hv : v < modulus m) :
    ∃ t, Host.Core.run Sys2Proof.core 3 s = .next t ∧ CommandDone s t rest rd v :=
  run_exec_regResult hr hb hwf hin fun u hu => by
    rw [hexec]
    exact binaryModular_regResult rd ((hu r1).symm ▸ h1) ((hu r2).symm ▸ h2) (by rw [hu, hu, hf]) hv

theorem run_exec_mmul {r1 r2 : Reg} {m : Modulus}
    (hin : s.inputs = (HostStatement.exec (.mmul rd r1 r2 m)).events ++ rest) (h1 : s.regVal r1 < modulus m)
    (h2 : s.regVal r2 < modulus m) :
    ∃ t, Host.Core.run Sys2Proof.core 3 s = .next t ∧
      CommandDone s t rest rd (s.regVal r1 * s.regVal r2 % modulus m) :=
  run_exec_binaryModular hr hb rd (f := mulMod) rfl (fun _ => rfl) hin h1 h2 rfl (Nat.mod_lt _ (modulus_prime m).pos)

theorem run_exec_montmul {r1 r2 : Reg} {m : Modulus}
    (hin : s.inputs = (HostStatement.exec (.montmul rd r1 r2 m)).events ++ rest) (h1 : s.regVal r1 < modulus m)
    (h2 : s.regVal r2 < modulus m) :
    ∃ t, Host.Core.run Sys2Proof.core 3 s = .next t ∧
      CommandDone s t rest rd (montMul (modulus m) (s.regVal r1) (s.regVal r2)) :=
  run_exec_binaryModular hr hb rd (f := montMul) rfl (fun _ => rfl) hin h1 h2 rfl (montMul_spec m _ _).1

theorem run_exec_minv {r1 : Reg} {m : Modulus} {v : InvMethod}
    (hin : s.inputs = (HostStatement.exec (.minv rd r1 m v)).events ++ rest) (h0 : 0 < s.regVal r1)
    (h1 : s.regVal r1 < modulus m) :
    ∃ t, Host.Core.run Sys2Proof.core 3 s = .next t ∧
      CommandDone s t rest rd (invBy v (modulus m) (s.regVal r1)) := by
  obtain ⟨hlt, -⟩ := invBy_spec v m (s.regVal r1) h0 h1
  refine run_exec_regResult hr hb rfl hin fun u hu => ?_
  rw [← hu r1] at h0 h1 hlt ⊢
  exact ⟨_, (if_neg h1.not_ge).trans (if_neg h0.ne'), regResult_finish u rd _ false (hlt.trans (modulus_lt m))⟩

theorem run_exec_mred {r1 : Reg} {m : Modulus}
    (hin : s.inputs = (HostStatement.exec (.mred rd r1 m)).events ++ rest) :
    ∃ t, Host.Core.run Sys2Proof.core 3 s = .next t ∧ CommandDone s t rest rd (s.regVal r1 % modulus m) :=
  run_exec_regResult hr hb rfl hin fun u hu => by
    rw [← hu r1]
    exact ⟨_, rfl, regResult_finish u rd _ false ((Nat.mod_le _ _).trans_lt (u.regVal_lt r1))⟩

theorem run_exec_ldc {k : ConstName} (hin : s.inputs = (HostStatement.exec (.ldc rd k)).events ++ rest) :
    ∃ t, Host.Core.run Sys2Proof.core 3 s = .next t ∧ CommandDone s t rest rd (constStore k) :=
  run_exec_regResult hr hb rfl hin fun u _ => ⟨_, rfl, regResult_finish u rd _ false (constStore_lt k)⟩

/-- LD256 of a number below 2^256, as a command is done but for the error code, which it leaves (R106). -/
theorem run_ld256_regVal {v : Nat} (hv : v < 2 ^ 256) (hin : s.inputs = ld256Events rd v ++ rest) :
    ∃ t, Host.Core.run Sys2Proof.core 8 s = .next t ∧ t.rstN = true ∧ t.busy = false ∧ t.inputs = rest ∧
      ∀ r, t.regVal r = if rd = r then v else s.regVal r :=
  ⟨_, run_ld256 hr hb hin, hr, hb, rfl, fun r => s.regVal_setRegVal rd r hv⟩

end

/-! ### The expansions -/

/-- Settles O44: each expansion's commands one after another, the second on the registers the first leaves. -/
theorem pseudoInstructionsGiveTheirValues : Obligations.PseudoInstructionsGiveTheirValues := by
  intro m rd rs rt s rest hr hb hrs
  refine ⟨fun prog hprog hin => ?msqr, fun prog hprog hin => ?mmov, fun prog hprog hin h0 hrt => ?mdiv,
    fun prog hprog hin => ?tomont, fun prog hprog hin => ?frommont⟩
  case msqr =>
    cases hprog
    obtain ⟨t, hrun, ht⟩ := run_exec_mmul hr hb rd hin hrs hrs
    exact ⟨t, hrun, ht.inputs, ht.err, ht.value⟩
  case mmov =>
    cases hprog
    obtain ⟨t, hrun, ht⟩ := run_exec_mred hr hb rd hin
    exact ⟨t, hrun, ht.inputs, ht.err, ht.value.trans (Nat.mod_eq_of_lt hrs)⟩
  case mdiv =>
    simp only [Pseudo.expand] at hprog
    split at hprog
    · next hne =>
      cases hprog
      obtain ⟨u, hrun, hu⟩ := run_exec_minv hr hb rd hin h0 hrt
      have hinv : u.regVal rd < modulus m := hu.value ▸ (invBy_spec _ m _ h0 hrt).1
      have hkept := hu.kept rs (Ne.symm hne)
      obtain ⟨t, hrun', ht⟩ := run_exec_mmul hu.rstN hu.busy rd hu.inputs (hkept.symm ▸ hrs) hinv
      refine ⟨t, (run_add hrun 3).trans hrun', ht.inputs, ht.err, ?_, ?_⟩
      · rw [ht.value]
        exact Nat.mod_lt _ (modulus_prime m).pos
      · rw [ht.value, hkept, hu.value]
        exact mul_invBy_mul_mod _ m hrs h0 hrt
    · cases hprog
  case tomont =>
    simp only [Pseudo.expand] at hprog
    split at hprog
    · next hne =>
      cases hprog
      obtain ⟨u, hrun, hu⟩ := run_exec_ldc hr hb rt hin
      have hconst : u.regVal rt < modulus m := by
        rw [hu.value, constStore_montConst]
        exact Nat.mod_lt _ (modulus_prime m).pos
      have hkept := hu.kept rs (Ne.symm hne)
      obtain ⟨t, hrun', ht⟩ := run_exec_montmul hu.rstN hu.busy rd hu.inputs (hkept.symm ▸ hrs) hconst
      refine ⟨t, (run_add hrun 3).trans hrun', ht.inputs, ht.err, ?_⟩
      rw [ht.value, hkept, hu.value]
      exact montMul_montConst m _
    · cases hprog
  case frommont =>
    simp only [Pseudo.expand] at hprog
    split at hprog
    · next hne =>
      cases hprog
      obtain ⟨u, hrun, hur, hub, hui, hregs⟩ := run_ld256_regVal hr hb rt (by decide) hin
      have hone : u.regVal rt = 1 := (hregs rt).trans (if_pos rfl)
      have hkept : u.regVal rs = s.regVal rs := (hregs rs).trans (if_neg hne)
      obtain ⟨t, hrun', ht⟩ := run_exec_montmul hur hub rd hui (hkept.symm ▸ hrs)
        (hone.symm ▸ (modulus_prime m).one_lt)
      obtain ⟨hlt, hmul⟩ := montMul_spec m (s.regVal rs) 1
      refine ⟨t, (run_add hrun 3).trans hrun', ht.inputs, ht.err, ?_, ?_⟩
      · rw [ht.value, hkept, hone]
        exact hlt
      · rw [ht.value, hkept, hone]
        exact hmul.trans (by rw [Nat.mul_one, Nat.mod_eq_of_lt hrs])
    · cases hprog

end Sys2Proof.Machine
end

section
/-! PROOFS. The length octets of DER (41_der.md rule R170): the long form's count byte and its shortest string. -/

namespace Sys2Proof.Machine

theorem derLen_long {L : Nat} (h : 128 ≤ L) : derLen L = (0x80#8 ||| BitVec.ofNat 8 (beMin L).length) :: beMin L :=
  if_neg (by omega)

/-- The shortest string of a number other than 0 begins with a byte other than 0 (00_scope.md section 5). -/
theorem beMin_getD_zero_ne {v : Nat} (h : v ≠ 0) : (beMin v).getD 0 0 ≠ 0 := by
  have hfuel : v < 256 ^ (v + 1) := (Nat.lt_succ_self v).trans (Nat.lt_pow_self (by decide))
  obtain ⟨c, cs, heq, hc⟩ := beMinFuel_eq_cons v v hfuel
  rw [beMin, heq]
  exact hc h

/-- The count byte 0x80 | k of k length bytes (R170). -/
theorem toNat_countByte {k : Nat} (h : k < 128) : (0x80#8 ||| BitVec.ofNat 8 k).toNat = 0x80 + k := by
  rw [BitVec.toNat_or, BitVec.toNat_ofNat, BitVec.toNat_ofNat, Nat.mod_eq_of_lt (show k < 2 ^ 8 by omega)]
  exact (Nat.two_pow_add_eq_or_of_lt (i := 7) h 1).symm

/-- Settles O47: the short form as it stands; the long form spells the length in at most 126 bytes, so its count byte
holds their number. -/
theorem derLengthForms : Obligations.DerLengthForms := by
  refine fun L => ⟨derLen_short L, fun h128 hlt => ?_⟩
  obtain ⟨h1, h126⟩ := beMinFuel_length L L 125 hlt
  exact ⟨_, beMin L, derLen_long h128, toNat_countByte (Nat.lt_of_le_of_lt h126 (by decide)), beValue_beMin L, h1,
    beMin_getD_zero_ne (by omega)⟩

end Sys2Proof.Machine
end

section
/-! PROOFS. The points of 42_point.md section 1 against the elliptic curve group: the pairs the point commands accept,
the inverses the group law takes, and PMUL. -/

namespace Sys2Proof.Machine

open Sys2Proof.Config (p)

/-! ### The group -/

theorem negPoint_pointOfGroup [Fact (Nat.Prime p)] (P : curveOverField.Point) :
    negPoint (pointOfGroup P) = pointOfGroup (-P) := by
  match P with
  | .zero => rfl
  | .some x y h =>
    rw [WeierstrassCurve.Affine.Point.neg_some]
    simp only [pointOfGroup, negPoint, curveOverField_negY, ZMod.neg_val']

/-- Settles O51: the addition and the negation of the group. -/
theorem groupLawIsTheEllipticCurveGroup : Obligations.GroupLawIsTheEllipticCurveGroup :=
  fun P Q => ⟨addPoint_pointOfGroup P Q, negPoint_pointOfGroup P⟩

/-! ### The accepted pairs -/

/-- The curve's equation over the field is the curve test of the residues (R201). -/
theorem isOnCurve_of_equation [NeZero p] {x y : ZMod p} (h : curveOverField.Equation x y) :
    isOnCurve x.val y.val = true := by
  refine isOnCurve_iff.2 ⟨x.val_lt, y.val_lt, (ZMod.natCast_eq_natCast_iff' _ _ _).1 ?_⟩
  rw [WeierstrassCurve.Affine.equation_iff] at h
  simp only [curveOverField] at h
  push_cast
  simp only [ZMod.natCast_zmod_val]
  linear_combination h

/-- A pair the point commands accept holds a point of the group. -/
theorem exists_pointOfGroup_eq_pointOfPair [Fact (Nat.Prime p)] {xy : Nat × Nat} (h : validPt xy = true) :
    ∃ P : curveOverField.Point, pointOfGroup P = pointOfPair xy := by
  unfold pointOfPair
  split
  · exact ⟨.zero, rfl⟩
  · next hne => exact exists_pointOfGroup_eq_affine (by simpa [validPt, hne] using h)

theorem validPt_pairOfPoint_pointOfGroup [NeZero p] (P : curveOverField.Point) :
    validPt (pairOfPoint (pointOfGroup P)) = true := by
  match P with
  | .zero => rfl
  | .some x y h => simp [validPt, pointOfGroup, pairOfPoint, isOnCurve_of_equation h.1]

/-- Settles O52: a valid pair holds a point of the group, and every point of the group passes the curve test. -/
theorem validPairsAreTheGroupsPoints : Obligations.ValidPairsAreTheGroupsPoints := by
  have : Fact (Nat.Prime p) := ⟨p_prime⟩
  intro xy
  constructor
  · intro h
    obtain ⟨P, hP⟩ := exists_pointOfGroup_eq_pointOfPair h
    exact ⟨P, by rw [hP, pairOfPoint_pointOfPair]⟩
  · rintro ⟨P, rfl⟩
    exact validPt_pairOfPoint_pointOfGroup P

/-! ### The inverses of the group law -/

/-- Settles O53: two points of one x have equal or opposite y; different x are different residues. -/
theorem groupLawInvertsOnlyNonZero : Obligations.GroupLawInvertsOnlyNonZero := by
  intro x1 y1 x2 y2 h1 h2 hopposite
  obtain ⟨hx1, hy1, heq1⟩ := isOnCurve_iff.1 h1
  obtain ⟨hx2, hy2, heq2⟩ := isOnCurve_iff.1 h2
  refine ⟨fun hx => ?tangent, fun hx hzero => ?chord⟩
  case tangent =>
    have hne : (y1 + y2) % p ≠ 0 := fun h => hopposite ⟨hx, h⟩
    have hsquares : y1 * y1 ≡ y2 * y2 [MOD p] := heq1.trans (hx ▸ heq2.symm)
    rcases eq_or_add_eq_of_mul_self_modEq p_prime hy1 hy2 hsquares with heq | hsum
    · subst heq
      exact ⟨rfl, Nat.two_mul y1 ▸ hne⟩
    · exact absurd (hsum ▸ Nat.mod_self p) hne
  case chord =>
    rw [subMod_of_lt p x2 x1 hx2 hx1] at hzero
    split at hzero <;> omega

/-! ### PMUL -/

theorem fitsPair_pointOfGroup [NeZero p] (P : curveOverField.Point) : (pointOfGroup P).FitsPair := by
  match P with
  | .zero => exact fitsPair_infinity
  | .some x y _ => exact ⟨x.val_lt.trans p_lt_two_pow, y.val_lt.trans p_lt_two_pow⟩

/-- Settles O54: a valid pair holds a point of the group, where double-and-add and repeated addition agree. -/
theorem pmulIsRepeatedAddition : Obligations.PmulIsRepeatedAddition := by
  have : Fact (Nat.Prime p) := ⟨p_prime⟩
  intro rd r1 r2 s hd h1
  refine ⟨wordsOf (.pmul rd r1 r2), fun hbad => ?_, fun hvalid => ?_⟩
  · rw [exec_pmul hd h1, if_pos hbad, raise_eq]
  · obtain ⟨P, hP⟩ := exists_pointOfGroup_eq_pointOfPair hvalid
    rw [exec_pmul hd h1, if_neg (by simp [hvalid]), ← hP, mulPoint, mulPointBits_pointOfGroup P 256 (s.regVal_lt r2),
      mulByAdding_pointOfGroup]
    exact complete_setPairVal_pairResult (fitsPair_pointOfGroup _) s rd

end Sys2Proof.Machine
end
